-- ==== Sys2Proof/Word.lean ====
section
/-! DEFINITION. The words of the block: bytes, 32-bit words, byte registers of fixed length, field elements.

Rules R6, R7 (00_scope.md): a byte is 8 bits, a word is 32 bits, unsigned; `+` on words wraps at 2^32.
Rule R20 (10_state.md) and R120 (44_x25519.md): a field element is modelled as its value below p. -/

namespace Sys2Proof

/-- A byte, 8 bits (00_scope.md section 6). -/
abbrev Byte := BitVec 8

/-- A 32-bit word; its `+` is `+32` of rule R6. -/
abbrev Word := BitVec 32

/-- A byte register or byte string of fixed length `n`; index 0 is the byte of the lowest address (rule R31). -/
abbrev Bytes (n : Nat) := Vector Byte n

/-- The sixteen words of a ChaCha state array (rule R11). -/
abbrev Words := Vector Word 16

/-- `zeros(n)` of 00_scope.md section 6. -/
def zeros (n : Nat) : Bytes n := Vector.replicate n 0#8

/-- FIELD_PRIME p = 2^255 - 19 (rule R4). -/
def fieldPrime : Nat := 0x7fffffffffffffffffffffffffffffffffffffffffffffffffffffffffffffed

theorem fieldPrime_pos : 0 < fieldPrime := by decide

/-- A field element: the residue itself, 0 to p-1 (rules R20, R120: Fe may be taken as that set, `val` the identity). -/
abbrev Fe := Fin fieldPrime

/-- The element whose value is `n mod p`. -/
def Fe.ofNat (n : Nat) : Fe := ⟨n % fieldPrime, Nat.mod_lt _ fieldPrime_pos⟩

end Sys2Proof
end

