-- ==== Sys2Proof/Syntax.lean ====
section
/-! DEFINITION. The encoded operations: twelve commands, four MAC-port and eight field-port operations.

Rules R45, R46, R52, R53, R54 (30_encoding.md); one constructor of `Instr` per row of spec/opcode_table.json. -/

namespace Sys2Proof

/-- The number of a field register F[0..15] (rule R20). The controller uses 0 to 12 only (rules R20, R55). -/
abbrev FReg := Fin 16

/-- The byte sources of FDEC (rule R54): U, ONE, ZERO, A24. -/
inductive ByteSource where
  | u
  | one
  | zero
  | a24
  deriving DecidableEq, Repr

/-- One encoded operation. A command carries no operand (rule R45); a MAC-port operation carries its payload
(rule R52); a field-port operation carries the fields d, a, b it uses (rule R53). -/
inductive Instr where
  | ckload
  | ccblock
  | ccxor
  | hchacha
  | aeadenc
  | aeaddec
  | xaeadenc
  | xaeaddec
  | skload
  | skpub
  | skexch
  | skdrop
  | minit (key : Bytes 32)
  | mupd (block : Bytes 16)
  | mtag
  | mvfy (tag : Bytes 16)
  | fdec (d : FReg) (src : ByteSource)
  | fenc (a : FReg)
  | fadd (d a b : FReg)
  | fsub (d a b : FReg)
  | fmul (d a b : FReg)
  | fsqr (d a : FReg)
  | finv (d a : FReg)
  | fcswap (a b : FReg)
  deriving DecidableEq, Repr

/-- An encoded word as it stands at the place it is taken from (rule R45): a command word (32 bits), a MAC-port code
(2 bits) with its payload bytes, or a field-port word (16 bits). The three formats stand at three places, so a word's
format is known before it is decoded. -/
inductive Encoded where
  | cmd (word : Word)
  | mop (code : BitVec 2) (payload : List Byte)
  | fop (word : BitVec 16)
  deriving DecidableEq, Repr

/-- Why a word is no instruction. `illegalCommand` is rule R51; the others are the reserved port encodings of rule R55
(and a payload of the wrong length, which the port of rule R52 cannot carry). -/
inductive Reject where
  | illegalCommand
  | reservedOperation
  | unusedFieldNotZero
  | reservedByteSource
  | reservedRegister
  | payloadLength
  deriving DecidableEq, Repr

/-- What `decode` answers: an instruction, or a rejection by name. -/
inductive Decoded where
  | instr (i : Instr)
  | reject (r : Reject)
  deriving DecidableEq, Repr

end Sys2Proof
end

