-- ==== Sys2Proof/WellFormed.lean ====
section
/-! DEFINITION. Which instructions the controller can issue: the field registers it uses are F0 to F12.

Rules R20 and R55: F13 to F15 are never used, and a word that names one has no meaning. -/

namespace Sys2Proof

/-- F0 to F12 (rules R20, R55). -/
def FReg.usable (r : FReg) : Bool := decide (r.val ≤ 12)

/-- Every field register an instruction names is one of F0 to F12. -/
def Instr.wf : Instr → Bool
  | .ckload => true
  | .ccblock => true
  | .ccxor => true
  | .hchacha => true
  | .aeadenc => true
  | .aeaddec => true
  | .xaeadenc => true
  | .xaeaddec => true
  | .skload => true
  | .skpub => true
  | .skexch => true
  | .skdrop => true
  | .minit _ => true
  | .mupd _ => true
  | .mtag => true
  | .mvfy _ => true
  | .fdec d _ => d.usable
  | .fenc a => a.usable
  | .fadd d a b => d.usable && a.usable && b.usable
  | .fsub d a b => d.usable && a.usable && b.usable
  | .fmul d a b => d.usable && a.usable && b.usable
  | .fsqr d a => d.usable && a.usable
  | .finv d a => d.usable && a.usable
  | .fcswap a b => a.usable && b.usable

end Sys2Proof
end

