-- ==== Sys2Proof/Decode.lean ====
section
/-! DEFINITION. From encoded words to instructions and back: rules R45, R46, R51 to R55 (30_encoding.md).

Decoding is total and rejects by name; the encoder is written from the same tables. -/

namespace Sys2Proof

/-- The field in bits [4k+3:4k] of a field-port word: k = 3 FOPC, 2 d, 1 a, 0 b (rule R45). -/
def nibble (w : BitVec 16) (k : Nat) : Fin 16 := ⟨w.toNat / 16 ^ k % 16, Nat.mod_lt _ (by decide)⟩

/-- Rule R54: the FDEC byte sources; 4 to 15 are reserved. -/
def byteSourceOf (b : Fin 16) : Option ByteSource :=
  match b.val with
  | 0 => some .u
  | 1 => some .one
  | 2 => some .zero
  | 3 => some .a24
  | _ => none

/-- Rule R54, the other way. -/
def byteSourceCode : ByteSource → Fin 16
  | .u => 0
  | .one => 1
  | .zero => 2
  | .a24 => 3

/-- Rule R55: an instruction that names a register above F12 is rejected. -/
def checked (i : Instr) : Decoded := if i.wf then .instr i else .reject .reservedRegister

/-- Rule R53: "Unused operand fields are 0"; a word with another value there is none of the table's. -/
def unusedZero (fields : List (Fin 16)) (d : Decoded) : Decoded :=
  if fields.all (· == 0) then d else .reject .unusedFieldNotZero

/-- Rule R46: RSVD must be 0 and OPCODE one of the twelve; every other word is illegal (rule R51). -/
def decodeCmd (w : Word) : Decoded :=
  if w.toNat / 256 ≠ 0 then .reject .illegalCommand
  else
    match w.toNat % 256 with
    | 0x01 => .instr .ckload
    | 0x02 => .instr .ccblock
    | 0x03 => .instr .ccxor
    | 0x04 => .instr .hchacha
    | 0x10 => .instr .aeadenc
    | 0x11 => .instr .aeaddec
    | 0x12 => .instr .xaeadenc
    | 0x13 => .instr .xaeaddec
    | 0x20 => .instr .skload
    | 0x21 => .instr .skpub
    | 0x22 => .instr .skexch
    | 0x23 => .instr .skdrop
    | _ => .reject .illegalCommand

/-- Rule R52: the number of payload bytes each MAC-port code carries to the engine. -/
def payloadLength (code : BitVec 2) : Nat :=
  match code.toNat with
  | 0 => 32
  | 1 => 16
  | 2 => 0
  | _ => 16

/-- Rule R52: all four codes are used. -/
def decodeMop (code : BitVec 2) (payload : List Byte) : Decoded :=
  match code.toNat with
  | 0 => if h : payload.length = 32 then .instr (.minit ⟨⟨payload⟩, h⟩) else .reject .payloadLength
  | 1 => if h : payload.length = 16 then .instr (.mupd ⟨⟨payload⟩, h⟩) else .reject .payloadLength
  | 2 => if payload.length = 0 then .instr .mtag else .reject .payloadLength
  | _ => if h : payload.length = 16 then .instr (.mvfy ⟨⟨payload⟩, h⟩) else .reject .payloadLength

/-- Rules R53 to R55, on the four fields of a word. -/
def decodeFields (fopc d a b : Fin 16) : Decoded :=
  match fopc.val with
  | 0x1 =>
    match byteSourceOf b with
    | some src => unusedZero [a] (checked (.fdec d src))
    | none => .reject .reservedByteSource
  | 0x2 => unusedZero [d, b] (checked (.fenc a))
  | 0x3 => checked (.fadd d a b)
  | 0x4 => checked (.fsub d a b)
  | 0x5 => checked (.fmul d a b)
  | 0x6 => unusedZero [b] (checked (.fsqr d a))
  | 0x7 => unusedZero [b] (checked (.finv d a))
  | 0x8 => unusedZero [d] (checked (.fcswap a b))
  | _ => .reject .reservedOperation

/-- A field-port word (rules R45, R53). -/
def decodeFop (w : BitVec 16) : Decoded := decodeFields (nibble w 3) (nibble w 2) (nibble w 1) (nibble w 0)

/-- Decoding of a word whose format is given by where it stands (rule R45). -/
def decode : Encoded → Decoded
  | .cmd w => decodeCmd w
  | .mop code payload => decodeMop code payload
  | .fop w => decodeFop w

/-- The field-port word with the fields FOPC, d, a, b (rule R45, format FOP). -/
def fopWord (fopc d a b : Fin 16) : BitVec 16 :=
  BitVec.ofNat 16 (fopc.val * 4096 + d.val * 256 + a.val * 16 + b.val)

/-- The word of an instruction, from the tables of rules R46, R52, R53. -/
def encode : Instr → Encoded
  | .ckload => .cmd 0x00000001#32
  | .ccblock => .cmd 0x00000002#32
  | .ccxor => .cmd 0x00000003#32
  | .hchacha => .cmd 0x00000004#32
  | .aeadenc => .cmd 0x00000010#32
  | .aeaddec => .cmd 0x00000011#32
  | .xaeadenc => .cmd 0x00000012#32
  | .xaeaddec => .cmd 0x00000013#32
  | .skload => .cmd 0x00000020#32
  | .skpub => .cmd 0x00000021#32
  | .skexch => .cmd 0x00000022#32
  | .skdrop => .cmd 0x00000023#32
  | .minit key => .mop 0#2 key.toList
  | .mupd block => .mop 1#2 block.toList
  | .mtag => .mop 2#2 []
  | .mvfy tag => .mop 3#2 tag.toList
  | .fdec d src => .fop (fopWord 0x1 d 0 (byteSourceCode src))
  | .fenc a => .fop (fopWord 0x2 0 a 0)
  | .fadd d a b => .fop (fopWord 0x3 d a b)
  | .fsub d a b => .fop (fopWord 0x4 d a b)
  | .fmul d a b => .fop (fopWord 0x5 d a b)
  | .fsqr d a => .fop (fopWord 0x6 d a 0)
  | .finv d a => .fop (fopWord 0x7 d a 0)
  | .fcswap a b => .fop (fopWord 0x8 0 a b)

/-- The word of a row of spec/opcode_table.json: 32 bits is a command word, 16 bits a field-port word, 2 bits (8 in
whole bytes) a MAC-port code, whose payload is then bytes of zeros. -/
def encodedOfTable (nbits w : Nat) : Option Encoded :=
  match nbits with
  | 32 => if w < 2 ^ 32 then some (.cmd (BitVec.ofNat 32 w)) else none
  | 16 => if w < 2 ^ 16 then some (.fop (BitVec.ofNat 16 w)) else none
  | 8 => if w < 4 then some (mopOf w) else none
  | 2 => if w < 4 then some (mopOf w) else none
  | _ => none
where
  mopOf (w : Nat) : Encoded :=
    .mop (BitVec.ofNat 2 w) (List.replicate (payloadLength (BitVec.ofNat 2 w)) 0#8)

/-- The instruction the decoder reads from a table word of `nbits` bits. -/
def decodeTableWord (nbits w : Nat) : Option Instr :=
  match encodedOfTable nbits w with
  | some e =>
    match decode e with
    | .instr i => some i
    | .reject _ => none
  | none => none

end Sys2Proof
end

