-- ==== Sys2Proof/Config.lean ====
section
/-! DEFINITION. What one instance of the block fixes: the open parameters of rule R5 (00_scope.md).

The parameters are one plain record, a field of State that no step changes, so that every claim about every state is a
claim about every instance. The one parameter that is a function, MACF, has no body here: nothing can be proved of its
values (rule R90: "a total, deterministic function, of which the block assumes nothing else"). The parameter FIELD of
rule R5 needs no entry: the laws of rules R121 to R125 fix every operation on the values below p (`Fe`). -/

namespace Sys2Proof

/-- The four address spaces (rule R30). -/
inductive Space where
  | reg
  | aad
  | inp
  | out
  deriving DecidableEq, Repr

/-- MIN_DEC_LEN: 16 or 17 (rule R5, 92_eei_decisions.md D12). -/
inductive MinDecLen where
  | sixteen
  | seventeen
  deriving DecidableEq, Repr

/-- CTR_OVERFLOW: what a block counter passing 2^32 - 1 does (rules R5, R67, D11). -/
inductive CtrOverflow where
  | fault
  | wrap
  deriving DecidableEq, Repr

/-- Which function stands behind the MAC port (rules R5, R90). `uninterpreted` is the parameter MACF itself;
`poly1305` is the instance the spec's test vectors were computed with (93_implementation_defined.md G4). -/
inductive MacInstance where
  | uninterpreted
  | poly1305
  deriving DecidableEq, Repr

/-- The open parameters of rule R5. The ranges of AAD_MAX (below 2^64) and DATA_MAX (DATA_MAX + 16 below 2^64) are
in the types. BUS_MAP is carried and read by no rule (rule R30). -/
structure Config where
  aadMax      : Fin 18446744073709551616
  dataMax     : Fin 18446744073709551600
  mac         : MacInstance
  minDecLen   : MinDecLen
  ctrOverflow : CtrOverflow
  busMap      : List (Space × Nat)
  deriving DecidableEq, Repr

/-- MACF (rule R90): key and message to a 16-byte tag. No body: a free function, the same for every call. -/
opaque Config.macf : Bytes 32 → List Byte → Bytes 16

/-- The instance of the spec's programs (95_test_vectors.md: AAD_MAX = DATA_MAX = 65536, Poly1305) with the spec's
defaults MIN_DEC_LEN = 17 and CTR_OVERFLOW = fault. DESIGN CHOICE, log entry 1: unsafe to rely on. -/
def Config.vectors : Config :=
  { aadMax := ⟨65536, by decide⟩, dataMax := ⟨65536, by decide⟩, mac := .poly1305, minDecLen := .seventeen,
    ctrOverflow := .fault, busMap := [] }

end Sys2Proof
end

