-- ==== Sys2Proof/Machine/State.lean ====
section
/-! DEFINITION. The state of one RAYCRYPT core as plain data: rules R10 to R24 (10_state.md).

Three fields are the model's own and not the spec's: `events` (what the outside world does next, in order), `rdata`
(what the last host read answered) and `Scratch.macOk`, `Scratch.uBase` (the answer line of MVFY, the select of byte
source U). -/

namespace Sys2Proof.Machine

/-- The content of a buffer: (address, byte) pairs, addresses strictly rising, none holding the byte an unlisted address
reads as (`Memory.wf`). -/
abbrev Memory := List Host.Cell

/-- What an address that is not listed reads as: rule R24, "AAD, IN, OUT: all bytes 0". -/
def unlistedByte : Byte := 0#8

/-- The seven errors (rule R150). Their numbers are `CmdError.code`. -/
inductive CmdError where
  | invalidKeyLength
  | ciphertextTooShort
  | authenticationFailure
  | illegalCommand
  | noKey
  | lengthOutOfRange
  | counterOverflow
  deriving DecidableEq, Repr

/-- The registers of the REG space (rule R49), a byte register word by word. -/
inductive HostReg where
  | cmd
  | status
  | ctr
  | keylen
  | aadLenLo
  | aadLenHi
  | inLenLo
  | inLenHi
  | outLenLo
  | outLenHi
  | keyin (k : Fin 8)
  | nonce (k : Fin 6)
  | point (k : Fin 8)
  | result (k : Fin 8)
  | ks (k : Fin 16)
  | reserved
  deriving DecidableEq, Repr

/-- The three byte buffers (rule R21). -/
inductive Buffer where
  | aad
  | inp
  | out
  deriving DecidableEq, Repr

/-- One host access. REG is reached only as aligned 32-bit words, `word` being offset / 4, so a misaligned or narrow
access cannot be built (rule R33, 93_implementation_defined.md U8); the buffers are reached by bytes (rule R30). -/
inductive Access where
  | regRead (word : Fin 64)
  | regWrite (word : Fin 64) (value : Word)
  | bufRead (b : Buffer) (addr : Nat)
  | bufWrite (b : Buffer) (addr : Nat) (value : Byte)
  deriving DecidableEq, Repr

/-- What happens next at the block: a host access, the reset input, or the sequencer's turn to run what it has latched
(rules R2, R37, R170). -/
inductive Event where
  | host (a : Access)
  | rst
  | sequencer
  deriving DecidableEq, Repr

/-- Scratch state (rule R22): what lives inside a command only. Zero between commands. -/
structure Scratch where
  /-- `s[0..15]`, the input state (rule R11). -/
  sIn    : Words
  /-- `x[0..15]`, the working state (rule R11). -/
  x      : Words
  /-- KSB, the keystream block in use (rule R65). -/
  ksb    : Bytes 64
  /-- OTK, the one-time MAC key (rule R92). -/
  otk    : Bytes 32
  /-- SUBKEY (rule R110). -/
  subkey : Bytes 32
  /-- N12, the derived nonce (rule R110). -/
  n12    : Bytes 12
  /-- TAGX, the tag MTAG answered (rule R96). -/
  tagx   : Bytes 16
  /-- E, the clamped scalar copy (rule R126). -/
  e      : Bytes 32
  /-- F[0..15], the field registers (rule R20). -/
  f      : Vector Fe 16
  /-- SWAP (rule R14). -/
  swap   : Bool
  /-- PREV (rule R14). -/
  prev   : Bool
  /-- RND, the double-round index (rule R12). -/
  rnd    : Nat
  /-- BLK, the segment index (rule R12). -/
  blk    : Nat
  /-- T, the ladder bit index (rule R12). -/
  t      : Nat
  /-- `mk`, the key the MAC engine holds (rule R91). -/
  macKey : Bytes 32
  /-- `mm`, the message the MAC engine has accumulated (rule R91). -/
  macMsg : List Byte
  /-- The model's own: the one-bit answer of MVFY (rules R52, R97: `ok`). -/
  macOk  : Bool
  /-- The model's own: what byte source U selects, the base point (true) or POINT (false) (rule R54). -/
  uBase  : Bool
  deriving DecidableEq, Repr

/-- Every scratch register zero, the MAC accumulator released (rules R22, R24). -/
def Scratch.zero : Scratch :=
  { sIn := Vector.replicate 16 0#32, x := Vector.replicate 16 0#32, ksb := zeros 64, otk := zeros 32,
    subkey := zeros 32, n12 := zeros 12, tagx := zeros 16, e := zeros 32, f := Vector.replicate 16 (Fe.ofNat 0),
    swap := false, prev := false, rnd := 0, blk := 0, t := 0, macKey := zeros 32, macMsg := [], macOk := false,
    uBase := false }

/-- The state of one core (rule R10). -/
structure State where
  /-- The open parameters of rule R5; no step changes them. -/
  cfg     : Config
  /-- The command word latched at the CMD write (rules R12, R45): BUSY is 1 exactly while one is latched. A port word
  stands here only when it is placed from outside (`State.withFetchWord`): a command issues its own inside its step. -/
  latch   : Option Encoded
  /-- STATUS.DONE (rule R13). -/
  done    : Bool
  /-- STATUS.ERR and STATUS.ERRCODE (rule R13): ERR is 1 exactly when an error stands here. -/
  error   : Option CmdError
  /-- STATUS.CK_VALID (rules R13, R16). -/
  ckValid : Bool
  /-- STATUS.SK_VALID (rules R13, R16). -/
  skValid : Bool
  /-- CTR (rule R15). -/
  ctr     : Word
  /-- KEYLEN (rule R15). -/
  keylen  : Word
  /-- AAD_LEN (rule R15). -/
  aadLen  : BitVec 64
  /-- IN_LEN (rule R15). -/
  inLen   : BitVec 64
  /-- OUT_LEN (rule R15). -/
  outLen  : BitVec 64
  /-- KEYIN (rule R17). -/
  keyin   : Bytes 32
  /-- NONCE (rule R18). -/
  nonce   : Bytes 24
  /-- POINT (rule R18). -/
  point   : Bytes 32
  /-- RESULT (rule R19). -/
  result  : Bytes 32
  /-- KS (rule R19). -/
  ks      : Bytes 64
  /-- CK, the cipher-key slot (rule R16). -/
  ck      : Bytes 32
  /-- SK, the private-key slot (rule R16). -/
  sk      : Bytes 32
  /-- AAD (rule R21). -/
  aad     : Memory
  /-- IN (rule R21). -/
  inp     : Memory
  /-- OUT (rule R21). -/
  out     : Memory
  /-- Scratch state (rule R22). -/
  scratch : Scratch
  /-- The model's own: what happens next, oldest first; when nothing is listed it is the sequencer's turn. -/
  events  : List Event
  /-- The model's own: the answer of the last host read. -/
  rdata   : Word
  deriving DecidableEq, Repr

/-- Why the machine stops. -/
inductive Fault where
  /-- A host access, outside a command, to a byte address at or beyond the size of its buffer (rule R30: the space has
  no such byte; rule R36: "Both require `addr + n <= size(space)`"). Raised by `hostAccess`. Safe: the spec gives such
  an access no effect (log entry 7). -/
  | outsideSpace (b : Buffer) (addr : Nat)
  deriving DecidableEq, Repr

/-- Why an instruction or word has no meaning. -/
inductive Refusal where
  /-- No meaning is written for this instruction yet. Raised by `exec`'s refused arms only. Safe. -/
  | notModelled (mnemonic : String)
  /-- A reserved port word: rule R55, "no behaviour is defined for them; a model's FOP interpreter treats them as
  unreachable and refuses". Raised by `sequencerTurn` and by the field-port meanings. Safe. -/
  | reservedPortEncoding (r : Reject)
  deriving DecidableEq, Repr

/-- The state after reset (rules R24, R170), with the parameters of `Config.vectors` (log entry 1) and nothing in
`events`. -/
def State.reset : State :=
  { cfg := Config.vectors, latch := none, done := false, error := none, ckValid := false, skValid := false,
    ctr := 0#32, keylen := 0#32, aadLen := 0#64, inLen := 0#64, outLen := 0#64, keyin := zeros 32, nonce := zeros 24,
    point := zeros 32, result := zeros 32, ks := zeros 64, ck := zeros 32, sk := zeros 32, aad := [], inp := [],
    out := [], scratch := Scratch.zero, events := [], rdata := 0#32 }

end Sys2Proof.Machine
end

