-- ==== Sys2Proof/Machine/Ops.lean ====
section
/-! DEFINITION. The shared operations: byte and word conversion, byte registers, buffers, and how a command ends.

Rules R6, R7 (00_scope.md), R31, R36 (20_memory.md), R22 (10_state.md), R159, R160 (60_exceptions.md). -/

namespace Sys2Proof.Machine

/-! ## Words and bytes -/

/-- `rotl32(v, n)` for 0 < n < 32 (rule R6). -/
def rotl32 (v : Word) (n : Nat) : Word := (v <<< n) ||| (v >>> (32 - n))

/-- `le32` of the four bytes b0 to b3, b0 the lowest (rule R7). -/
def le32 (b0 b1 b2 b3 : Byte) : Word :=
  BitVec.ofNat 32 (b0.toNat + 2 ^ 8 * b1.toNat + 2 ^ 16 * b2.toNat + 2 ^ 24 * b3.toNat)

/-- Byte `i` (0 to 3) of `ser32(w)`: bits [8i+7:8i] (rule R7). -/
def wordByte (w : Word) (i : Nat) : Byte := BitVec.ofNat 8 (w.toNat / 2 ^ (8 * i))

/-- `le64(n)`, eight bytes (rule R7). -/
def le64 (n : Nat) : List Byte := (List.range 8).map fun i => BitVec.ofNat 8 (n / 2 ^ (8 * i))

/-- `leint(b)`, the little-endian number of a byte string (rule R7). -/
def leint : List Byte → Nat
  | [] => 0
  | b :: bs => b.toNat + 256 * leint bs

/-- The `n` low bytes of a number, little-endian: the inverse of `leint` on `n` bytes. -/
def leBytes (n v : Nat) : Bytes n := Vector.ofFn fun i => BitVec.ofNat 8 (v / 256 ^ i.val)

/-- Byte `i` of a byte register; no rule reads one at or beyond its length. -/
def byteAt {n : Nat} (v : Bytes n) (i : Nat) : Byte := v[i]?.getD 0#8

/-- The slice of `len` bytes from byte `start` (00_scope.md section 6). -/
def slice {n : Nat} (v : Bytes n) (start len : Nat) : Bytes len := Vector.ofFn fun i => byteAt v (start + i.val)

/-- The first `n` bytes of a byte string as a byte register. -/
def ofList (n : Nat) (l : List Byte) : Bytes n := Vector.ofFn fun i => l[i.val]?.getD 0#8

/-- `le32` of the bytes `i` to `i+3` of a byte register. -/
def le32At {n : Nat} (v : Bytes n) (i : Nat) : Word :=
  le32 (byteAt v i) (byteAt v (i + 1)) (byteAt v (i + 2)) (byteAt v (i + 3))

/-- A byte register after a write of its word `k` (rule R49: byte 4k in bits [7:0]). -/
def setWordAt {n : Nat} (v : Bytes n) (k : Nat) (w : Word) : Bytes n :=
  Vector.ofFn fun i => if i.val / 4 = k then wordByte w (i.val % 4) else v[i]

/-- The bitwise exclusive or of two byte strings, as long as the shorter. -/
def xorBytes (a b : List Byte) : List Byte := List.zipWith (· ^^^ ·) a b

/-! ## Buffers -/

/-- The byte at an address. -/
def Memory.read : Memory → Nat → Byte
  | [], _ => unlistedByte
  | (k, v) :: m, a => if k = a then v else Memory.read m a

/-- A write of one byte. The canonical form is kept: writing `unlistedByte` removes the entry. -/
def Memory.write : Memory → Nat → Byte → Memory
  | [], a, v => if v = unlistedByte then [] else [(a, v)]
  | (k, w) :: m, a, v =>
    if a < k then (if v = unlistedByte then (k, w) :: m else (a, v) :: (k, w) :: m)
    else if a = k then (if v = unlistedByte then m else (a, v) :: m)
    else (k, w) :: Memory.write m a v

/-- `n` bytes from address `a` on, lowest address first (MemRead, rule R36). -/
def Memory.readBytes (m : Memory) (a : Nat) : Nat → List Byte
  | 0 => []
  | n + 1 => m.read a :: Memory.readBytes m (a + 1) n

/-- A byte string written at address `a` on (MemWrite, rule R36). -/
def Memory.writeBytes (m : Memory) (a : Nat) : List Byte → Memory
  | [] => m
  | b :: bs => Memory.writeBytes (m.write a b) (a + 1) bs

/-- The entries from address `lo` on are in canonical form: addresses strictly rising, no entry equal to what an
unlisted address reads as. -/
def Memory.wfFrom (lo : Nat) : Memory → Bool
  | [] => true
  | (k, v) :: m => decide (lo ≤ k) && decide (v ≠ unlistedByte) && Memory.wfFrom (k + 1) m

/-- The canonical form. -/
def Memory.wf (m : Memory) : Bool := Memory.wfFrom 0 m

/-- Every listed address is below `size`. -/
def Memory.within (size : Nat) (m : Memory) : Bool := m.all fun c => decide (c.1 < size)

/-- The size in bytes of each buffer (rules R21, R30). -/
def bufferSize (c : Config) : Buffer → Nat
  | .aad => c.aadMax.val
  | .inp => c.dataMax.val + 16
  | .out => c.dataMax.val + 16

/-- The content of a buffer. -/
def State.buffer (s : State) : Buffer → Memory
  | .aad => s.aad
  | .inp => s.inp
  | .out => s.out

/-- `MemRead(space, addr, n)` of a buffer (rule R36). -/
def State.memRead (s : State) (b : Buffer) (addr n : Nat) : List Byte := (s.buffer b).readBytes addr n

/-- `MemWrite(OUT, addr, len(v), v)` (rules R30, R36: OUT is the one buffer commands write). -/
def State.writeOut (s : State) (addr : Nat) (v : List Byte) : State := { s with out := s.out.writeBytes addr v }

/-! ## Named updates of State -/

def State.withScratch (s : State) (sc : Scratch) : State := { s with scratch := sc }

/-- `OUT_LEN <- n`. -/
def State.setOutLen (s : State) (n : BitVec 64) : State := { s with outLen := n }

/-- `RESULT <- v` (rule R19). -/
def State.setResult (s : State) (v : Bytes 32) : State := { s with result := v }

/-- `KS <- v` (rule R19). -/
def State.setKs (s : State) (v : Bytes 64) : State := { s with ks := v }

/-- `KEYIN <- zeros(32)` (rule R17). -/
def State.wipeKeyin (s : State) : State := { s with keyin := zeros 32 }

/-- `CK <- v; CK_VALID <- 1` (rules R16, R68). -/
def State.loadCk (s : State) (v : Bytes 32) : State := { s with ck := v, ckValid := true }

/-- `SK <- v; SK_VALID <- 1` (rules R16, R134). -/
def State.loadSk (s : State) (v : Bytes 32) : State := { s with sk := v, skValid := true }

/-- `SK <- zeros(32)` (rules R134, R137). -/
def State.wipeSk (s : State) : State := { s with sk := zeros 32 }

/-- `SK <- zeros(32); SK_VALID <- 0` (rule R137). -/
def State.dropSk (s : State) : State := { s.wipeSk with skValid := false }

/-- The port word has been issued: nothing is latched any more. -/
def State.issued (s : State) : State := { s with latch := none }

/-! ## How a command ends (rules R159, R160) -/

/-- The end of a command without error: DONE <- 1, ERR <- 0, ERRCODE <- 0, BUSY <- 0, every scratch register zero
(rules R13, R22). -/
def State.finish (s : State) : State :=
  { s with latch := none, done := true, error := none, scratch := Scratch.zero }

/-- `raise <Error>`, the failure entry of rule R159: ERR <- 1, ERRCODE <- code, DONE <- 1, BUSY <- 0, every scratch
register zero. What else a failing command does (OUT_LEN, KEYIN) stands in the command's own rule before its raise.
There is no return: the next CMD write clears the three (rule R160, `cmdWrite`). -/
def State.raise (s : State) (e : CmdError) : State :=
  { s with latch := none, done := true, error := some e, scratch := Scratch.zero }

end Sys2Proof.Machine
end

