-- ==== Sys2Proof/Machine/Operands.lean ====
section
/-! DEFINITION. Operand forms: where each operation finds its operands. Rules R18, R47, R48, R54 and R35. -/

namespace Sys2Proof.Machine

/-- NONCE[0..12], the nonce of CCBLOCK, CCXOR, AEADENC, AEADDEC (rule R18). -/
def State.nonce12 (s : State) : Bytes 12 := slice s.nonce 0 12

/-- NONCE[0..16], the nonce of HCHACHA (rule R18). -/
def State.nonce16 (s : State) : Bytes 16 := slice s.nonce 0 16

/-- IN[0..IN_LEN] (rule R47). -/
def State.input (s : State) : List Byte := s.memRead .inp 0 s.inLen.toNat

/-- AAD[0..AAD_LEN] (rule R47). -/
def State.assocData (s : State) : List Byte := s.memRead .aad 0 s.aadLen.toNat

/-- MIN_DEC_LEN (rule R5). -/
def minDec (c : Config) : Nat :=
  match c.minDecLen with
  | .sixteen => 16
  | .seventeen => 17

/-- BASE_POINT: 09 00 .. 00 (rules R4, R133). -/
def basePoint : Bytes 32 := leBytes 32 9

/-- The 32 bytes an FDEC decodes (rule R54). U is POINT for SKEXCH and the base point for SKPUB: the select `uBase`;
with no scalar multiplication in progress it is POINT (DESIGN CHOICE, log entry 5). -/
def State.fdecBytes (s : State) : ByteSource → Bytes 32
  | .u => if s.scratch.uBase then basePoint else s.point
  | .one => leBytes 32 1
  | .zero => leBytes 32 0
  | .a24 => leBytes 32 121665

/-- The number of 64-byte segments of an `n`-byte message: ceil(n/64) (rule R66). -/
def segments (n : Nat) : Nat := (n + 63) / 64

/-- CTRCHECK(base, n) fails (rule R67): the comparison is on unbounded naturals, and the check is absent when the model
is built with CTR_OVERFLOW = wrap. -/
def ctrOverflows (c : Config) (base : Word) (n : Nat) : Bool :=
  match c.ctrOverflow with
  | .fault => decide (0 < n) && decide (base.toNat + segments n - 1 > 2 ^ 32 - 1)
  | .wrap => false

/-- The first check that fails, in the order listed (rule R158). -/
def firstError : List (Bool × CmdError) → Option CmdError
  | [] => none
  | (fails, e) :: rest => if fails then some e else firstError rest

/-- The checks of CCXOR, in order (rules R70, R35; AAD_LEN is ignored). -/
def State.streamError (s : State) : Option CmdError :=
  firstError
    [(!s.ckValid, .noKey),
     (decide (s.inLen.toNat > s.cfg.dataMax.val), .lengthOutOfRange),
     (ctrOverflows s.cfg s.ctr s.inLen.toNat, .counterOverflow)]

/-- The checks of AEADENC and XAEADENC, in order (rules R98, R111, R35). -/
def State.encryptError (s : State) : Option CmdError :=
  firstError
    [(!s.ckValid, .noKey),
     (decide (s.inLen.toNat > s.cfg.dataMax.val) || decide (s.aadLen.toNat > s.cfg.aadMax.val), .lengthOutOfRange),
     (ctrOverflows s.cfg s.ctr s.inLen.toNat, .counterOverflow)]

/-- The checks of AEADDEC and XAEADDEC that come before any work, in order (rules R99, R112, R35). -/
def State.decryptError (s : State) : Option CmdError :=
  firstError
    [(!s.ckValid, .noKey),
     (decide (s.inLen.toNat > s.cfg.dataMax.val + 16) || decide (s.aadLen.toNat > s.cfg.aadMax.val),
       .lengthOutOfRange),
     (decide (s.inLen.toNat < minDec s.cfg), .ciphertextTooShort),
     (ctrOverflows s.cfg s.ctr (s.inLen.toNat - 16), .counterOverflow)]

end Sys2Proof.Machine
end

