-- ==== Sys2Proof/Machine/FieldPort.lean ====
section
/-! DEFINITION. The field port: FDEC, FENC, FADD, FSUB, FMUL, FSQR, FINV, FCSWAP.
Rules R53 to R55 (30_encoding.md), R120 to R125 (44_x25519.md).

Each operation's effect is a function of the state, which the ladder issues inside a command (`issue`); the meaning of
the port word is that effect, refused where the word names a register above F12 (rule R55). -/

namespace Sys2Proof.Machine

/-! ## The field unit (rules R121 to R124), on exact numbers, reduced at the end -/

/-- dec: the little-endian number with the top bit masked off, mod p (rule R121). -/
def feDec (b : Bytes 32) : Fe := Fe.ofNat (leint b.toList % 2 ^ 255)

/-- enc: the canonical residue, 32 bytes, little-endian (rule R122). -/
def feEnc (e : Fe) : Bytes 32 := leBytes 32 e.val

def feAdd (a b : Fe) : Fe := Fe.ofNat (a.val + b.val)

/-- The difference mod p, in 0 to p-1 (rule R123). -/
def feSub (a b : Fe) : Fe := Fe.ofNat (a.val + (fieldPrime - b.val))

def feMul (a b : Fe) : Fe := Fe.ofNat (a.val * b.val)

def feSqr (a : Fe) : Fe := Fe.ofNat (a.val * a.val)

/-- `acc * b^e mod p` by squaring, over `n` bits of the exponent. -/
def powMod : Nat → Nat → Nat → Nat → Nat
  | 0, _, _, acc => acc
  | n + 1, b, e, acc =>
    powMod n (b * b % fieldPrime) (e / 2) (if e % 2 = 1 then acc * b % fieldPrime else acc)

/-- inv: inversion by the power p - 2, which gives 0 for 0 (rule R124, 93_implementation_defined.md G9). -/
def feInv (a : Fe) : Fe := Fe.ofNat (powMod 255 a.val (fieldPrime - 2) 1)

/-! ## The effects -/

/-- `F[a]`. -/
def State.fe (s : State) (a : FReg) : Fe := s.scratch.f[a]

/-- `F[d] <- v`. -/
def State.setFe (s : State) (d : FReg) (v : Fe) : State := s.withScratch { s.scratch with f := s.scratch.f.set d v }

/-- `F[d] <- dec(bytes(src))` (rule R121). -/
def fdecEffect (d : FReg) (src : ByteSource) (s : State) : State := s.setFe d (feDec (s.fdecBytes src))

/-- `RESULT <- enc(F[a])` (rule R122). -/
def fencEffect (a : FReg) (s : State) : State := s.setResult (feEnc (s.fe a))

/-- `F[d] <- add(F[a], F[b])` (rule R123). -/
def faddEffect (d a b : FReg) (s : State) : State := s.setFe d (feAdd (s.fe a) (s.fe b))

/-- `F[d] <- sub(F[a], F[b])` (rule R123). -/
def fsubEffect (d a b : FReg) (s : State) : State := s.setFe d (feSub (s.fe a) (s.fe b))

/-- `F[d] <- mul(F[a], F[b])` (rule R123). -/
def fmulEffect (d a b : FReg) (s : State) : State := s.setFe d (feMul (s.fe a) (s.fe b))

/-- `F[d] <- sqr(F[a])` (rule R123). -/
def fsqrEffect (d a : FReg) (s : State) : State := s.setFe d (feSqr (s.fe a))

/-- `F[d] <- inv(F[a])` (rule R124). -/
def finvEffect (d a : FReg) (s : State) : State := s.setFe d (feInv (s.fe a))

/-- `(F[a], F[b]) <- cswap(SWAP, F[a], F[b])` (rule R125). -/
def fcswapEffect (a b : FReg) (s : State) : State :=
  if s.scratch.swap then (s.setFe a (s.fe b)).setFe b (s.fe a) else s

/-! ## The meanings -/

/-- A field-port word's end: refused when it names a register above F12 (rule R55). -/
def portResult (wf : Bool) (s : State) : Host.Outcome State Fault Refusal :=
  if wf then .next s.issued else .refused (.reservedPortEncoding .reservedRegister)

def execFdec (d : FReg) (src : ByteSource) (s : State) : Host.Outcome State Fault Refusal :=
  portResult (Instr.fdec d src).wf (fdecEffect d src s)

def execFenc (a : FReg) (s : State) : Host.Outcome State Fault Refusal :=
  portResult (Instr.fenc a).wf (fencEffect a s)

def execFadd (d a b : FReg) (s : State) : Host.Outcome State Fault Refusal :=
  portResult (Instr.fadd d a b).wf (faddEffect d a b s)

def execFsub (d a b : FReg) (s : State) : Host.Outcome State Fault Refusal :=
  portResult (Instr.fsub d a b).wf (fsubEffect d a b s)

def execFmul (d a b : FReg) (s : State) : Host.Outcome State Fault Refusal :=
  portResult (Instr.fmul d a b).wf (fmulEffect d a b s)

def execFsqr (d a : FReg) (s : State) : Host.Outcome State Fault Refusal :=
  portResult (Instr.fsqr d a).wf (fsqrEffect d a s)

def execFinv (d a : FReg) (s : State) : Host.Outcome State Fault Refusal :=
  portResult (Instr.finv d a).wf (finvEffect d a s)

def execFcswap (a b : FReg) (s : State) : Host.Outcome State Fault Refusal :=
  portResult (Instr.fcswap a b).wf (fcswapEffect a b s)

end Sys2Proof.Machine
end

