-- ==== Sys2Proof/Machine/MacPort.lean ====
section
/-! DEFINITION. The MAC port: MINIT, MUPD, MTAG, MVFY. Rules R52 (30_encoding.md), R90, R91 (42_aead.md).

Each operation's effect is a function of the state, which the composers issue inside a command (`issue`); the meaning of
the port word is that effect and the word's end. No port operation writes a flag. -/

namespace Sys2Proof.Machine

/-- The accumulator of Poly1305 after `n` units of a message (93_implementation_defined.md G4): each unit of up to 16
bytes, with a 1 byte after it, is added, and the sum multiplied by r mod 2^130 - 5. -/
def polyBlocks (r : Nat) : Nat → List Byte → Nat → Nat
  | 0, _, acc => acc
  | n + 1, msg, acc =>
    polyBlocks r n (msg.drop 16) ((acc + leint (msg.take 16 ++ [1#8])) * r % (2 ^ 130 - 5))

/-- The MAC instance of the spec's test vectors: Poly1305 "(r clamped, 130-bit accumulator mod 2^130 - 5, plus s mod
2^128)" (93_implementation_defined.md G4). PRESUMED beyond those words, log entry 6. -/
def poly1305 (key : Bytes 32) (msg : List Byte) : Bytes 16 :=
  let r := leint (key.toList.take 16) &&& 0x0ffffffc0ffffffc0ffffffc0fffffff
  let s := leint (key.toList.drop 16)
  leBytes 16 (polyBlocks r ((msg.length + 15) / 16) msg 0 + s)

/-- MACF (rule R90) of an instance. -/
def macf (c : Config) (key : Bytes 32) (msg : List Byte) : Bytes 16 :=
  match c.mac with
  | .uninterpreted => Config.macf key msg
  | .poly1305 => poly1305 key msg

/-- MINIT(k): `mk <- k; mm <- empty` (rule R91). -/
def minitEffect (key : Bytes 32) (s : State) : State :=
  s.withScratch { s.scratch with macKey := key, macMsg := [] }

/-- MUPD(u): `mm <- mm ‖ u` (rule R91). -/
def mupdEffect (block : Bytes 16) (s : State) : State :=
  s.withScratch { s.scratch with macMsg := s.scratch.macMsg ++ block.toList }

/-- MTAG: the answer `MACF(mk, mm)` stands in TAGX; `mk`, `mm` are unchanged (rules R91, R96). -/
def mtagEffect (s : State) : State :=
  s.withScratch { s.scratch with tagx := macf s.cfg s.scratch.macKey s.scratch.macMsg }

/-- MVFY(t): the answer, 1 when `MACF(mk, mm) = t`; `mk`, `mm` are unchanged (rule R91). -/
def mvfyEffect (tag : Bytes 16) (s : State) : State :=
  s.withScratch { s.scratch with macOk := decide (macf s.cfg s.scratch.macKey s.scratch.macMsg = tag) }

def execMinit (key : Bytes 32) (s : State) : Host.Outcome State Fault Refusal := .next (minitEffect key s).issued

def execMupd (block : Bytes 16) (s : State) : Host.Outcome State Fault Refusal := .next (mupdEffect block s).issued

def execMtag (s : State) : Host.Outcome State Fault Refusal := .next (mtagEffect s).issued

def execMvfy (tag : Bytes 16) (s : State) : Host.Outcome State Fault Refusal := .next (mvfyEffect tag s).issued

end Sys2Proof.Machine
end

