-- ==== Sys2Proof/Machine/Ports.lean ====
section
/-! DEFINITION. Issuing port operations inside a command: the sequencer's calls of the MAC engine and the field unit
(rules R2, R91, R120). A port operation has the same effect issued by a command as run from a port word. -/

namespace Sys2Proof.Machine

/-- The effect of one port operation. A command is no port operation: nothing inside a command issues one (rule R160:
"no command runs inside another"). -/
def issue (i : Instr) (s : State) : State :=
  match i with
  | .minit key => minitEffect key s
  | .mupd block => mupdEffect block s
  | .mtag => mtagEffect s
  | .mvfy tag => mvfyEffect tag s
  | .fdec d src => fdecEffect d src s
  | .fenc a => fencEffect a s
  | .fadd d a b => faddEffect d a b s
  | .fsub d a b => fsubEffect d a b s
  | .fmul d a b => fmulEffect d a b s
  | .fsqr d a => fsqrEffect d a s
  | .finv d a => finvEffect d a s
  | .fcswap a b => fcswapEffect a b s
  | .ckload => s
  | .ccblock => s
  | .ccxor => s
  | .hchacha => s
  | .aeadenc => s
  | .aeaddec => s
  | .xaeadenc => s
  | .xaeaddec => s
  | .skload => s
  | .skpub => s
  | .skexch => s
  | .skdrop => s

/-- Port operations issued in the order listed. -/
def issueAll : List Instr → State → State
  | [], s => s
  | i :: is, s => issueAll is (issue i s)

end Sys2Proof.Machine
end

