-- ==== Sys2Proof/Machine/X25519.lean ====
section
/-! DEFINITION. X25519 key agreement: SKLOAD, SKPUB, SKEXCH, SKDROP. Rules R126 to R141 (44_x25519.md).

The ladder is a list written before any value is known: the port words of the microprogram and the sequencer's control
of T, SWAP and PREV between them (rules R9, R139, R181). -/

namespace Sys2Proof.Machine

/-! ## The scalar -/

/-- CLAMP(k) (rule R126). -/
def clamp (k : Bytes 32) : Bytes 32 :=
  let e := k.set 0 (k[0] &&& 0xF8#8)
  let e := e.set 31 (e[31] &&& 0x7F#8)
  e.set 31 (e[31] ||| 0x40#8)

/-- SBIT(t): bit t of leint(E) (rule R127). -/
def scalarBit (e : Bytes 32) (t : Nat) : Bool := decide ((byteAt e (t / 8)).toNat / 2 ^ (t % 8) % 2 = 1)

/-! ## The schedule -/

/-- LADDER_PROLOGUE: six port words (rule R128). -/
def ladderPrologue : List Instr :=
  [.fdec 0 .u, .fdec 1 .one, .fdec 2 .zero, .fdec 3 .u, .fdec 4 .one, .fdec 5 .a24]

/-- LADDER_STEP: twenty port words (rule R130). -/
def ladderStep : List Instr :=
  [.fcswap 1 3, .fcswap 2 4,
   .fadd 6 1 2, .fsqr 7 6, .fsub 8 1 2, .fsqr 9 8, .fsub 10 7 9,
   .fadd 11 3 4, .fsub 12 3 4, .fmul 12 12 6, .fmul 11 11 8,
   .fadd 3 12 11, .fsqr 3 3, .fsub 4 12 11, .fsqr 4 4, .fmul 4 0 4,
   .fmul 1 7 9, .fmul 2 5 10, .fadd 2 7 2, .fmul 2 10 2]

/-- LADDER_EPILOGUE: five port words (rule R131). -/
def ladderEpilogue : List Instr := [.fcswap 1 3, .fcswap 2 4, .finv 2 2, .fmul 1 1 2, .fenc 1]

/-- What the sequencer does between port words, and the port words themselves. -/
inductive Control where
  /-- Issue one port word. -/
  | issue (i : Instr)
  /-- `PREV <- 0` (rule R128). -/
  | clearPrev
  /-- `T <- t; SWAP <- SBIT(t) xor PREV` (rule R129). -/
  | selectBit (t : Nat)
  /-- `PREV <- bit`, the bit of the iteration in progress (rule R129). -/
  | keepBit (t : Nat)
  /-- `SWAP <- PREV` (rule R131). -/
  | lastSwap
  deriving DecidableEq, Repr

/-- One iteration of LADDER_CONTROL (rule R129). -/
def ladderIteration (t : Nat) : List Control :=
  .selectBit t :: ladderStep.map .issue ++ [.keepBit t]

/-- The iterations for T from `n - 1` down to 0. -/
def ladderLoop : Nat → List Control
  | 0 => []
  | n + 1 => ladderIteration n ++ ladderLoop n

/-- The whole schedule of a scalar multiplication: prologue, 255 iterations, epilogue (rules R132, R139). -/
def ladderSchedule : List Control :=
  ladderPrologue.map .issue ++ [.clearPrev] ++ ladderLoop 255 ++ [.lastSwap] ++ ladderEpilogue.map .issue

/-- The port words of a schedule, in the order they are issued (rule R139). -/
def portWords : List Control → List Instr
  | [] => []
  | .issue i :: cs => i :: portWords cs
  | .clearPrev :: cs => portWords cs
  | .selectBit _ :: cs => portWords cs
  | .keepBit _ :: cs => portWords cs
  | .lastSwap :: cs => portWords cs

/-! ## The ladder -/

/-- One item of the schedule (rules R14, R128, R129, R131). -/
def runControl (c : Control) (s : State) : State :=
  match c with
  | .issue i => Sys2Proof.Machine.issue i s
  | .clearPrev => s.withScratch { s.scratch with prev := false }
  | .selectBit t => s.withScratch { s.scratch with t := t, swap := xor (scalarBit s.scratch.e t) s.scratch.prev }
  | .keepBit t => s.withScratch { s.scratch with prev := scalarBit s.scratch.e t }
  | .lastSwap => s.withScratch { s.scratch with swap := s.scratch.prev }

/-- The items of a schedule, in order. -/
def runSchedule : List Control → State → State
  | [], s => s
  | c :: cs, s => runSchedule cs (runControl c s)

/-- SCALARMULT(scalar, point) (rule R132) up to the zeroizing, which the command's end does for every scratch register:
CLAMP writes E, U is the base point (rule R133) or POINT, and the schedule writes RESULT. -/
def State.scalarMult (s : State) (scalar : Bytes 32) (base : Bool) : State :=
  runSchedule ladderSchedule (s.withScratch { s.scratch with e := clamp scalar, uBase := base })

/-! ## The commands -/

/-- SKLOAD (rule R134). -/
def execSkload (s : State) : Host.Outcome State Fault Refusal :=
  .next (
    if s.keylen.toNat ≠ 32 then s.wipeKeyin.raise .invalidKeyLength
    else ((s.wipeSk.loadSk s.keyin).wipeKeyin).finish)

/-- SKPUB (rules R133, R135). -/
def execSkpub (s : State) : Host.Outcome State Fault Refusal :=
  .next (if !s.skValid then s.raise .noKey else (s.scalarMult s.sk true).finish)

/-- SKEXCH (rules R132, R136). -/
def execSkexch (s : State) : Host.Outcome State Fault Refusal :=
  .next (if !s.skValid then s.raise .noKey else (s.scalarMult s.sk false).finish)

/-- SKDROP (rule R137). -/
def execSkdrop (s : State) : Host.Outcome State Fault Refusal := .next s.dropSk.finish

end Sys2Proof.Machine
end

