-- ==== Sys2Proof/Machine/ChaCha.lean ====
section
/-! DEFINITION. The ChaCha20 engine: CKLOAD, CCBLOCK, CCXOR and its micro-operations. Rules R60 to R72
(40_chacha20.md).

Each micro-operation stands twice: as a function of its operands, which says what it computes, and as an update of the
scratch registers, which says where the block keeps it. The commands run the second. -/

namespace Sys2Proof.Machine

/-! ## What the engine computes -/

/-- K0 to K3 (rule R60). -/
def chachaConstant0 : Word := 0x61707865#32
def chachaConstant1 : Word := 0x3320646e#32
def chachaConstant2 : Word := 0x79622d32#32
def chachaConstant3 : Word := 0x6b206574#32

/-- INIT_STATE(key, counter, nonce): the input state (rule R61). -/
def initWords (key : Bytes 32) (counter : Word) (nonce : Bytes 12) : Words :=
  #v[chachaConstant0, chachaConstant1, chachaConstant2, chachaConstant3,
     le32At key 0, le32At key 4, le32At key 8, le32At key 12,
     le32At key 16, le32At key 20, le32At key 24, le32At key 28,
     counter, le32At nonce 0, le32At nonce 4, le32At nonce 8]

/-- QR(a, b, c, d) (rule R62): each statement uses the values its predecessors wrote. -/
def quarterRound (a b c d : Fin 16) (x : Words) : Words :=
  let x := x.set a (x[a] + x[b])
  let x := x.set d (rotl32 (x[d] ^^^ x[a]) 16)
  let x := x.set c (x[c] + x[d])
  let x := x.set b (rotl32 (x[b] ^^^ x[c]) 12)
  let x := x.set a (x[a] + x[b])
  let x := x.set d (rotl32 (x[d] ^^^ x[a]) 8)
  let x := x.set c (x[c] + x[d])
  x.set b (rotl32 (x[b] ^^^ x[c]) 7)

/-- DOUBLE_ROUND (rule R63): the four columns, then the four diagonals. -/
def doubleRound (x : Words) : Words :=
  let x := quarterRound 0 4 8 12 x
  let x := quarterRound 1 5 9 13 x
  let x := quarterRound 2 6 10 14 x
  let x := quarterRound 3 7 11 15 x
  let x := quarterRound 0 5 10 15 x
  let x := quarterRound 1 6 11 12 x
  let x := quarterRound 2 7 8 13 x
  quarterRound 3 4 9 14 x

/-- `n` double rounds. -/
def doubleRounds : Nat → Words → Words
  | 0, x => x
  | n + 1, x => doubleRounds n (doubleRound x)

/-- PERMUTE (rule R64): exactly 10 double rounds. -/
def permute (s : Words) : Words := doubleRounds 10 s

/-- `ser32(x[i] +32 s[i])` for i from 0 to 15 (rule R65). -/
def feedForward (x s : Words) : Bytes 64 :=
  Vector.ofFn fun i => wordByte (byteWord (i.val / 4)) (i.val % 4)
where
  byteWord (k : Nat) : Word := x[k]?.getD 0#32 + s[k]?.getD 0#32

/-- BLOCK(key, counter, nonce), the keystream block (rule R65). -/
def block (key : Bytes 32) (counter : Word) (nonce : Bytes 12) : Bytes 64 :=
  let s := initWords key counter nonce
  feedForward (permute s) s

/-- `n` segments of the stream from segment `i` on (rule R66); the counter of segment BLK is base + BLK, which leaves 32
bits only with CTR_OVERFLOW = wrap (rule R67). -/
def xorSegments (key : Bytes 32) (base : Word) (nonce : Bytes 12) : Nat → Nat → List Byte → List Byte
  | 0, _, _ => []
  | n + 1, i, data =>
    xorBytes (data.take 64) (block key (base + BitVec.ofNat 32 i) nonce).toList
      ++ xorSegments key base nonce n (i + 1) (data.drop 64)

/-- XORSTREAM(key, base, nonce, data) (rule R66). -/
def xorStream (key : Bytes 32) (base : Word) (nonce : Bytes 12) (data : List Byte) : List Byte :=
  xorSegments key base nonce (segments data.length) 0 data

/-! ## Where the block keeps it -/

/-- INIT_STATE writes `s` (rule R61). -/
def Scratch.initState (sc : Scratch) (key : Bytes 32) (counter : Word) (nonce : Bytes 12) : Scratch :=
  { sc with sIn := initWords key counter nonce }

/-- The double rounds still to do, RND counting up (rules R12, R64). -/
def Scratch.rounds : Nat → Nat → Scratch → Scratch
  | 0, _, sc => sc
  | n + 1, r, sc => Scratch.rounds n (r + 1) { sc with rnd := r, x := doubleRound sc.x }

/-- PERMUTE copies `s` to `x` and runs the rounds (rule R64). -/
def Scratch.permute (sc : Scratch) : Scratch := Scratch.rounds 10 0 { sc with x := sc.sIn }

/-- BLOCK leaves the keystream block in KSB (rule R65). -/
def Scratch.block (sc : Scratch) (key : Bytes 32) (counter : Word) (nonce : Bytes 12) : Scratch :=
  let sc := (sc.initState key counter nonce).permute
  { sc with ksb := feedForward sc.x sc.sIn }

/-- The segments of XORSTREAM still to do, BLK counting up (rules R12, R66): the scratch registers and the output. -/
def Scratch.xorSegments (key : Bytes 32) (base : Word) (nonce : Bytes 12) :
    Nat → Nat → List Byte → Scratch → Scratch × List Byte
  | 0, _, _, sc => (sc, [])
  | n + 1, i, data, sc =>
    let sc := Scratch.block { sc with blk := i } key (base + BitVec.ofNat 32 i) nonce
    let rest := Scratch.xorSegments key base nonce n (i + 1) (data.drop 64) sc
    (rest.1, xorBytes (data.take 64) sc.ksb.toList ++ rest.2)

/-- XORSTREAM (rule R66). -/
def Scratch.xorStream (sc : Scratch) (key : Bytes 32) (base : Word) (nonce : Bytes 12) (data : List Byte) :
    Scratch × List Byte :=
  Scratch.xorSegments key base nonce (segments data.length) 0 data sc

/-! ## The commands -/

/-- CKLOAD (rule R68). -/
def execCkload (s : State) : Host.Outcome State Fault Refusal :=
  .next (
    if s.keylen.toNat ≠ 32 then s.wipeKeyin.raise .invalidKeyLength
    else ((s.loadCk s.keyin).wipeKeyin).finish)

/-- CCBLOCK (rule R69). -/
def execCcblock (s : State) : Host.Outcome State Fault Refusal :=
  .next (
    if !s.ckValid then s.raise .noKey
    else
      let sc := s.scratch.block s.ck s.ctr s.nonce12
      ((s.withScratch sc).setKs sc.ksb).finish)

/-- CCXOR (rule R70): `OUT_LEN <- 0`, the checks, then the stream. -/
def execCcxor (s : State) : Host.Outcome State Fault Refusal :=
  .next (
    let s := s.setOutLen 0#64
    match s.streamError with
    | some e => s.raise e
    | none =>
      let r := s.scratch.xorStream s.ck s.ctr s.nonce12 s.input
      (((s.withScratch r.1).writeOut 0 r.2).setOutLen s.inLen).finish)

end Sys2Proof.Machine
end

