-- ==== Sys2Proof/Machine/Aead.lean ====
section
/-! DEFINITION. The AEAD composer: AEADENC, AEADDEC. Rules R92 to R104 (42_aead.md). -/

namespace Sys2Proof.Machine

/-! ## What the composer computes -/

/-- OTKDERIVE(key, nonce): the first 32 bytes of the block at counter 0 (rule R92). -/
def otkOf (key : Bytes 32) (nonce : Bytes 12) : Bytes 32 := slice (block key 0#32 nonce) 0 32

/-- PAD16(n) (rule R93). -/
def pad16 (n : Nat) : List Byte := List.replicate ((16 - n % 16) % 16) 0#8

/-- MACSTREAM(aad, ct) (rule R94). -/
def macStream (aad ct : List Byte) : List Byte :=
  aad ++ pad16 aad.length ++ ct ++ pad16 ct.length ++ le64 aad.length ++ le64 ct.length

/-- The first `n` 16-byte units of a byte string. -/
def macUnits : Nat → List Byte → List (Bytes 16)
  | 0, _ => []
  | n + 1, m => ofList 16 (m.take 16) :: macUnits n (m.drop 16)

/-- MACFEED(otk, aad, ct): the port operations, in order (rule R95). -/
def macFeed (otk : Bytes 32) (aad ct : List Byte) : List Instr :=
  .minit otk :: (macUnits ((macStream aad ct).length / 16) (macStream aad ct)).map .mupd

/-- The tag over `aad` and `ct` under the one-time key of (key, nonce) (rules R92, R94, R96). -/
def tagOf (c : Config) (key : Bytes 32) (nonce : Bytes 12) (aad ct : List Byte) : Bytes 16 :=
  macf c (otkOf key nonce) (macStream aad ct)

/-- SEAL(key, nonce, aad, pt, ctr) (rule R96). -/
def sealBytes (c : Config) (key : Bytes 32) (nonce : Bytes 12) (aad pt : List Byte) (ctr : Word) : List Byte :=
  let ct := xorStream key ctr nonce pt
  ct ++ (tagOf c key nonce aad ct).toList

/-- OPEN(key, nonce, aad, input, ctr): the plaintext, or none for AuthenticationFailure (rule R97). -/
def openBytes (c : Config) (key : Bytes 32) (nonce : Bytes 12) (aad input : List Byte) (ctr : Word) :
    Option (List Byte) :=
  let ct := input.take (input.length - 16)
  let tag := ofList 16 (input.drop (input.length - 16))
  if tagOf c key nonce aad ct = tag then some (xorStream key ctr nonce ct) else none

/-! ## Where the block keeps it -/

/-- OTKDERIVE writes OTK (rule R92). -/
def State.otkDerive (s : State) (key : Bytes 32) (nonce : Bytes 12) : State :=
  let sc := s.scratch.block key 0#32 nonce
  s.withScratch { sc with otk := slice sc.ksb 0 32 }

/-- XORSTREAM in the scratch registers: the state and the output (rule R66). -/
def State.xorStream (s : State) (key : Bytes 32) (base : Word) (nonce : Bytes 12) (data : List Byte) :
    State × List Byte :=
  let r := s.scratch.xorStream key base nonce data
  (s.withScratch r.1, r.2)

/-- SEAL (rule R96): the one-time key, the ciphertext, the MAC feed, the tag; the state and the output. -/
def State.sealData (s : State) (key : Bytes 32) (nonce : Bytes 12) (aad pt : List Byte) (ctr : Word) :
    State × List Byte :=
  let s := s.otkDerive key nonce
  let c := s.xorStream key ctr nonce pt
  let s := issueAll (macFeed c.1.scratch.otk aad c.2) c.1
  let s := issue .mtag s
  (s, c.2 ++ s.scratch.tagx.toList)

/-- OPEN up to the answer of MVFY (rule R97): no message keystream has been generated yet (rule R102). -/
def State.verifyData (s : State) (key : Bytes 32) (nonce : Bytes 12) (aad ct : List Byte) (tag : Bytes 16) : State :=
  let s := s.otkDerive key nonce
  let s := issueAll (macFeed s.scratch.otk aad ct) s
  issue (.mvfy tag) s

/-! ## The commands -/

/-- What AEADENC and XAEADENC share after their checks (rules R98, R111): SEAL under (key, nonce), the write of OUT and
OUT_LEN. -/
def State.encryptWith (s : State) (key : Bytes 32) (nonce : Bytes 12) : State :=
  let r := s.sealData key nonce s.assocData s.input s.ctr
  ((r.1.writeOut 0 r.2).setOutLen (s.inLen + 16#64)).finish

/-- What AEADDEC and XAEADDEC share after their checks (rules R97, R99, R112): the tag is verified, and only on a match
is the message keystream generated and OUT written (rule R102). -/
def State.decryptWith (s : State) (key : Bytes 32) (nonce : Bytes 12) : State :=
  let input := s.input
  let ct := input.take (input.length - 16)
  let tag := ofList 16 (input.drop (input.length - 16))
  let v := s.verifyData key nonce s.assocData ct tag
  if v.scratch.macOk then
    let r := v.xorStream key s.ctr nonce ct
    ((r.1.writeOut 0 r.2).setOutLen (s.inLen - 16#64)).finish
  else v.raise .authenticationFailure

/-- AEADENC (rule R98). -/
def execAeadenc (s : State) : Host.Outcome State Fault Refusal :=
  .next (
    let s := s.setOutLen 0#64
    match s.encryptError with
    | some e => s.raise e
    | none => s.encryptWith s.ck s.nonce12)

/-- AEADDEC (rule R99). -/
def execAeaddec (s : State) : Host.Outcome State Fault Refusal :=
  .next (
    let s := s.setOutLen 0#64
    match s.decryptError with
    | some e => s.raise e
    | none => s.decryptWith s.ck s.nonce12)

end Sys2Proof.Machine
end

