-- ==== Sys2Proof/Machine/HChaCha.lean ====
section
/-! DEFINITION. HCHACHA and the XChaCha20 nonce derivation. Rules R80 to R83 (41_hchacha20.md). -/

namespace Sys2Proof.Machine

/-- HINIT(key, nonce16): the input state; the nonce fills words 12 to 15 (rule R80). -/
def hinitWords (key : Bytes 32) (nonce : Bytes 16) : Words :=
  #v[chachaConstant0, chachaConstant1, chachaConstant2, chachaConstant3,
     le32At key 0, le32At key 4, le32At key 8, le32At key 12,
     le32At key 16, le32At key 20, le32At key 24, le32At key 28,
     le32At nonce 0, le32At nonce 4, le32At nonce 8, le32At nonce 12]

/-- The words 0 to 3 and 12 to 15 of `x`, serialized, with no addition of `s` (rule R81). -/
def subkeyOf (x : Words) : Bytes 32 :=
  Vector.ofFn fun i => wordByte (chosen (i.val / 4)) (i.val % 4)
where
  chosen (k : Nat) : Word := x[if k < 4 then k else k + 8]?.getD 0#32

/-- HCHACHA20(key, nonce16) (rule R81). -/
def hchacha20 (key : Bytes 32) (nonce : Bytes 16) : Bytes 32 := subkeyOf (permute (hinitWords key nonce))

/-- XNONCE(nonce24): four zero bytes, then nonce24[16..24] (rule R83). -/
def xnonce (nonce : Bytes 24) : Bytes 12 := ofList 12 ((zeros 4).toList ++ (slice nonce 16 8).toList)

/-- HINIT writes `s` (rule R80). -/
def Scratch.hinit (sc : Scratch) (key : Bytes 32) (nonce : Bytes 16) : Scratch :=
  { sc with sIn := hinitWords key nonce }

/-- HCHACHA20 runs in `s` and `x`; its value is `subkeyOf` of the `x` it leaves (rule R81). -/
def Scratch.hchacha20 (sc : Scratch) (key : Bytes 32) (nonce : Bytes 16) : Scratch := (sc.hinit key nonce).permute

/-- HCHACHA (rule R82). -/
def execHchacha (s : State) : Host.Outcome State Fault Refusal :=
  .next (
    if !s.ckValid then s.raise .noKey
    else
      let sc := s.scratch.hchacha20 s.ck s.nonce16
      ((s.withScratch sc).setResult (subkeyOf sc.x)).finish)

end Sys2Proof.Machine
end

