-- ==== Sys2Proof/Machine/XAead.lean ====
section
/-! DEFINITION. The extended-nonce composer: XAEADENC, XAEADDEC. Rules R110 to R113 (43_xaead.md). -/

namespace Sys2Proof.Machine

/-- XDERIVE(key, nonce24) writes SUBKEY and N12; CK and NONCE are not changed (rule R110). -/
def State.xderive (s : State) (key : Bytes 32) (nonce : Bytes 24) : State :=
  let sc := s.scratch.hchacha20 key (slice nonce 0 16)
  s.withScratch { sc with subkey := subkeyOf sc.x, n12 := xnonce nonce }

/-- XAEADENC: AEADENC with (SUBKEY, N12) in place of (CK, NONCE[0..12]) (rule R111). -/
def execXaeadenc (s : State) : Host.Outcome State Fault Refusal :=
  .next (
    let s := s.setOutLen 0#64
    match s.encryptError with
    | some e => s.raise e
    | none =>
      let s := s.xderive s.ck s.nonce
      s.encryptWith s.scratch.subkey s.scratch.n12)

/-- XAEADDEC: AEADDEC with (SUBKEY, N12); the public checks come before the derivation (rule R112). -/
def execXaeaddec (s : State) : Host.Outcome State Fault Refusal :=
  .next (
    let s := s.setOutLen 0#64
    match s.decryptError with
    | some e => s.raise e
    | none =>
      let s := s.xderive s.ck s.nonce
      s.decryptWith s.scratch.subkey s.scratch.n12)

end Sys2Proof.Machine
end

