-- ==== Sys2Proof/Machine/Dispatch.lean ====
section
/-! DEFINITION. The meaning of each instruction: one arm per constructor of `Instr`. -/

namespace Sys2Proof.Machine

/-- The meaning of an instruction. -/
def exec (i : Instr) (s : State) : Host.Outcome State Fault Refusal :=
  match i with
  | .ckload => Sys2Proof.Machine.execCkload s
  | .ccblock => Sys2Proof.Machine.execCcblock s
  | .ccxor => Sys2Proof.Machine.execCcxor s
  | .hchacha => Sys2Proof.Machine.execHchacha s
  | .aeadenc => Sys2Proof.Machine.execAeadenc s
  | .aeaddec => Sys2Proof.Machine.execAeaddec s
  | .xaeadenc => Sys2Proof.Machine.execXaeadenc s
  | .xaeaddec => Sys2Proof.Machine.execXaeaddec s
  | .skload => Sys2Proof.Machine.execSkload s
  | .skpub => Sys2Proof.Machine.execSkpub s
  | .skexch => Sys2Proof.Machine.execSkexch s
  | .skdrop => Sys2Proof.Machine.execSkdrop s
  | .minit key => Sys2Proof.Machine.execMinit key s
  | .mupd block => Sys2Proof.Machine.execMupd block s
  | .mtag => Sys2Proof.Machine.execMtag s
  | .mvfy tag => Sys2Proof.Machine.execMvfy tag s
  | .fdec d src => Sys2Proof.Machine.execFdec d src s
  | .fenc a => Sys2Proof.Machine.execFenc a s
  | .fadd d a b => Sys2Proof.Machine.execFadd d a b s
  | .fsub d a b => Sys2Proof.Machine.execFsub d a b s
  | .fmul d a b => Sys2Proof.Machine.execFmul d a b s
  | .fsqr d a => Sys2Proof.Machine.execFsqr d a s
  | .finv d a => Sys2Proof.Machine.execFinv d a s
  | .fcswap a b => Sys2Proof.Machine.execFcswap a b s

end Sys2Proof.Machine
end

