-- ==== Sys2Proof/Machine/Flags.lean ====
section
/-! DEFINITION. STATUS and the outputs that mirror it: rules R13 (10_state.md), R50 (30_encoding.md), R150, R162
(60_exceptions.md). -/

namespace Sys2Proof.Machine

/-- ERRCODE of each error (rules R50, R150). -/
def CmdError.code : CmdError → Nat
  | .invalidKeyLength => 1
  | .ciphertextTooShort => 2
  | .authenticationFailure => 3
  | .illegalCommand => 4
  | .noKey => 5
  | .lengthOutOfRange => 6
  | .counterOverflow => 7

/-- STATUS.BUSY: 1 from the CMD write to the end of the command (rule R13), that is while a word is latched. -/
def State.busy (s : State) : Bool := s.latch.isSome

/-- STATUS.ERR (rule R13). -/
def State.err (s : State) : Bool := s.error.isSome

/-- STATUS.ERRCODE: 0 when ERR = 0, the error's code when ERR = 1 (rule R13). -/
def State.errCode (s : State) : Nat :=
  match s.error with
  | none => 0
  | some e => e.code

/-- A flag as a number. -/
def bit (b : Bool) : Nat := if b then 1 else 0

/-- STATUS (rule R50): BUSY [0], DONE [1], ERR [2], CK_VALID [3], SK_VALID [4], ERRCODE [11:8], the rest 0. -/
def State.status (s : State) : Word :=
  BitVec.ofNat 32 (bit s.busy + 0x02 * bit s.done + 0x04 * bit s.err + 0x08 * bit s.ckValid + 0x10 * bit s.skValid
    + 0x100 * s.errCode)

/-- The output `done_o` (rule R162). -/
def State.doneO (s : State) : Bool := s.done

/-- The output `err_o` (rule R162). -/
def State.errO (s : State) : Bool := s.err

end Sys2Proof.Machine
end

