-- ==== Sys2Proof/Machine/HostAccess.lean ====
section
/-! DEFINITION. What the host can do: register and buffer accesses, the CMD write, reset.
Rules R30, R33, R36, R39, R41 (20_memory.md), R45, R49, R51 (30_encoding.md), R154, R160 (60_exceptions.md), R170, R171
(70_reset_and_hazards.md). -/

namespace Sys2Proof.Machine

/-- The register map of rule R49: `word` is the offset divided by 4. -/
def regAt (word : Fin 64) : HostReg :=
  match word.val with
  | 0 => .cmd
  | 1 => .status
  | 2 => .ctr
  | 3 => .keylen
  | 4 => .aadLenLo
  | 5 => .aadLenHi
  | 6 => .inLenLo
  | 7 => .inLenHi
  | 8 => .outLenLo
  | 9 => .outLenHi
  | _ =>
    if h : 16 ≤ word.val ∧ word.val < 24 then .keyin ⟨word.val - 16, by omega⟩
    else if h : 24 ≤ word.val ∧ word.val < 30 then .nonce ⟨word.val - 24, by omega⟩
    else if h : 32 ≤ word.val ∧ word.val < 40 then .point ⟨word.val - 32, by omega⟩
    else if h : 40 ≤ word.val ∧ word.val < 48 then .result ⟨word.val - 40, by omega⟩
    else if h : 48 ≤ word.val then .ks ⟨word.val - 48, by omega⟩
    else .reserved

/-- The low half of a 64-bit length register (rule R48). -/
def lo32 (v : BitVec 64) : Word := v.setWidth 32

/-- The high half of a 64-bit length register (rule R48). -/
def hi32 (v : BitVec 64) : Word := BitVec.ofNat 32 (v.toNat / 2 ^ 32)

/-- A 64-bit length register of its halves: HI * 2^32 + LO (rule R48). -/
def join32 (hi lo : Word) : BitVec 64 := BitVec.ofNat 64 (hi.toNat * 2 ^ 32 + lo.toNat)

/-- What a host read of a register gives outside a command (rule R49): CMD and KEYIN read 0, so do the reserved
offsets. -/
def State.regRead (s : State) : HostReg → Word
  | .cmd => 0#32
  | .status => s.status
  | .ctr => s.ctr
  | .keylen => s.keylen
  | .aadLenLo => lo32 s.aadLen
  | .aadLenHi => hi32 s.aadLen
  | .inLenLo => lo32 s.inLen
  | .inLenHi => hi32 s.inLen
  | .outLenLo => lo32 s.outLen
  | .outLenHi => hi32 s.outLen
  | .keyin _ => 0#32
  | .nonce k => le32At s.nonce (4 * k.val)
  | .point k => le32At s.point (4 * k.val)
  | .result k => le32At s.result (4 * k.val)
  | .ks k => le32At s.ks (4 * k.val)
  | .reserved => 0#32

/-- A CMD write (rules R45, R160): DONE, ERR and ERRCODE are cleared and the word is latched, so that BUSY is 1. A word
that is not legal ends at once with IllegalCommand (rules R51, R154). -/
def State.cmdWrite (s : State) (w : Word) : State :=
  match decodeCmd w with
  | .instr _ => { s with latch := some (.cmd w), done := false, error := none }
  | .reject _ => s.raise .illegalCommand

/-- A host write of a register outside a command (rules R15, R41, R49): writes to STATUS, OUT_LEN, RESULT, KS and the
reserved offsets are ignored. -/
def State.regWrite (s : State) (r : HostReg) (v : Word) : State :=
  match r with
  | .cmd => s.cmdWrite v
  | .status => s
  | .ctr => { s with ctr := v }
  | .keylen => { s with keylen := v }
  | .aadLenLo => { s with aadLen := join32 (hi32 s.aadLen) v }
  | .aadLenHi => { s with aadLen := join32 v (lo32 s.aadLen) }
  | .inLenLo => { s with inLen := join32 (hi32 s.inLen) v }
  | .inLenHi => { s with inLen := join32 v (lo32 s.inLen) }
  | .outLenLo => s
  | .outLenHi => s
  | .keyin k => { s with keyin := setWordAt s.keyin k.val v }
  | .nonce k => { s with nonce := setWordAt s.nonce k.val v }
  | .point k => { s with point := setWordAt s.point k.val v }
  | .result _ => s
  | .ks _ => s
  | .reserved => s

/-- A host write of a buffer byte outside a command (rules R30, R41): OUT is read-only. -/
def State.bufWrite (s : State) (b : Buffer) (addr : Nat) (v : Byte) : State :=
  match b with
  | .aad => { s with aad := s.aad.write addr v }
  | .inp => { s with inp := s.inp.write addr v }
  | .out => s

/-- The busy lock (rule R39): while BUSY = 1 a read of STATUS gives STATUS and every other read gives 0. -/
def State.hostRegRead (s : State) (r : HostReg) : Word :=
  if s.busy && decide (r ≠ .status) then 0#32 else s.regRead r

/-- The answer of a host read. -/
def State.answer (s : State) (v : Word) : State := { s with rdata := v }

/-- One host access. While BUSY = 1 every read but STATUS's gives 0 and every write is ignored, at whatever address (rule
R39). Outside a command a buffer address at or beyond the buffer's size does not exist, and the access stops the machine
(rule R30, and rule R36: "Both require `addr + n <= size(space)`"; log entry 7). -/
def hostAccess (a : Access) (s : State) : Host.Outcome State Fault Refusal :=
  match a with
  | .regRead word => .next (s.answer (s.hostRegRead (regAt word)))
  | .regWrite word v => .next (if s.busy then s else s.regWrite (regAt word) v)
  | .bufRead b addr =>
    if s.busy then .next (s.answer 0#32)
    else if addr < bufferSize s.cfg b then .next (s.answer (((s.buffer b).read addr).setWidth 32))
    else .fault (.outsideSpace b addr)
  | .bufWrite b addr v =>
    if s.busy then .next s
    else if addr < bufferSize s.cfg b then .next (s.bufWrite b addr v)
    else .fault (.outsideSpace b addr)

/-- `rst` (rules R170, R171): every piece of the block's state at its reset value, whatever was in progress. The
parameters are not state, and what the outside world does next is not the block's. -/
def resetBlock (s : State) : State := { State.reset with cfg := s.cfg, events := s.events }

end Sys2Proof.Machine
end

