-- ==== Sys2Proof/Machine/Sequencer.lean ====
section
/-! DEFINITION. The sequencer's turn: what is latched is decoded and run, whole (rules R2, R3, R12, R40). -/

namespace Sys2Proof.Machine

/-- With nothing latched the block is idle and holds its state (rules R166, R170). A latched word that decodes runs to
its end; an illegal command word ends with IllegalCommand (rule R154; a CMD write never latches one); a reserved port
word is refused (rule R55). -/
def sequencerTurn (s : State) : Host.Outcome State Fault Refusal :=
  match s.latch with
  | none => .next s
  | some w =>
    match decode w with
    | .instr i => exec i s
    | .reject .illegalCommand => .next (s.raise .illegalCommand)
    | .reject r => .refused (.reservedPortEncoding r)

/-- What the events say happens next, and the state without that event. With no event listed it is the sequencer's
turn. -/
def nextEvent (s : State) : Event × State :=
  match s.events with
  | [] => (.sequencer, s)
  | e :: es => (e, { s with events := es })

/-- One event (rules R2, R37). -/
def runEvent (e : Event) (s : State) : Host.Outcome State Fault Refusal :=
  match e with
  | .host a => hostAccess a s
  | .rst => .next (resetBlock s)
  | .sequencer => sequencerTurn s

/-- The state with a table word latched and the sequencer's turn next. -/
def latchTableWord (s : State) (nbits w : Nat) : State :=
  { s with latch := encodedOfTable nbits w, events := .sequencer :: s.events }

end Sys2Proof.Machine
end

