-- ==== Sys2Proof/Machine/Step.lean ====
section
/-! DEFINITION. One step of the machine: one host access, one reset, or one turn of the sequencer, which runs a whole
command (rules R2, R3, R37). -/

namespace Sys2Proof.Machine

/-- One step: the next event. -/
def step (s : State) : Host.Outcome State Fault Refusal := runEvent (nextEvent s).1 (nextEvent s).2

/-- `s` with an opcode-table word latched and the sequencer's turn next (log entry 2). -/
def State.withFetchWord (s : State) (nbits w : Nat) : State := latchTableWord s nbits w

end Sys2Proof.Machine
end

