-- ==== Sys2Proof/Machine/Script.lean ====
section
/-! DEFINITION. Host scripts: what each action of the spec expands to, as events, and each pseudo-operation as a host
that acts on what it has read. Rules R56, R57 (30_encoding.md), R172 (70_reset_and_hazards.md).

`CMD` and `CMDW` wait until STATUS.DONE = 1: the sequencer's turn follows the CMD write. EXPECT is an assertion about a
value read and encodes no access. What the rules leave open here is log entry 16. -/

namespace Sys2Proof.Machine

/-- The byte registers of the REG space (rule R49). -/
inductive ByteReg where
  | keyin
  | nonce
  | point
  | result
  | ks
  deriving DecidableEq, Repr

/-- The word index (offset / 4) of a byte register's first word (rule R49). -/
def ByteReg.first : ByteReg → Nat
  | .keyin => 0x040 / 4
  | .nonce => 0x060 / 4
  | .point => 0x080 / 4
  | .result => 0x0A0 / 4
  | .ks => 0x0C0 / 4

/-- The number of words of a byte register (rule R49). -/
def ByteReg.words : ByteReg → Nat
  | .keyin => 8
  | .nonce => 6
  | .point => 8
  | .result => 8
  | .ks => 16

/-- The word index of each register (rule R49), the inverse of `regAt`; `reserved` is the first reserved offset. -/
def wordIndex : HostReg → Fin 64
  | .cmd => ⟨0x000 / 4, by decide⟩
  | .status => ⟨0x004 / 4, by decide⟩
  | .ctr => ⟨0x008 / 4, by decide⟩
  | .keylen => ⟨0x00C / 4, by decide⟩
  | .aadLenLo => ⟨0x010 / 4, by decide⟩
  | .aadLenHi => ⟨0x014 / 4, by decide⟩
  | .inLenLo => ⟨0x018 / 4, by decide⟩
  | .inLenHi => ⟨0x01C / 4, by decide⟩
  | .outLenLo => ⟨0x020 / 4, by decide⟩
  | .outLenHi => ⟨0x024 / 4, by decide⟩
  | .keyin k => ⟨0x040 / 4 + k.val, by omega⟩
  | .nonce k => ⟨0x060 / 4 + k.val, by omega⟩
  | .point k => ⟨0x080 / 4 + k.val, by omega⟩
  | .result k => ⟨0x0A0 / 4 + k.val, by omega⟩
  | .ks k => ⟨0x0C0 / 4 + k.val, by omega⟩
  | .reserved => ⟨0x028 / 4, by decide⟩

/-! ## The actions (rule R56) -/

/-- `WR reg, value`. -/
def scriptWr (r : HostReg) (v : Word) : List Event := [.host (.regWrite (wordIndex r) v)]

/-- WRB's condition: "the byte count must be the register's length or a multiple of 4 below it". -/
def scriptWrbOk (r : ByteReg) (bytes : List Byte) : Bool :=
  bytes.length % 4 == 0 && decide (bytes.length ≤ 4 * r.words)

/-- `WRB reg, hexbytes`: one WR per word, word k the `le32` of bytes 4k to 4k+3. A byte count the rule does not admit has
no expansion, and nothing is written (DESIGN CHOICE, log entry 16). -/
def scriptWrb (r : ByteReg) (bytes : List Byte) : List Event :=
  if scriptWrbOk r bytes then wrbFrom r.first bytes else []
where
  wrbFrom (word : Nat) : List Byte → List Event
    | b0 :: b1 :: b2 :: b3 :: rest =>
      .host (.regWrite (Fin.ofNat 64 word) (le32 b0 b1 b2 b3)) :: wrbFrom (word + 1) rest
    | [] => []
    | [_] => []
    | [_, _] => []
    | [_, _, _] => []

/-- `FILL space, hexbytes`: bytes to the buffer AAD or IN from address 0. -/
def scriptFill (b : Buffer) (bytes : List Byte) : List Event := fillFrom 0 bytes
where
  fillFrom (addr : Nat) : List Byte → List Event
    | [] => []
    | v :: vs => .host (.bufWrite b addr v) :: fillFrom (addr + 1) vs

/-- `CMDW value`: a CMD write, then the command's run. -/
def scriptCmdw (w : Word) : List Event := scriptWr .cmd w ++ [.sequencer]

/-- `CMD mnemonic`: the command word of an instruction. A port operation has none. -/
def scriptCmd (i : Instr) : List Event :=
  match encode i with
  | .cmd w => scriptCmdw w
  | .mop _ _ => []
  | .fop _ => []

/-- `RD reg`. -/
def scriptRd (r : HostReg) : List Event := [.host (.regRead (wordIndex r))]

/-- `RDB reg`: every word of a byte register. -/
def scriptRdb (r : ByteReg) : List Event :=
  (List.range r.words).map fun k => .host (.regRead (Fin.ofNat 64 (r.first + k)))

/-- `DUMP OUT, n`: the first n bytes of OUT. -/
def scriptDump (n : Nat) : List Event := (List.range n).map fun a => .host (.bufRead .out a)

/-- `WR IN_LEN_LO/HI, n`. -/
def scriptInLen (n : Nat) : List Event :=
  scriptWr .inLenLo (BitVec.ofNat 32 n) ++ scriptWr .inLenHi (BitVec.ofNat 32 (n / 2 ^ 32))

/-- `WR AAD_LEN_LO/HI, n`. -/
def scriptAadLen (n : Nat) : List Event :=
  scriptWr .aadLenLo (BitVec.ofNat 32 n) ++ scriptWr .aadLenHi (BitVec.ofNat 32 (n / 2 ^ 32))

/-! ## A host that acts on what it reads -/

/-- What a pseudo-operation returns to its caller: bytes, none where the operation returns nothing, or the failure that
ERRCODE names (rule R50). -/
inductive Reply where
  | bytes (l : List Byte)
  | failure (errCode : BitVec 4)
  deriving DecidableEq, Repr

/-- A host: events, then what it does on the words it has read by them, or the end with a reply. -/
inductive HostScript where
  | done (r : Reply)
  | act (es : List Event) (next : List Word → HostScript)

/-- `a`, then what the caller does with its reply. -/
def HostScript.andThen (a : HostScript) (k : Reply → HostScript) : HostScript :=
  match a with
  | .done r => k r
  | .act es next => .act es fun ws => (next ws).andThen k

/-- Whether an event is a host read. -/
def Event.isRead : Event → Bool
  | .host (.regRead _) => true
  | .host (.bufRead _ _) => true
  | .host (.regWrite _ _) => false
  | .host (.bufWrite _ _ _) => false
  | .rst => false
  | .sequencer => false

/-- Events, one by one, as `step` takes them: the state they leave and the words they have read. -/
def runEvents : List Event → State → Host.Outcome (State × List Word) Fault Refusal
  | [], s => .next (s, [])
  | e :: es, s =>
    match runEvent e s with
    | .next t =>
      match runEvents es t with
      | .next (u, ws) => .next (u, if e.isRead then t.rdata :: ws else ws)
      | .fault f => .fault f
      | .refused r => .refused r
    | .fault f => .fault f
    | .refused r => .refused r

/-- A host and the block to the host's end: the state it leaves and its reply. -/
def runHostScript : HostScript → State → Host.Outcome (State × Reply) Fault Refusal
  | .done r, s => .next (s, r)
  | .act es next, s =>
    match runEvents es s with
    | .next (t, ws) => runHostScript (next ws) t
    | .fault f => .fault f
    | .refused r => .refused r

/-- The bytes of words read by RDB (rule R49). -/
def wordsBytes (ws : List Word) : List Byte := ws.flatMap fun w => (List.range 4).map (wordByte w)

/-- The bytes of words read by DUMP. -/
def dumpBytes (ws : List Word) : List Byte := ws.map fun w => w.setWidth 8

/-- The events alone; the operation returns nothing. -/
def hostDo (es : List Event) : HostScript := .act es fun _ => .done (.bytes [])

/-- `RDB reg`, its bytes the reply. -/
def hostRdb (r : ByteReg) : HostScript := .act (scriptRdb r) fun ws => .done (.bytes (wordsBytes ws))

/-- `DUMP OUT, OUT_LEN`, its bytes the reply: the first OUT_LEN bytes of OUT, OUT_LEN being what the command has left.
The host knows it by reading its two halves (DESIGN CHOICE, log entry 16). -/
def hostDumpOut : HostScript :=
  .act (scriptRd .outLenLo ++ scriptRd .outLenHi) fun ws =>
    .act (scriptDump (join32 (ws[1]?.getD 0#32) (ws[0]?.getD 0#32)).toNat) fun bs => .done (.bytes (dumpBytes bs))

/-- STATUS.ERR of a word read (rule R50). -/
def statusErr (w : Word) : Bool := w.getLsbD 2

/-- STATUS.ERRCODE of a word read (rule R50). -/
def statusErrCode (w : Word) : BitVec 4 := w.extractLsb' 8 4

/-- "the result is OUT[0..OUT_LEN] when ERR = 0, the failure named by ERRCODE otherwise" (rule R57). -/
def hostOutOrFailure : HostScript :=
  .act (scriptRd .status) fun ws =>
    let status := ws[0]?.getD 0#32
    hostDumpOut.andThen fun r => .done (if statusErr status then .failure (statusErrCode status) else r)

/-! ## The pseudo-operations (rule R57) -/

/-- `WR KEYLEN, len(k)`. A length of 2^32 or more is no 32-bit value; KEYLEN is then 2^32 - 1, which no load accepts
(DESIGN CHOICE, log entry 16). -/
def scriptKeylen (n : Nat) : List Event := scriptWr .keylen (BitVec.ofNat 32 (min n (2 ^ 32 - 1)))

/-- A key's first 32 bytes, zero-filled when there are fewer: rule R57, of the cipher key. -/
def firstKeyBytes (key : List Byte) : List Byte := (ofList 32 key).toList

/-- `ChaCha20Poly1305.new(k)`, `XChaCha20Poly1305.new(k)`. -/
def scriptNewCipherKey (key : List Byte) : HostScript :=
  hostDo (scriptKeylen key.length ++ scriptWrb .keyin (firstKeyBytes key) ++ scriptCmd .ckload)

/-- The bytes of a private-key buffer that WRB KEYIN writes: the buffer itself where WRB admits its byte count (rule
R57); otherwise, where rule R56 gives WRB no expansion, its first 32 bytes, zero-filled, as for a cipher key (DESIGN
CHOICE, log entry 16: SKLOAD refuses such a length and zeroes KEYIN whatever was written). -/
def privateKeyBytes (buf : List Byte) : List Byte := if scriptWrbOk .keyin buf then buf else firstKeyBytes buf

/-- `PrivateKey::new(buf)`. -/
def scriptNewPrivateKey (buf : List Byte) : HostScript :=
  hostDo (scriptKeylen buf.length ++ scriptWrb .keyin (privateKeyBytes buf) ++ scriptCmd .skload)

/-- `keystream(k, n, c)`. -/
def scriptKeystream (nonce : Bytes 12) (ctr : Word) : HostScript :=
  .act (scriptWrb .nonce nonce.toList ++ scriptWr .ctr ctr ++ scriptCmd .ccblock) fun _ => hostRdb .ks

/-- `hchacha20(k, n16)`. -/
def scriptHchacha20 (nonce : Bytes 16) : HostScript :=
  .act (scriptWrb .nonce nonce.toList ++ scriptCmd .hchacha) fun _ => hostRdb .result

/-- `chacha20.encrypt(data, n, c)`, the raw stream. -/
def scriptStream (nonce : Bytes 12) (ctr : Word) (data : List Byte) : HostScript :=
  .act (scriptWrb .nonce nonce.toList ++ scriptWr .ctr ctr ++ scriptFill .inp data ++ scriptInLen data.length
    ++ scriptCmd .ccxor) fun _ => hostDumpOut

/-- The operands of an AEAD call and its command. -/
def scriptAead (i : Instr) (nonce aad data : List Byte) (ctr : Word) : List Event :=
  scriptWrb .nonce nonce ++ scriptWr .ctr ctr ++ scriptFill .aad aad ++ scriptAadLen aad.length
    ++ scriptFill .inp data ++ scriptInLen data.length ++ scriptCmd i

/-- `encrypt(p, n, a, c)` of the 12-byte-nonce composer. -/
def scriptEncrypt (nonce : Bytes 12) (aad data : List Byte) (ctr : Word) : HostScript :=
  .act (scriptAead .aeadenc nonce.toList aad data ctr) fun _ => hostDumpOut

/-- `decrypt(input, n, a, c)` of the 12-byte-nonce composer. -/
def scriptDecrypt (nonce : Bytes 12) (aad data : List Byte) (ctr : Word) : HostScript :=
  .act (scriptAead .aeaddec nonce.toList aad data ctr) fun _ => hostOutOrFailure

/-- `encrypt(p, n, a, c)` of the 24-byte-nonce composer. -/
def scriptXEncrypt (nonce : Bytes 24) (aad data : List Byte) (ctr : Word) : HostScript :=
  .act (scriptAead .xaeadenc nonce.toList aad data ctr) fun _ => hostDumpOut

/-- `decrypt(input, n, a, c)` of the 24-byte-nonce composer. -/
def scriptXDecrypt (nonce : Bytes 24) (aad data : List Byte) (ctr : Word) : HostScript :=
  .act (scriptAead .xaeaddec nonce.toList aad data ctr) fun _ => hostOutOrFailure

/-- `public_key()`. -/
def scriptPublicKey : HostScript := .act (scriptCmd .skpub) fun _ => hostRdb .result

/-- `exchange(peerPublic)`. -/
def scriptExchange (peer : Bytes 32) : HostScript :=
  .act (scriptWrb .point peer.toList ++ scriptCmd .skexch) fun _ => hostRdb .result

/-- The end of the PrivateKey's lifetime. -/
def scriptDrop : HostScript := hostDo (scriptCmd .skdrop)

/-- A private key's whole lifetime around one use: construction, the use, drop; the reply is the use's. -/
def withPrivateKey (scalar : Bytes 32) (use : HostScript) : HostScript :=
  (scriptNewPrivateKey scalar.toList).andThen fun _ => use.andThen fun r => scriptDrop.andThen fun _ => .done r

/-- `scalarmult(scalar, point)`. -/
def scriptScalarMult (scalar point : Bytes 32) : HostScript := withPrivateKey scalar (scriptExchange point)

/-- `scalarmult_base(scalar)`. -/
def scriptScalarMultBase (scalar : Bytes 32) : HostScript := withPrivateKey scalar scriptPublicKey

end Sys2Proof.Machine
end

