-- ==== Sys2Proof/Safety.lean ====
section
/-! DEFINITION. The terms claims use: the invariant of the block between steps, what the host can see, and the formulas
of the Montgomery ladder that the port schedule computes. -/

namespace Sys2Proof.Machine

/-! ## The invariant -/

/-- What holds between steps of the block: the buffers' form and size (rules R21, R30), OUT_LEN's range (rule R15),
scratch state released (rule R22), only legal command words latched and no port word (rules R12, R51, R55), the flags'
relations (rules R13, R39), and empty slots holding no key (rules R24, R137). -/
structure State.Inv (s : State) : Prop where
  aadCanonical : s.aad.wf = true
  inpCanonical : s.inp.wf = true
  outCanonical : s.out.wf = true
  aadWithin : s.aad.within (bufferSize s.cfg .aad) = true
  inpWithin : s.inp.within (bufferSize s.cfg .inp) = true
  outWithin : s.out.within (bufferSize s.cfg .out) = true
  outLenBound : s.outLen.toNat ≤ s.cfg.dataMax.val + 16
  scratchReleased : s.scratch = Scratch.zero
  latchLegal : ∀ w, s.latch = some w → ∃ c i, w = .cmd c ∧ decodeCmd c = .instr i
  busyFlags : s.busy = true → s.done = false ∧ s.error = none
  errorDone : s.error ≠ none → s.done = true
  emptyCk : s.ckValid = false → s.ck = zeros 32
  emptySk : s.skValid = false → s.sk = zeros 32

/-! ## What no host access reads -/

/-- `s` with every secret that has no read path replaced by zeros: KEYIN, CK, SK and all scratch state (rules R10, R16,
R17, R22, R163). Two states with the same public part differ in those alone. -/
def State.publicPart (s : State) : State :=
  { s with keyin := zeros 32, ck := zeros 32, sk := zeros 32, scratch := Scratch.zero }

/-- The public part of an outcome. -/
def publicOutcome : Host.Outcome State Fault Refusal → Host.Outcome State Fault Refusal
  | .next s => .next s.publicPart
  | .fault f => .fault f
  | .refused r => .refused r

/-! ## Classes of instructions -/

/-- The twelve commands (rule R46). -/
def isCommand (i : Instr) : Bool :=
  match encode i with
  | .cmd _ => true
  | .mop _ _ => false
  | .fop _ => false

/-- The five data commands (rule R156). -/
def isData (i : Instr) : Bool :=
  decide (i ∈ [Instr.ccxor, .aeadenc, .aeaddec, .xaeadenc, .xaeaddec])

/-- The two load commands. -/
def isLoad (i : Instr) : Bool := decide (i ∈ [Instr.ckload, .skload])

/-- The commands that use the cipher-key slot (rule R155). -/
def usesCk (i : Instr) : Bool :=
  decide (i ∈ [Instr.ccblock, .ccxor, .hchacha, .aeadenc, .aeaddec, .xaeadenc, .xaeaddec])

/-- The commands that use the private-key slot (rule R155). -/
def usesSk (i : Instr) : Bool := decide (i ∈ [Instr.skpub, .skexch])

/-! ## The ladder as formulas (rule R130) -/

/-- The two projective pairs (X2:Z2) and (X3:Z3). -/
structure LadderPair where
  x2 : Fe
  z2 : Fe
  x3 : Fe
  z3 : Fe
  deriving DecidableEq, Repr

/-- The two pairs exchanged. -/
def LadderPair.swapped (p : LadderPair) : LadderPair := { x2 := p.x3, z2 := p.z3, x3 := p.x2, z3 := p.z2 }

/-- The two pairs exchanged when the flag is 1. -/
def LadderPair.cswap (swap : Bool) (p : LadderPair) : LadderPair := if swap then p.swapped else p

/-- The four formulas of rule R130 after the swap, with a24 = 121665 and X1 = `u`. -/
def LadderPair.advance (u : Fe) (p : LadderPair) : LadderPair :=
  let aa := feSqr (feAdd p.x2 p.z2)
  let bb := feSqr (feSub p.x2 p.z2)
  let e := feSub aa bb
  let da := feMul (feSub p.x3 p.z3) (feAdd p.x2 p.z2)
  let cb := feMul (feAdd p.x3 p.z3) (feSub p.x2 p.z2)
  { x2 := feMul aa bb, z2 := feMul e (feAdd aa (feMul (Fe.ofNat 121665) e)),
    x3 := feSqr (feAdd da cb), z3 := feMul u (feSqr (feSub da cb)) }

/-- Iterations T from `n - 1` down to 0 (rule R129): the pairs, and the last scalar bit. -/
def ladderPairs (e : Bytes 32) (u : Fe) : Nat → Bool → LadderPair → LadderPair × Bool
  | 0, prev, p => (p, prev)
  | n + 1, prev, p =>
    let b := scalarBit e n
    ladderPairs e u n b ((p.cswap (xor b prev)).advance u)

/-- SCALARMULT(scalar, point) as a function (rules R126 to R132): clamp, 255 iterations from (1:0) and (u:1), the last
swap, X2 * Z2^-1. -/
def x25519 (scalar point : Bytes 32) : Bytes 32 :=
  let u := feDec point
  let r := ladderPairs (clamp scalar) u 255 false { x2 := Fe.ofNat 1, z2 := Fe.ofNat 0, x3 := u, z3 := Fe.ofNat 1 }
  let p := r.1.cswap r.2
  feEnc (feMul p.x2 (feInv p.z2))

end Sys2Proof.Machine
end

