-- ==== Sys2Proof/Certificates/Slice0/Obligations.lean ====
section
/-! DEFINITION. The statements for the provers, from the numbered rules of spec/.

A next state is written as a record over the state before, so that it says at once what an instruction writes and that
it writes nothing else. Every statement holds for every instance of the open parameters of rule R5 (`State.cfg`).
`Scratch.zero` is the scratch state of rule R22 at zero; the model's own answer line and select stand in it too (log
entries 4, 5). -/

open Sys2Proof Sys2Proof.Machine

/-! ## Encodings (30_encoding.md) -/

/-- Rules R45, R46, R52 to R54: every well-formed instruction is decoded from its own word, every operand kept. -/
def Obligations.DecodeOfEncode : Prop :=
  ∀ i : Instr, i.wf = true → decode (encode i) = .instr i

/-- Rules R45, R46, R52 to R55: every word that decodes is the word of the instruction it decodes to, which is
well-formed, so that no two words stand for one instruction. That a word with a nonzero unused field and a MAC-port
payload of another length are no instruction is the model's (log entry 11, DEDUCED from rules R52 and R53). -/
def Obligations.EncodeOfDecode : Prop :=
  ∀ (e : Encoded) (i : Instr), decode e = .instr i → encode i = e ∧ i.wf = true

/-- Rules R46, R51: a command word is legal exactly when RSVD = 0 and OPCODE is one of the twelve values; every other
word is illegal. -/
def Obligations.CommandWordLegal : Prop :=
  ∀ w : Word,
    ((∃ i, decode (.cmd w) = .instr i) ↔
      w.extractLsb' 8 24 = 0#24 ∧
        w.extractLsb' 0 8 ∈ [0x01#8, 0x02#8, 0x03#8, 0x04#8, 0x10#8, 0x11#8, 0x12#8, 0x13#8, 0x20#8, 0x21#8, 0x22#8,
          0x23#8]) ∧
      ((∀ i, decode (.cmd w) ≠ .instr i) → decode (.cmd w) = .reject .illegalCommand)

/-- Rules R46, R52, R53: the words of all twelve commands, the codes of all four MAC-port operations with any payload, and
words of the ladder microprogram, written out. -/
def Obligations.WordsOfTheTables : Prop :=
  decode (.cmd 0x00000001#32) = .instr .ckload ∧ decode (.cmd 0x00000002#32) = .instr .ccblock ∧
    decode (.cmd 0x00000003#32) = .instr .ccxor ∧ decode (.cmd 0x00000004#32) = .instr .hchacha ∧
    decode (.cmd 0x00000010#32) = .instr .aeadenc ∧ decode (.cmd 0x00000011#32) = .instr .aeaddec ∧
    decode (.cmd 0x00000012#32) = .instr .xaeadenc ∧ decode (.cmd 0x00000013#32) = .instr .xaeaddec ∧
    decode (.cmd 0x00000020#32) = .instr .skload ∧ decode (.cmd 0x00000021#32) = .instr .skpub ∧
    decode (.cmd 0x00000022#32) = .instr .skexch ∧ decode (.cmd 0x00000023#32) = .instr .skdrop ∧
    (∀ key : Bytes 32, decode (.mop 0#2 key.toList) = .instr (.minit key)) ∧
    (∀ u : Bytes 16, decode (.mop 1#2 u.toList) = .instr (.mupd u)) ∧
    decode (.mop 2#2 []) = .instr .mtag ∧
    (∀ tag : Bytes 16, decode (.mop 3#2 tag.toList) = .instr (.mvfy tag)) ∧
    decode (.fop 0x1503#16) = .instr (.fdec 5 .a24) ∧ decode (.fop 0x2010#16) = .instr (.fenc 1) ∧
    decode (.fop 0x3612#16) = .instr (.fadd 6 1 2) ∧ decode (.fop 0x4A79#16) = .instr (.fsub 10 7 9) ∧
    decode (.fop 0x5CC6#16) = .instr (.fmul 12 12 6) ∧ decode (.fop 0x6760#16) = .instr (.fsqr 7 6) ∧
    decode (.fop 0x7220#16) = .instr (.finv 2 2) ∧ decode (.fop 0x8024#16) = .instr (.fcswap 2 4)

/-- Rule R55: FOPC 0x0 and 0x9 to 0xF, FDEC sources 4 to 15 and register numbers 13 to 15 are no instruction. That 13 to 15
in a field the operation does not use is refused too is the model's (log entry 11, DEDUCED from rule R53), and so is the
last clause: the sequencer's turn with such a word latched, a port word standing alone, refuses (log entry 2). -/
def Obligations.ReservedPortWordsRefused : Prop :=
  ∀ w : BitVec 16,
    (nibble w 3).val = 0 ∨ 9 ≤ (nibble w 3).val ∨ ((nibble w 3).val = 1 ∧ 4 ≤ (nibble w 0).val) ∨
        13 ≤ (nibble w 2).val ∨ 13 ≤ (nibble w 1).val ∨ ((nibble w 3).val ≠ 1 ∧ 13 ≤ (nibble w 0).val) →
      (∃ r, decode (.fop w) = .reject r) ∧
        ∀ s : State, s.latch = some (.fop w) → ∃ r, runEvent .sequencer s = .refused (.reservedPortEncoding r)

/-- Rules R53, R54, R121 to R125: each field-port operation has exactly the word its fields give, the unused ones 0; FDEC
has the number of its byte source, U 0, ONE 1, ZERO 2, A24 3, in the last. -/
def Obligations.FieldPortWords : Prop :=
  ∀ d a b : FReg,
    encode (.fdec d .u) = .fop (0x1000#16 + 0x100#16 * BitVec.ofNat 16 d.val + 0#16) ∧
    encode (.fdec d .one) = .fop (0x1000#16 + 0x100#16 * BitVec.ofNat 16 d.val + 1#16) ∧
    encode (.fdec d .zero) = .fop (0x1000#16 + 0x100#16 * BitVec.ofNat 16 d.val + 2#16) ∧
    encode (.fdec d .a24) = .fop (0x1000#16 + 0x100#16 * BitVec.ofNat 16 d.val + 3#16) ∧
    encode (.fenc a) = .fop (0x2000#16 + 0x10#16 * BitVec.ofNat 16 a.val) ∧
    encode (.fadd d a b) = .fop (0x3000#16 + 0x100#16 * BitVec.ofNat 16 d.val + 0x10#16 * BitVec.ofNat 16 a.val +
      BitVec.ofNat 16 b.val) ∧
    encode (.fsub d a b) = .fop (0x4000#16 + 0x100#16 * BitVec.ofNat 16 d.val + 0x10#16 * BitVec.ofNat 16 a.val +
      BitVec.ofNat 16 b.val) ∧
    encode (.fmul d a b) = .fop (0x5000#16 + 0x100#16 * BitVec.ofNat 16 d.val + 0x10#16 * BitVec.ofNat 16 a.val +
      BitVec.ofNat 16 b.val) ∧
    encode (.fsqr d a) = .fop (0x6000#16 + 0x100#16 * BitVec.ofNat 16 d.val + 0x10#16 * BitVec.ofNat 16 a.val) ∧
    encode (.finv d a) = .fop (0x7000#16 + 0x100#16 * BitVec.ofNat 16 d.val + 0x10#16 * BitVec.ofNat 16 a.val) ∧
    encode (.fcswap a b) = .fop (0x8000#16 + 0x10#16 * BitVec.ofNat 16 a.val + BitVec.ofNat 16 b.val)

/-! ## The step, reset and the invariant -/

/-- Rules R2, R3, R37, R40, R166, R170: when it is the sequencer's turn, a step is the meaning of the instruction the
latched word decodes to, and with nothing latched the block is idle and holds its state; when a host access comes first,
a step is that access; each on the state without the event taken. Where the events stand, and a port word that is latched,
are the model's (log entry 2). -/
def Obligations.StepRunsDecoded : Prop :=
  (∀ (s : State) (w : Encoded) (i : Instr), s.latch = some w → decode w = .instr i →
    (s.events = [] → step s = exec i s) ∧
      ∀ es, s.events = .sequencer :: es → step s = exec i { s with events := es }) ∧
  (∀ s : State, s.latch = none →
    (s.events = [] → step s = .next s) ∧
      ∀ es, s.events = .sequencer :: es → step s = .next { s with events := es }) ∧
  ∀ (s : State) (a : Access) (es : List Event), s.events = .host a :: es →
    step s = hostAccess a { s with events := es }

/-- Rules R24, R170, R171: on `rst` every piece of state of rule R10 is at its reset value, whatever it was and whether
or not a command was running. That the parameters and the events to come are kept is the model's (log entries 1, 2). -/
def Obligations.ResetState : Prop :=
  ∀ (s : State) (es : List Event), s.events = .rst :: es →
    ∃ t, step s = .next t ∧ t.cfg = s.cfg ∧ t.events = es ∧
      t.latch = none ∧ t.status = 0#32 ∧ t.ckValid = false ∧ t.skValid = false ∧ t.ctr = 0#32 ∧ t.keylen = 0#32 ∧
      t.aadLen = 0#64 ∧ t.inLen = 0#64 ∧ t.outLen = 0#64 ∧ t.keyin = zeros 32 ∧ t.nonce = zeros 24 ∧
      t.point = zeros 32 ∧ t.result = zeros 32 ∧ t.ks = zeros 64 ∧ t.ck = zeros 32 ∧ t.sk = zeros 32 ∧
      (∀ b addr, (t.buffer b).read addr = 0#8) ∧ t.scratch = Scratch.zero

/-- The reset state meets the invariant, and so does the reset state of every other instance of the parameters. -/
def Obligations.ResetHasInv : Prop := State.reset.Inv ∧ ∀ c : Config, { State.reset with cfg := c }.Inv

/-- Every step keeps the invariant: the buffers' form and size, OUT_LEN's range, released scratch state, only legal
command words latched, the flags' relations, empty slots holding zeros. -/
def Obligations.StepKeepsInv : Prop :=
  ∀ s t : State, s.Inv → step s = .next t → t.Inv

/-- No step stops a machine that meets the invariant but for a host access, outside a command, to a byte address its
buffer does not have: no command ends in a fault or a refusal (70_reset_and_hazards.md section 4: "no command has an
unpredictable result"). That such an access is a fault is the model's (log entry 7, DEDUCED from rules R30 and R36). -/
def Obligations.StopsOnlyOutsideBuffers : Prop :=
  ∀ s : State, s.Inv →
    (∃ t, step s = .next t) ∨
      ∃ b addr, s.busy = false ∧ bufferSize s.cfg b ≤ addr ∧
        ((nextEvent s).1 = .host (.bufRead b addr) ∨ ∃ v, (nextEvent s).1 = .host (.bufWrite b addr v)) ∧
        step s = .fault (.outsideSpace b addr)

/-! ## The host interface (20_memory.md, 30_encoding.md) -/

/-- Rule R39: while BUSY = 1 a read of STATUS returns it (BUSY = 1, DONE = 0, ERR = 0, ERRCODE = 0 and the valid bits,
in a state that meets the invariant), every other read returns 0, and every write is ignored. -/
def Obligations.BusyLock : Prop :=
  ∀ s : State, s.busy = true →
    (s.Inv → s.status = BitVec.ofNat 32 (0x01 + 0x08 * s.ckValid.toNat + 0x10 * s.skValid.toNat)) ∧
    (∀ k : Fin 64, hostAccess (.regRead k) s =
      .next { s with rdata := if k = wordIndex .status then s.status else 0#32 }) ∧
    (∀ (k : Fin 64) (v : Word), hostAccess (.regWrite k v) s = .next s) ∧
    (∀ b addr, hostAccess (.bufRead b addr) s = .next { s with rdata := 0#32 }) ∧
    (∀ b addr v, hostAccess (.bufWrite b addr v) s = .next s)

/-- Rules R41, R49: outside a command a read of each offset gives the content the register map lists, and changes
nothing but what the host has read. -/
def Obligations.RegisterMapReads : Prop :=
  ∀ s : State, s.busy = false →
    let reads (k : Fin 64) (v : Word) : Prop := hostAccess (.regRead k) s = .next { s with rdata := v }
    reads 0x00 0#32 ∧ reads 0x01 s.status ∧ reads 0x02 s.ctr ∧ reads 0x03 s.keylen ∧
      reads 0x04 (s.aadLen.extractLsb' 0 32) ∧ reads 0x05 (s.aadLen.extractLsb' 32 32) ∧
      reads 0x06 (s.inLen.extractLsb' 0 32) ∧ reads 0x07 (s.inLen.extractLsb' 32 32) ∧
      reads 0x08 (s.outLen.extractLsb' 0 32) ∧ reads 0x09 (s.outLen.extractLsb' 32 32) ∧
      (∀ k : Fin 64, (0x0A ≤ k.val ∧ k.val < 0x10) ∨ k.val = 0x1E ∨ k.val = 0x1F → reads k 0#32) ∧
      (∀ k : Fin 64, 0x10 ≤ k.val ∧ k.val < 0x18 → reads k 0#32) ∧
      (∀ k : Fin 64, 0x18 ≤ k.val ∧ k.val < 0x1E → reads k (le32At s.nonce (4 * (k.val - 0x18)))) ∧
      (∀ k : Fin 64, 0x20 ≤ k.val ∧ k.val < 0x28 → reads k (le32At s.point (4 * (k.val - 0x20)))) ∧
      (∀ k : Fin 64, 0x28 ≤ k.val ∧ k.val < 0x30 → reads k (le32At s.result (4 * (k.val - 0x28)))) ∧
      (∀ k : Fin 64, 0x30 ≤ k.val → reads k (le32At s.ks (4 * (k.val - 0x30))))

/-- Rules R41, R49: outside a command a write stores the value in the register of its offset and nowhere else; writes to
STATUS, OUT_LEN, RESULT, KS and the reserved offsets are ignored. The word k of a byte register is then `le32` of its
bytes 4k to 4k+3, and its other words are as before. -/
def Obligations.RegisterMapWrites : Prop :=
  ∀ (s : State) (v : Word), s.busy = false →
    let writes (k : Fin 64) (t : State) : Prop := hostAccess (.regWrite k v) s = .next t
    writes 0x02 { s with ctr := v } ∧ writes 0x03 { s with keylen := v } ∧
      writes 0x04 { s with aadLen := s.aadLen.extractLsb' 32 32 ++ v } ∧
      writes 0x05 { s with aadLen := v ++ s.aadLen.extractLsb' 0 32 } ∧
      writes 0x06 { s with inLen := s.inLen.extractLsb' 32 32 ++ v } ∧
      writes 0x07 { s with inLen := v ++ s.inLen.extractLsb' 0 32 } ∧
      (∀ k : Fin 64, k.val = 0x01 ∨ (0x08 ≤ k.val ∧ k.val < 0x10) ∨ k.val = 0x1E ∨ k.val = 0x1F ∨ 0x28 ≤ k.val →
        writes k s) ∧
      (∀ k : Fin 64, 0x10 ≤ k.val ∧ k.val < 0x18 → ∃ r, writes k { s with keyin := r } ∧
        ∀ j, j < 8 → le32At r (4 * j) = if j = k.val - 0x10 then v else le32At s.keyin (4 * j)) ∧
      (∀ k : Fin 64, 0x18 ≤ k.val ∧ k.val < 0x1E → ∃ r, writes k { s with nonce := r } ∧
        ∀ j, j < 6 → le32At r (4 * j) = if j = k.val - 0x18 then v else le32At s.nonce (4 * j)) ∧
      (∀ k : Fin 64, 0x20 ≤ k.val ∧ k.val < 0x28 → ∃ r, writes k { s with point := r } ∧
        ∀ j, j < 8 → le32At r (4 * j) = if j = k.val - 0x20 then v else le32At s.point (4 * j))

/-- Rules R30, R36, R41: outside a command the host reads and writes AAD and IN byte by byte; OUT is read-only. A byte
written is read back and no other byte of the buffer changes. -/
def Obligations.BufferAccess : Prop :=
  ∀ (s : State) (addr : Nat) (v : Byte), s.busy = false →
    (∀ b, addr < bufferSize s.cfg b →
      hostAccess (.bufRead b addr) s = .next { s with rdata := ((s.buffer b).read addr).setWidth 32 }) ∧
    (addr < s.cfg.aadMax.val → s.aad.wf = true → ∃ m, hostAccess (.bufWrite .aad addr v) s = .next { s with aad := m } ∧
      m.wf = true ∧ ∀ a, m.read a = if a = addr then v else s.aad.read a) ∧
    (addr < s.cfg.dataMax.val + 16 → s.inp.wf = true →
      ∃ m, hostAccess (.bufWrite .inp addr v) s = .next { s with inp := m } ∧
        m.wf = true ∧ ∀ a, m.read a = if a = addr then v else s.inp.read a) ∧
    (addr < s.cfg.dataMax.val + 16 → hostAccess (.bufWrite .out addr v) s = .next s)

/-- Rules R45, R51, R154, R160: a CMD write clears DONE, ERR and ERRCODE; a legal word is latched, so that BUSY is 1; an
illegal word ends at once with IllegalCommand. Nothing else changes (scratch state is released at a command's end). -/
def Obligations.CmdWrite : Prop :=
  ∀ (s : State) (w : Word), s.busy = false →
    (∀ i, decode (.cmd w) = .instr i →
      hostAccess (.regWrite (wordIndex .cmd) w) s =
        .next { s with latch := some (.cmd w), done := false, error := none }) ∧
    ((∀ i, decode (.cmd w) ≠ .instr i) →
      hostAccess (.regWrite (wordIndex .cmd) w) s =
        .next { s with latch := none, done := true, error := some .illegalCommand, scratch := Scratch.zero })

/-- Rule R50: the fields of STATUS, the error codes, and the words: 0x02 + 0x08*CK_VALID + 0x10*SK_VALID after a
successful command, 0x06 + 0x08*CK_VALID + 0x10*SK_VALID + 0x100*ERRCODE after a failed one. -/
def Obligations.StatusWord : Prop :=
  (∀ s : State,
    s.status.getLsbD 0 = s.busy ∧ s.status.getLsbD 1 = s.done ∧ s.status.getLsbD 2 = s.error.isSome ∧
      s.status.getLsbD 3 = s.ckValid ∧ s.status.getLsbD 4 = s.skValid ∧ s.status.extractLsb' 5 3 = 0#3 ∧
      s.status.extractLsb' 8 4 = BitVec.ofNat 4 (match s.error with | none => 0 | some e => e.code) ∧
      s.status.extractLsb' 12 20 = 0#20) ∧
  (∀ s : State, s.busy = false → s.done = true →
    s.status = BitVec.ofNat 32 (match s.error with
      | none => 0x02 + 0x08 * s.ckValid.toNat + 0x10 * s.skValid.toNat
      | some e => 0x06 + 0x08 * s.ckValid.toNat + 0x10 * s.skValid.toNat + 0x100 * e.code)) ∧
    CmdError.invalidKeyLength.code = 1 ∧ CmdError.ciphertextTooShort.code = 2 ∧
    CmdError.authenticationFailure.code = 3 ∧ CmdError.illegalCommand.code = 4 ∧ CmdError.noKey.code = 5 ∧
    CmdError.lengthOutOfRange.code = 6 ∧ CmdError.counterOverflow.code = 7

/-- Rules R16, R17, R163: nothing the host or `rst` does moves a key, a staged key or scratch state to where the host
can see it: two states that differ in KEYIN, CK, SK and scratch state alone give the same answers and stay that way. -/
def Obligations.HostSeesNoSecret : Prop :=
  ∀ (s s' : State) (e : Event), e ≠ .sequencer → s.publicPart = s'.publicPart →
    publicOutcome (runEvent e s) = publicOutcome (runEvent e s')

/-! ## Memory (20_memory.md) -/

/-- Rule R36: MemWrite of a byte string keeps the canonical form; MemRead of those bytes gives it back, and every other
address reads as before. -/
def Obligations.MemWriteThenRead : Prop :=
  ∀ (m : Memory) (addr : Nat) (v : List Byte), m.wf = true →
    (m.writeBytes addr v).wf = true ∧ (m.writeBytes addr v).readBytes addr v.length = v ∧
      ∀ a, a < addr ∨ addr + v.length ≤ a → (m.writeBytes addr v).read a = m.read a

/-! ## Key loading and dropping -/

/-- Rule R68: CKLOAD, word 0x00000001, with KEYLEN = 32 moves KEYIN to CK, sets CK_VALID and zeroes KEYIN; with any
other KEYLEN it zeroes KEYIN and ends with InvalidKeyLength, CK and CK_VALID as they were. -/
def Obligations.CkloadResult : Prop :=
  encode .ckload = .cmd 0x00000001#32 ∧
  ∀ s : State,
    (s.keylen = 32#32 → exec .ckload s = .next { s with
      ck := s.keyin, ckValid := true, keyin := zeros 32,
      latch := none, done := true, error := none, scratch := Scratch.zero }) ∧
    (s.keylen ≠ 32#32 → exec .ckload s = .next { s with
      keyin := zeros 32, latch := none, done := true, error := some .invalidKeyLength, scratch := Scratch.zero })

/-- Rule R134: SKLOAD, word 0x00000020, with KEYLEN = 32 moves KEYIN, unclamped, to SK, sets SK_VALID and zeroes KEYIN;
with any other KEYLEN it zeroes KEYIN and ends with InvalidKeyLength, SK and SK_VALID as they were. -/
def Obligations.SkloadResult : Prop :=
  encode .skload = .cmd 0x00000020#32 ∧
  ∀ s : State,
    (s.keylen = 32#32 → exec .skload s = .next { s with
      sk := s.keyin, skValid := true, keyin := zeros 32,
      latch := none, done := true, error := none, scratch := Scratch.zero }) ∧
    (s.keylen ≠ 32#32 → exec .skload s = .next { s with
      keyin := zeros 32, latch := none, done := true, error := some .invalidKeyLength, scratch := Scratch.zero })

/-- Rule R151: CKLOAD and SKLOAD end with InvalidKeyLength whenever KEYLEN is not 32; KEYIN is zeroed, the slots and
valid bits are unchanged. -/
def Obligations.LoadRefusesOtherLengths : Prop :=
  ∀ s : State, s.keylen ≠ 32#32 →
    exec .ckload s = .next { s with
      keyin := zeros 32, latch := none, done := true, error := some .invalidKeyLength, scratch := Scratch.zero } ∧
    exec .skload s = .next { s with
      keyin := zeros 32, latch := none, done := true, error := some .invalidKeyLength, scratch := Scratch.zero }

/-- Rule R137: SKDROP, word 0x00000023, zeroes SK and clears SK_VALID, and changes nothing else but STATUS. -/
def Obligations.SkdropResult : Prop :=
  encode .skdrop = .cmd 0x00000023#32 ∧
  ∀ s : State,
    exec .skdrop s = .next { s with
      sk := zeros 32, skValid := false, latch := none, done := true, error := none, scratch := Scratch.zero }

/-! ## Checks and errors (60_exceptions.md) -/

/-- Rule R155: the nine commands that use a slot end with NoKey when it is not valid, before any other check, and change
nothing but STATUS and, for the five data commands, OUT_LEN. -/
def Obligations.NoKeyFirst : Prop :=
  ∀ (i : Instr) (s : State), (usesCk i = true ∧ s.ckValid = false) ∨ (usesSk i = true ∧ s.skValid = false) →
    exec i s = .next { s with
      outLen := if isData i then 0#64 else s.outLen,
      latch := none, done := true, error := some .noKey, scratch := Scratch.zero }

/-- Rules R35, R156, R158: with a key loaded, a data command whose length registers exceed its buffers ends with
LengthOutOfRange, before the checks that follow. -/
def Obligations.LengthCheckSecond : Prop :=
  ∀ (i : Instr) (s : State), s.ckValid = true →
    (i = .ccxor ∧ s.cfg.dataMax.val < s.inLen.toNat) ∨
    ((i = .aeadenc ∨ i = .xaeadenc) ∧ (s.cfg.dataMax.val < s.inLen.toNat ∨ s.cfg.aadMax.val < s.aadLen.toNat)) ∨
    ((i = .aeaddec ∨ i = .xaeaddec) ∧ (s.cfg.dataMax.val + 16 < s.inLen.toNat ∨ s.cfg.aadMax.val < s.aadLen.toNat)) →
    exec i s = .next { s with
      outLen := 0#64, latch := none, done := true, error := some .lengthOutOfRange, scratch := Scratch.zero }

/-- Rules R152, R158: with a key loaded and the lengths in range, a decrypt command with IN_LEN below MIN_DEC_LEN ends
with CiphertextTooShort, whatever CTR and the buffers hold. -/
def Obligations.TooShortThird : Prop :=
  ∀ (i : Instr) (s : State), (i = .aeaddec ∨ i = .xaeaddec) → s.ckValid = true →
    s.inLen.toNat ≤ s.cfg.dataMax.val + 16 → s.aadLen.toNat ≤ s.cfg.aadMax.val →
    s.inLen.toNat < (match s.cfg.minDecLen with | .sixteen => 16 | .seventeen => 17) →
    exec i s = .next { s with
      outLen := 0#64, latch := none, done := true, error := some .ciphertextTooShort, scratch := Scratch.zero }

/-- Rules R67, R157, R158: with the earlier checks passed, a message of n > 0 bytes whose last block counter would
exceed 2^32 - 1 ends with CounterOverflow; with CTR_OVERFLOW = wrap no command does. -/
def Obligations.CounterCheckFourth : Prop :=
  (∀ (i : Instr) (s t : State), isCommand i = true → s.cfg.ctrOverflow = .wrap → exec i s = .next t →
    t.error ≠ some .counterOverflow) ∧
  ∀ (i : Instr) (s : State) (n : Nat), s.ckValid = true → s.cfg.ctrOverflow = .fault →
    (i = .ccxor ∧ s.inLen.toNat ≤ s.cfg.dataMax.val ∧ n = s.inLen.toNat) ∨
    ((i = .aeadenc ∨ i = .xaeadenc) ∧ s.inLen.toNat ≤ s.cfg.dataMax.val ∧ s.aadLen.toNat ≤ s.cfg.aadMax.val ∧
      n = s.inLen.toNat) ∨
    ((i = .aeaddec ∨ i = .xaeaddec) ∧ s.inLen.toNat ≤ s.cfg.dataMax.val + 16 ∧ s.aadLen.toNat ≤ s.cfg.aadMax.val ∧
      17 ≤ s.inLen.toNat ∧ n = s.inLen.toNat - 16) →
    0 < n → 2 ^ 32 - 1 < s.ctr.toNat + (n + 63) / 64 - 1 →
    exec i s = .next { s with
      outLen := 0#64, latch := none, done := true, error := some .counterOverflow, scratch := Scratch.zero }

/-- Rule R159: a command that ends with an error ends with ERR, its code and DONE set, BUSY 0 and scratch zero; OUT_LEN
is 0 when it is a data command, KEYIN is zeroed when it is a load, and nothing else has changed. -/
def Obligations.FailureEntry : Prop :=
  ∀ (i : Instr) (s t : State) (e : CmdError), isCommand i = true → exec i s = .next t → t.error = some e →
    t = { s with
      outLen := if isData i then 0#64 else s.outLen, keyin := if isLoad i then zeros 32 else s.keyin,
      latch := none, done := true, error := some e, scratch := Scratch.zero }

/-- Rules R23, R43: no instruction writes CTR, KEYLEN, AAD_LEN, IN_LEN, NONCE, POINT, AAD or IN; OUT_LEN and OUT are
written by the five data commands only, KEYIN by the loads, CK by CKLOAD, SK by SKLOAD and SKDROP, KS by CCBLOCK, RESULT
by HCHACHA, SKPUB, SKEXCH and FENC. That no instruction changes the parameters, the events to come or the host's last
answer is the model's (log entries 1 to 3). -/
def Obligations.WritersOfState : Prop :=
  ∀ (i : Instr) (s t : State), exec i s = .next t →
    t.cfg = s.cfg ∧ t.events = s.events ∧ t.rdata = s.rdata ∧
    t.ctr = s.ctr ∧ t.keylen = s.keylen ∧ t.aadLen = s.aadLen ∧ t.inLen = s.inLen ∧ t.nonce = s.nonce ∧
    t.point = s.point ∧ t.aad = s.aad ∧ t.inp = s.inp ∧
    (isData i = false → t.outLen = s.outLen ∧ t.out = s.out) ∧
    (isLoad i = false → t.keyin = s.keyin) ∧
    (i ≠ .ckload → t.ck = s.ck ∧ t.ckValid = s.ckValid) ∧
    (i ≠ .skload → i ≠ .skdrop → t.sk = s.sk ∧ t.skValid = s.skValid) ∧
    (i ≠ .ccblock → t.ks = s.ks) ∧
    (i ≠ .hchacha → i ≠ .skpub → i ≠ .skexch → (∀ a, i ≠ .fenc a) → t.result = s.result)

/-- Rules R13, R22, R159: every command ends, with or without error, and at its end BUSY is 0, DONE is 1 and every
scratch register is zero. -/
def Obligations.EveryCommandEnds : Prop :=
  ∀ (i : Instr) (s : State), isCommand i = true →
    ∃ t, exec i s = .next t ∧ t.busy = false ∧ t.done = true ∧ t.scratch = Scratch.zero

/-! ## The ChaCha20 engine (40_chacha20.md, 41_hchacha20.md) -/

/-- Rule R62: the quarter round on four distinct words reads and writes those four only, in the order of the rule. -/
def Obligations.QuarterRound : Prop :=
  ∀ (a b c d : Fin 16) (x : Words), a ≠ b → a ≠ c → a ≠ d → b ≠ c → b ≠ d → c ≠ d →
    let a1 := x[a] + x[b]
    let d1 := (x[d] ^^^ a1).rotateLeft 16
    let c1 := x[c] + d1
    let b1 := (x[b] ^^^ c1).rotateLeft 12
    let a2 := a1 + b1
    let d2 := (d1 ^^^ a2).rotateLeft 8
    let c2 := c1 + d2
    let b2 := (b1 ^^^ c2).rotateLeft 7
    (quarterRound a b c d x)[a] = a2 ∧ (quarterRound a b c d x)[b] = b2 ∧ (quarterRound a b c d x)[c] = c2 ∧
      (quarterRound a b c d x)[d] = d2 ∧
      ∀ k : Fin 16, k ≠ a → k ≠ b → k ≠ c → k ≠ d → (quarterRound a b c d x)[k] = x[k]

/-- Rules R62, R72: quarter rounds on disjoint words commute, so the four columns, and the four diagonals, may be
computed in any order. -/
def Obligations.QuarterRoundsCommute : Prop :=
  ∀ (a b c d a' b' c' d' : Fin 16) (x : Words),
    [a, b, c, d, a', b', c', d'].Nodup →
      quarterRound a b c d (quarterRound a' b' c' d' x) = quarterRound a' b' c' d' (quarterRound a b c d x)

/-- Rules R61, R63 to R65: a double round is the eight quarter rounds of rule R63, columns then diagonals, in that order;
the permutation is exactly ten double rounds; word k of the keystream block is the permuted word plus the input word,
serialized little-endian; and the input state is the constants, the key, the counter and the nonce. -/
def Obligations.BlockWords : Prop :=
  (∀ x : Words, doubleRound x =
    [((0 : Fin 16), (4 : Fin 16), (8 : Fin 16), (12 : Fin 16)), (1, 5, 9, 13), (2, 6, 10, 14), (3, 7, 11, 15),
      (0, 5, 10, 15), (1, 6, 11, 12), (2, 7, 8, 13), (3, 4, 9, 14)].foldl
        (fun x q => quarterRound q.1 q.2.1 q.2.2.1 q.2.2.2 x) x) ∧
  (∀ s : Words, permute s = doubleRound^[10] s) ∧
  ∀ (key : Bytes 32) (counter : Word) (nonce : Bytes 12) (k : Fin 16),
    le32At (block key counter nonce) (4 * k.val) =
        (permute (initWords key counter nonce))[k] + (initWords key counter nonce)[k] ∧
      (initWords key counter nonce)[k] =
        if k.val < 4 then [0x61707865#32, 0x3320646e#32, 0x79622d32#32, 0x6b206574#32][k.val]!
        else if k.val < 12 then le32At key (4 * (k.val - 4))
        else if k.val = 12 then counter
        else le32At nonce (4 * (k.val - 13))

/-- Rules R32, R66: the stream has the data's length, and its byte j is the data byte xor byte j mod 64 of the block at
counter base + j/64. -/
def Obligations.StreamBytes : Prop :=
  ∀ (key : Bytes 32) (base : Word) (nonce : Bytes 12) (data : List Byte),
    (xorStream key base nonce data).length = data.length ∧
      ∀ j, j < data.length →
        (xorStream key base nonce data)[j]? =
          some (data[j]! ^^^ byteAt (block key (base + BitVec.ofNat 32 (j / 64)) nonce) (j % 64))

/-- Rule R69: CCBLOCK, word 0x00000002, with a key leaves BLOCK(CK, CTR, NONCE[0..12]) in KS, for every CTR, and changes
nothing else but STATUS; without a key it ends with NoKey. -/
def Obligations.CcblockResult : Prop :=
  encode .ccblock = .cmd 0x00000002#32 ∧
  ∀ s : State,
    (s.ckValid = true → exec .ccblock s = .next { s with
      ks := block s.ck s.ctr (slice s.nonce 0 12),
      latch := none, done := true, error := none, scratch := Scratch.zero }) ∧
    (s.ckValid = false → exec .ccblock s = .next { s with
      latch := none, done := true, error := some .noKey, scratch := Scratch.zero })

/-- Rules R21, R70: CCXOR with its checks passed sets OUT_LEN to IN_LEN and byte a of OUT, for a below IN_LEN, to byte a
of IN xor the keystream; the bytes from IN_LEN on and everything else but STATUS are as before. -/
def Obligations.CcxorResult : Prop :=
  ∀ s : State, s.ckValid = true → s.inLen.toNat ≤ s.cfg.dataMax.val →
    (s.cfg.ctrOverflow = .wrap ∨ s.inLen.toNat = 0 ∨ s.ctr.toNat + (s.inLen.toNat + 63) / 64 - 1 ≤ 2 ^ 32 - 1) →
    s.out.wf = true →
    ∃ m, exec .ccxor s = .next { s with
        out := m, outLen := s.inLen, latch := none, done := true, error := none, scratch := Scratch.zero } ∧
      m.wf = true ∧
      ∀ a, m.read a =
        if a < s.inLen.toNat then
          s.inp.read a ^^^ byteAt (block s.ck (s.ctr + BitVec.ofNat 32 (a / 64)) (slice s.nonce 0 12)) (a % 64)
        else s.out.read a

/-- Rule R71: CCXOR on what CCXOR left in OUT, copied to IN, with the same CK, NONCE and CTR, leaves the first input in
OUT. -/
def Obligations.CcxorTwice : Prop :=
  ∀ s t u : State, s.ckValid = true → s.inLen.toNat ≤ s.cfg.dataMax.val →
    (s.cfg.ctrOverflow = .wrap ∨ s.inLen.toNat = 0 ∨ s.ctr.toNat + (s.inLen.toNat + 63) / 64 - 1 ≤ 2 ^ 32 - 1) →
    s.out.wf = true →
    exec .ccxor s = .next t → exec .ccxor { t with inp := t.out } = .next u →
    u.error = none ∧ u.outLen = s.inLen ∧ ∀ a, a < s.inLen.toNat → u.out.read a = s.inp.read a

/-- Rules R80, R81: the subkey is the words 0 to 3 and 12 to 15 of the permuted state, with no addition of the input
state, and the input state of the subkey is that of the block whose counter is the first nonce word. -/
def Obligations.SubkeyWords : Prop :=
  ∀ (key : Bytes 32) (nonce : Bytes 16) (k : Fin 8),
    le32At (hchacha20 key nonce) (4 * k.val) =
        (permute (initWords key (le32At nonce 0) (slice nonce 4 12)))[if k.val < 4 then k.val else k.val + 8]!

/-- Rule R82: HCHACHA, word 0x00000004, with a key leaves HCHACHA20(CK, NONCE[0..16]) in RESULT, and changes nothing else
but STATUS; without a key it ends with NoKey. -/
def Obligations.HchachaResult : Prop :=
  encode .hchacha = .cmd 0x00000004#32 ∧
  ∀ s : State,
    (s.ckValid = true → exec .hchacha s = .next { s with
      result := hchacha20 s.ck (slice s.nonce 0 16),
      latch := none, done := true, error := none, scratch := Scratch.zero }) ∧
    (s.ckValid = false → exec .hchacha s = .next { s with
      latch := none, done := true, error := some .noKey, scratch := Scratch.zero })

/-! ## The composers (42_aead.md, 43_xaead.md) -/

/-- Rule R91: the four MAC-port operations, each of which runs in every state, and all that each changes. A port word's
end latches nothing (log entry 2); where the answers stand is the model's (log entry 4). -/
def Obligations.MacPortOperations : Prop :=
  ∀ (s : State) (key : Bytes 32) (u tag : Bytes 16),
    exec (.minit key) s = .next { s with
      latch := none, scratch := { s.scratch with macKey := key, macMsg := [] } } ∧
    exec (.mupd u) s = .next { s with
      latch := none, scratch := { s.scratch with macMsg := s.scratch.macMsg ++ u.toList } } ∧
    exec .mtag s = .next { s with
      latch := none, scratch := { s.scratch with tagx := macf s.cfg s.scratch.macKey s.scratch.macMsg } } ∧
    exec (.mvfy tag) s = .next { s with
      latch := none,
      scratch := { s.scratch with macOk := decide (macf s.cfg s.scratch.macKey s.scratch.macMsg = tag) } }

/-- Rules R93 to R95: after MACFEED the engine's key is the one-time key and its message is aad, its zero pad to a
multiple of 16, the ciphertext, its pad, and the two 8-byte lengths, in ceil(A/16) + ceil(C/16) + 1 MUPDs. -/
def Obligations.MacFeed : Prop :=
  ∀ (s : State) (otk : Bytes 32) (aad ct : List Byte),
    (macFeed otk aad ct).length = 1 + ((aad.length + 15) / 16 + (ct.length + 15) / 16 + 1) ∧
      (∃ padA padC : List Byte,
        issueAll (macFeed otk aad ct) s = { s with scratch := { s.scratch with
          macKey := otk, macMsg := aad ++ padA ++ ct ++ padC ++ le64 aad.length ++ le64 ct.length } } ∧
        (∀ b ∈ padA ++ padC, b = 0#8) ∧ padA.length < 16 ∧ padC.length < 16 ∧
        (aad.length + padA.length) % 16 = 0 ∧ (ct.length + padC.length) % 16 = 0)

/-- Rule R104: the MAC input is injective in (aad, ct): the length unit fixes both lengths, hence the split. -/
def Obligations.FramingInjective : Prop :=
  ∀ aad ct aad' ct' : List Byte, aad.length < 2 ^ 64 → ct.length < 2 ^ 64 → aad'.length < 2 ^ 64 →
    ct'.length < 2 ^ 64 → macStream aad ct = macStream aad' ct' → aad = aad' ∧ ct = ct'

/-- Rules R92, R96, R98: AEADENC with its checks passed leaves the ciphertext of IN under CK, NONCE[0..12] and CTR, then
the 16-byte tag under the first half of the block at counter 0, in OUT[0..IN_LEN+16], and sets OUT_LEN to IN_LEN + 16;
nothing else changes but STATUS. -/
def Obligations.AeadencResult : Prop :=
  ∀ s : State, s.ckValid = true → s.inLen.toNat ≤ s.cfg.dataMax.val → s.aadLen.toNat ≤ s.cfg.aadMax.val →
    (s.cfg.ctrOverflow = .wrap ∨ s.inLen.toNat = 0 ∨ s.ctr.toNat + (s.inLen.toNat + 63) / 64 - 1 ≤ 2 ^ 32 - 1) →
    s.out.wf = true →
    let nonce := slice s.nonce 0 12
    let ct := xorStream s.ck s.ctr nonce (s.inp.readBytes 0 s.inLen.toNat)
    let tag := macf s.cfg (slice (block s.ck 0#32 nonce) 0 32) (macStream (s.aad.readBytes 0 s.aadLen.toNat) ct)
    ∃ m, exec .aeadenc s = .next { s with
        out := m, outLen := s.inLen + 16#64,
        latch := none, done := true, error := none, scratch := Scratch.zero } ∧
      (s.inLen + 16#64).toNat = s.inLen.toNat + 16 ∧ m.wf = true ∧
      m.readBytes 0 (s.inLen.toNat + 16) = ct ++ tag.toList ∧
      ∀ a, s.inLen.toNat + 16 ≤ a → m.read a = s.out.read a

/-- Rules R110, R111: XAEADENC with its checks passed is AEADENC with the subkey HCHACHA20(CK, NONCE[0..16]) and the
nonce 00 00 00 00 then NONCE[16..24]. -/
def Obligations.XaeadencResult : Prop :=
  ∀ s : State, s.ckValid = true → s.inLen.toNat ≤ s.cfg.dataMax.val → s.aadLen.toNat ≤ s.cfg.aadMax.val →
    (s.cfg.ctrOverflow = .wrap ∨ s.inLen.toNat = 0 ∨ s.ctr.toNat + (s.inLen.toNat + 63) / 64 - 1 ≤ 2 ^ 32 - 1) →
    s.out.wf = true →
    ∀ nonce : Bytes 12, nonce.toList = [0#8, 0#8, 0#8, 0#8] ++ (slice s.nonce 16 8).toList →
    let subkey := hchacha20 s.ck (slice s.nonce 0 16)
    let ct := xorStream subkey s.ctr nonce (s.inp.readBytes 0 s.inLen.toNat)
    let tag := macf s.cfg (slice (block subkey 0#32 nonce) 0 32) (macStream (s.aad.readBytes 0 s.aadLen.toNat) ct)
    ∃ m, exec .xaeadenc s = .next { s with
        out := m, outLen := s.inLen + 16#64,
        latch := none, done := true, error := none, scratch := Scratch.zero } ∧
      (s.inLen + 16#64).toNat = s.inLen.toNat + 16 ∧ m.wf = true ∧
      m.readBytes 0 (s.inLen.toNat + 16) = ct ++ tag.toList ∧
      ∀ a, s.inLen.toNat + 16 ≤ a → m.read a = s.out.read a

/-- Rules R97, R99, R102: AEADDEC with its checks passed recomputes the tag over AAD and the ciphertext (all but the
last 16 bytes of IN). When it is the last 16 bytes, OUT[0..IN_LEN-16] is the ciphertext xor the keystream and OUT_LEN is
IN_LEN - 16; when it is not, the command ends with AuthenticationFailure, OUT_LEN is 0 and no byte of OUT is written. -/
def Obligations.AeaddecResult : Prop :=
  ∀ s : State, s.ckValid = true → s.inLen.toNat ≤ s.cfg.dataMax.val + 16 → s.aadLen.toNat ≤ s.cfg.aadMax.val →
    (match s.cfg.minDecLen with | .sixteen => 16 | .seventeen => 17) ≤ s.inLen.toNat →
    (s.cfg.ctrOverflow = .wrap ∨ s.inLen.toNat = 16 ∨ s.ctr.toNat + (s.inLen.toNat - 16 + 63) / 64 - 1 ≤ 2 ^ 32 - 1) →
    s.out.wf = true →
    let nonce := slice s.nonce 0 12
    let ct := s.inp.readBytes 0 (s.inLen.toNat - 16)
    let supplied := s.inp.readBytes (s.inLen.toNat - 16) 16
    let tag := macf s.cfg (slice (block s.ck 0#32 nonce) 0 32) (macStream (s.aad.readBytes 0 s.aadLen.toNat) ct)
    (tag.toList = supplied → ∃ m, exec .aeaddec s = .next { s with
        out := m, outLen := s.inLen - 16#64,
        latch := none, done := true, error := none, scratch := Scratch.zero } ∧
      (s.inLen - 16#64).toNat = s.inLen.toNat - 16 ∧ m.wf = true ∧
      m.readBytes 0 (s.inLen.toNat - 16) = xorStream s.ck s.ctr nonce ct ∧
      ∀ a, s.inLen.toNat - 16 ≤ a → m.read a = s.out.read a) ∧
    (tag.toList ≠ supplied → exec .aeaddec s = .next { s with
        outLen := 0#64, latch := none, done := true, error := some .authenticationFailure, scratch := Scratch.zero })

/-- Rules R110, R112: XAEADDEC with its checks passed is AEADDEC with the subkey HCHACHA20(CK, NONCE[0..16]) and the
nonce 00 00 00 00 then NONCE[16..24]. -/
def Obligations.XaeaddecResult : Prop :=
  ∀ s : State, s.ckValid = true → s.inLen.toNat ≤ s.cfg.dataMax.val + 16 → s.aadLen.toNat ≤ s.cfg.aadMax.val →
    (match s.cfg.minDecLen with | .sixteen => 16 | .seventeen => 17) ≤ s.inLen.toNat →
    (s.cfg.ctrOverflow = .wrap ∨ s.inLen.toNat = 16 ∨ s.ctr.toNat + (s.inLen.toNat - 16 + 63) / 64 - 1 ≤ 2 ^ 32 - 1) →
    s.out.wf = true →
    ∀ nonce : Bytes 12, nonce.toList = [0#8, 0#8, 0#8, 0#8] ++ (slice s.nonce 16 8).toList →
    let subkey := hchacha20 s.ck (slice s.nonce 0 16)
    let ct := s.inp.readBytes 0 (s.inLen.toNat - 16)
    let supplied := s.inp.readBytes (s.inLen.toNat - 16) 16
    let tag := macf s.cfg (slice (block subkey 0#32 nonce) 0 32) (macStream (s.aad.readBytes 0 s.aadLen.toNat) ct)
    (tag.toList = supplied → ∃ m, exec .xaeaddec s = .next { s with
        out := m, outLen := s.inLen - 16#64,
        latch := none, done := true, error := none, scratch := Scratch.zero } ∧
      (s.inLen - 16#64).toNat = s.inLen.toNat - 16 ∧ m.wf = true ∧
      m.readBytes 0 (s.inLen.toNat - 16) = xorStream subkey s.ctr nonce ct ∧
      ∀ a, s.inLen.toNat - 16 ≤ a → m.read a = s.out.read a) ∧
    (tag.toList ≠ supplied → exec .xaeaddec s = .next { s with
        outLen := 0#64, latch := none, done := true, error := some .authenticationFailure, scratch := Scratch.zero })

/-- Rules R103, R113: for both composers, the decrypt command on what the encrypt command left in OUT, copied to IN with
its length, with the same CK, NONCE, CTR and associated data, succeeds and returns the plaintext, whenever the encrypt
command succeeded on at least MIN_DEC_LEN - 16 bytes. -/
def Obligations.AeadRoundTrip : Prop :=
  ∀ (enc dec : Instr) (s t : State), (enc = .aeadenc ∧ dec = .aeaddec) ∨ (enc = .xaeadenc ∧ dec = .xaeaddec) →
    s.out.wf = true → exec enc s = .next t → t.error = none →
    (match s.cfg.minDecLen with | .sixteen => 16 | .seventeen => 17) - 16 ≤ s.inLen.toNat →
    ∃ u, exec dec { t with inp := t.out, inLen := t.outLen } = .next u ∧ u.error = none ∧ u.outLen = s.inLen ∧
      ∀ a, a < s.inLen.toNat → u.out.read a = s.inp.read a

/-- Rule R104, the tag-bit case: a decrypt command whose input differs from what would verify in its last 16 bytes alone
ends with AuthenticationFailure, for every MACF. -/
def Obligations.WrongTagFails : Prop :=
  ∀ (dec : Instr) (s t : State) (m : Memory), dec = .aeaddec ∨ dec = .xaeaddec → exec dec s = .next t → t.error = none →
    m.readBytes 0 (s.inLen.toNat - 16) = s.inp.readBytes 0 (s.inLen.toNat - 16) →
    m.readBytes (s.inLen.toNat - 16) 16 ≠ s.inp.readBytes (s.inLen.toNat - 16) 16 →
    exec dec { s with inp := m } = .next { s with
      inp := m, outLen := 0#64, latch := none, done := true, error := some .authenticationFailure,
      scratch := Scratch.zero }

/-! ## The field port (44_x25519.md) -/

/-- Rules R54, R121: FDEC writes the little-endian number of the selected 32 bytes, its top bit masked off, mod p. That U
is POINT or the base point by a select bit outside a scalar multiplication is the model's (log entry 5), and so is a port
word's end, `latch := none` (log entry 2). -/
def Obligations.FdecResult : Prop :=
  ∀ (d : FReg) (src : ByteSource) (s : State), d.val ≤ 12 →
    ∃ v : Fe, exec (.fdec d src) s = .next { s with
        latch := none, scratch := { s.scratch with f := s.scratch.f.set d v } } ∧
      v.val = (match src with
        | .u => leint (if s.scratch.uBase then 9#8 :: List.replicate 31 0#8 else s.point.toList)
        | .one => 1
        | .zero => 0
        | .a24 => 121665) % 2 ^ 255 % (2 ^ 255 - 19)

/-- Rule R122: FENC writes the canonical 32-byte little-endian encoding of F[a] to RESULT, and nothing else. A port word's
end, `latch := none`, is the model's (log entry 2). -/
def Obligations.FencResult : Prop :=
  ∀ (a : FReg) (s : State), a.val ≤ 12 →
    ∃ r : Bytes 32, exec (.fenc a) s = .next { s with latch := none, result := r } ∧
      leint r.toList = s.scratch.f[a].val ∧ leint r.toList < 2 ^ 255 - 19

/-- Rule R123: FADD, FSUB, FMUL and FSQR write the exact residue to F[d], also when d is a source, and nothing else. A
port word's end, `latch := none`, is the model's (log entry 2). -/
def Obligations.FieldArithmetic : Prop :=
  ∀ (d a b : FReg) (s : State), d.val ≤ 12 → a.val ≤ 12 → b.val ≤ 12 →
    let x := s.scratch.f[a].val
    let y := s.scratch.f[b].val
    let writes (i : Instr) (v : Int) : Prop :=
      ∃ e : Fe, exec i s = .next { s with
        latch := none, scratch := { s.scratch with f := s.scratch.f.set d e } } ∧ (e.val : Int) = v % (2 ^ 255 - 19)
    writes (.fadd d a b) (x + y) ∧ writes (.fsub d a b) (x - y) ∧ writes (.fmul d a b) (x * y) ∧
      writes (.fsqr d a) (x ^ 2)

/-- Rule R124: FINV writes the inverse of F[a] to F[d], 0 for 0, and nothing else. A port word's end, `latch := none`, is
the model's (log entry 2). -/
def Obligations.FinvResult : Prop :=
  ∀ (d a : FReg) (s : State), d.val ≤ 12 → a.val ≤ 12 →
    ∃ e : Fe, exec (.finv d a) s = .next { s with
        latch := none, scratch := { s.scratch with f := s.scratch.f.set d e } } ∧
      (s.scratch.f[a].val = 0 → e.val = 0) ∧
      (s.scratch.f[a].val ≠ 0 → e.val * s.scratch.f[a].val % (2 ^ 255 - 19) = 1)

/-- Rule R125: FCSWAP exchanges F[a] and F[b] when SWAP = 1 and changes nothing when SWAP = 0. A port word's end,
`latch := none`, is the model's (log entry 2). -/
def Obligations.FcswapResult : Prop :=
  ∀ (a b : FReg) (s : State), a.val ≤ 12 → b.val ≤ 12 →
    ∃ f : Vector Fe 16, exec (.fcswap a b) s = .next { s with latch := none, scratch := { s.scratch with f := f } } ∧
      f[a] = (if s.scratch.swap then s.scratch.f[b] else s.scratch.f[a]) ∧
      f[b] = (if s.scratch.swap then s.scratch.f[a] else s.scratch.f[b]) ∧
      ∀ k : FReg, k ≠ a → k ≠ b → f[k] = s.scratch.f[k]

/-- Rule R55: a field-port operation that names a register above F12 is refused. -/
def Obligations.RegistersAboveTwelveRefused : Prop :=
  ∀ (i : Instr) (s : State), i.wf = false → exec i s = .refused (.reservedPortEncoding .reservedRegister)

/-! ## X25519 (44_x25519.md) -/

/-- Rules R126, R127: the clamped scalar has bits 0 to 2 and 255 clear, bit 254 set and every other bit as it was. -/
def Obligations.ClampBits : Prop :=
  ∀ (k : Bytes 32) (t : Nat), t < 256 →
    (leint (clamp k).toList).testBit t =
      (if t < 3 ∨ t = 255 then false else if t = 254 then true else (leint k.toList).testBit t) ∧
    (t < 255 → scalarBit (clamp k) t = (leint (clamp k).toList).testBit t) ∧ clamp (clamp k) = clamp k

/-- Rule R130: the twenty port words of a ladder step, issued with SWAP standing, leave in F1 to F4 the four formulas
over the pairs, exchanged first when SWAP = 1, and change nothing outside the field registers, F0 and F5 included. -/
def Obligations.LadderStepFormulas : Prop :=
  ∀ s : State, s.scratch.f[(5 : Fin 16)] = Fe.ofNat 121665 →
    let p : LadderPair :=
      { x2 := s.scratch.f[(1 : Fin 16)], z2 := s.scratch.f[(2 : Fin 16)], x3 := s.scratch.f[(3 : Fin 16)],
        z3 := s.scratch.f[(4 : Fin 16)] }
    let q := (p.cswap s.scratch.swap).advance s.scratch.f[(0 : Fin 16)]
    ∃ f : Vector Fe 16, issueAll ladderStep s = { s with scratch := { s.scratch with f := f } } ∧
      f[(1 : Fin 16)] = q.x2 ∧ f[(2 : Fin 16)] = q.z2 ∧ f[(3 : Fin 16)] = q.x3 ∧ f[(4 : Fin 16)] = q.z3 ∧
      f[(0 : Fin 16)] = s.scratch.f[(0 : Fin 16)] ∧ f[(5 : Fin 16)] = s.scratch.f[(5 : Fin 16)]

/-- Rules R128 to R132, R139: with a private key, SKPUB and SKEXCH end as the run of one schedule from the state that
holds the clamped scalar and the select of U, whatever SK and POINT hold; its port words are 5111, 6 + 255 * 20 + 5, in
the order of the tables, with the totals of rule R139. That the select is a scratch bit is the model's (log entry 5). -/
def Obligations.FixedSchedule : Prop :=
  let words := (portWords ladderSchedule).map encode
  let count (p : Nat → Bool) : Nat := words.countP fun
    | .fop w => p (w.toNat / 4096)
    | .cmd _ => false
    | .mop _ _ => false
  words = [0x1000#16, 0x1101#16, 0x1202#16, 0x1300#16, 0x1401#16, 0x1503#16].map Encoded.fop ++
      (List.replicate 255 ([0x8013#16, 0x8024#16, 0x3612#16, 0x6760#16, 0x4812#16, 0x6980#16, 0x4A79#16, 0x3B34#16,
        0x4C34#16, 0x5CC6#16, 0x5BB8#16, 0x33CB#16, 0x6330#16, 0x44CB#16, 0x6440#16, 0x5404#16, 0x5179#16, 0x525A#16,
        0x3272#16, 0x52A2#16].map Encoded.fop)).flatten ++
      [0x8013#16, 0x8024#16, 0x7220#16, 0x5112#16, 0x2010#16].map Encoded.fop ∧
    words.length = 5111 ∧ count (· == 1) = 6 ∧ count (· == 8) = 512 ∧ count (· == 3) = 1020 ∧
    count (· == 4) = 1020 ∧ count (· == 6) = 1020 ∧ count (· == 5) = 1531 ∧ count (· == 7) = 1 ∧ count (· == 2) = 1 ∧
    ∀ s : State, s.skValid = true →
      let started (base : Bool) : State := { s with scratch := { s.scratch with e := clamp s.sk, uBase := base } }
      exec .skpub s = .next (runSchedule ladderSchedule (started true)).finish ∧
        exec .skexch s = .next (runSchedule ladderSchedule (started false)).finish

/-- Rules R133, R135: SKPUB, word 0x00000021, with a private key leaves the scalar multiplication of SK and the base
point, 9 and 31 zero bytes, in RESULT, and changes nothing else but STATUS (POINT is not read); without one it ends with
NoKey. -/
def Obligations.SkpubResult : Prop :=
  encode .skpub = .cmd 0x00000021#32 ∧
  ∀ (s : State) (base : Bytes 32), base.toList = 9#8 :: List.replicate 31 0#8 →
    (s.skValid = true → exec .skpub s = .next { s with
      result := x25519 s.sk base,
      latch := none, done := true, error := none, scratch := Scratch.zero }) ∧
    (s.skValid = false → exec .skpub s = .next { s with
      latch := none, done := true, error := some .noKey, scratch := Scratch.zero })

/-- Rule R136: SKEXCH, word 0x00000022, with a private key leaves the scalar multiplication of SK and POINT, the ladder of
rules R126 to R131 as a function of the two, in RESULT, for every POINT, and changes nothing else but STATUS; without one
it ends with NoKey. -/
def Obligations.SkexchResult : Prop :=
  encode .skexch = .cmd 0x00000022#32 ∧
  ∀ s : State,
    (s.skValid = true → exec .skexch s = .next { s with
      result := x25519 s.sk s.point,
      latch := none, done := true, error := none, scratch := Scratch.zero }) ∧
    (s.skValid = false → exec .skexch s = .next { s with
      latch := none, done := true, error := some .noKey, scratch := Scratch.zero })

/-- Rule R140: with POINT decoding to 0, SKEXCH succeeds and RESULT is 32 zero bytes. That the inverse of 0 is 0 is rule
R124's. -/
def Obligations.ZeroPointZeroResult : Prop :=
  ∀ s : State, s.skValid = true → leint s.point.toList % 2 ^ 255 % (2 ^ 255 - 19) = 0 →
    ∃ t, exec .skexch s = .next t ∧ t.error = none ∧ t.result = zeros 32
end

