-- ==== Sys2Proof/Laws/Bytes.lean ====
section
/-! SUPPORT. Words, bytes and byte strings: the conversions of rule R7 are inverse to each other, and what the byte
registers' slices hold. -/

namespace Sys2Proof.Machine

/-! ## le32 and ser32 -/

theorem le32_toNat (b0 b1 b2 b3 : Byte) :
    (le32 b0 b1 b2 b3).toNat = b0.toNat + 2 ^ 8 * b1.toNat + 2 ^ 16 * b2.toNat + 2 ^ 24 * b3.toNat := by
  have h0 := b0.isLt
  have h1 := b1.isLt
  have h2 := b2.isLt
  have h3 := b3.isLt
  rw [le32, BitVec.toNat_ofNat, Nat.mod_eq_of_lt]
  omega

theorem wordByte_toNat (w : Word) (i : Nat) : (wordByte w i).toNat = w.toNat / 2 ^ (8 * i) % 256 := by
  rw [wordByte, BitVec.toNat_ofNat]

/-- `le32(ser32(w)) = w`. -/
theorem le32_wordByte (w : Word) : le32 (wordByte w 0) (wordByte w 1) (wordByte w 2) (wordByte w 3) = w := by
  apply BitVec.eq_of_toNat_eq
  rw [le32_toNat]
  simp only [wordByte_toNat]
  have := w.isLt
  omega

/-- `ser32(le32(b)) = b`, byte by byte. -/
theorem wordByte_le32 (b0 b1 b2 b3 : Byte) :
    wordByte (le32 b0 b1 b2 b3) 0 = b0 ∧ wordByte (le32 b0 b1 b2 b3) 1 = b1 ∧ wordByte (le32 b0 b1 b2 b3) 2 = b2 ∧
      wordByte (le32 b0 b1 b2 b3) 3 = b3 := by
  have h0 := b0.isLt
  have h1 := b1.isLt
  have h2 := b2.isLt
  have h3 := b3.isLt
  refine ⟨?_, ?_, ?_, ?_⟩ <;> apply BitVec.eq_of_toNat_eq <;> rw [wordByte_toNat, le32_toNat] <;> omega

/-! ## Byte registers -/

theorem byteAt_of_lt {n : Nat} (v : Bytes n) {i : Nat} (h : i < n) : byteAt v i = v[i] := by
  simp [byteAt, h]

theorem byteAt_ofFn {n : Nat} (f : Fin n → Byte) {i : Nat} (h : i < n) : byteAt (Vector.ofFn f) i = f ⟨i, h⟩ := by
  rw [byteAt_of_lt _ h, Vector.getElem_ofFn]

theorem byteAt_slice {n : Nat} (v : Bytes n) (start len : Nat) {i : Nat} (h : i < len) :
    byteAt (slice v start len) i = byteAt v (start + i) := by
  rw [slice, byteAt_ofFn _ h]

theorem byteAt_ofList (n : Nat) (l : List Byte) {i : Nat} (h : i < n) : byteAt (ofList n l) i = l[i]?.getD 0#8 := by
  rw [ofList, byteAt_ofFn _ h]

/-- A slice of the whole register is the register. -/
theorem slice_self {n : Nat} (v : Bytes n) : slice v 0 n = v := by
  apply Vector.ext
  intro i h
  rw [slice, Vector.getElem_ofFn, byteAt_of_lt _ (by simpa using h)]
  simp

/-- A byte register as a byte string and back. -/
theorem ofList_toList {n : Nat} (v : Bytes n) : ofList n v.toList = v := by
  apply Vector.ext
  intro i h
  rw [ofList, Vector.getElem_ofFn]
  simp [h]

/-- A byte string of the right length as a byte register and back. -/
theorem toList_ofList {n : Nat} {l : List Byte} (h : l.length = n) : (ofList n l).toList = l := by
  apply List.ext_getElem
  · simp [h]
  · intro i h1 h2
    simp [ofList, h2]

/-- A write of word `k` is read back, and every other word is as before (rule R49). -/
theorem le32At_setWordAt {n : Nat} (v : Bytes (4 * n)) (k j : Nat) (hj : j < n) (w : Word) :
    le32At (setWordAt v k w) (4 * j) = if j = k then w else le32At v (4 * j) := by
  have at_ : ∀ r, r < 4 → byteAt (setWordAt v k w) (4 * j + r) = if j = k then wordByte w r else byteAt v (4 * j + r) := by
    intro r hr
    rw [setWordAt, byteAt_ofFn _ (by omega)]
    simp only [show (4 * j + r) / 4 = j by omega, show (4 * j + r) % 4 = r by omega]
    split
    · rfl
    · rw [byteAt_of_lt v (show 4 * j + r < 4 * n by omega)]
      rfl
  rw [le32At, at_ 1 (by omega), at_ 2 (by omega), at_ 3 (by omega), show byteAt (setWordAt v k w) (4 * j)
    = if j = k then wordByte w 0 else byteAt v (4 * j) from at_ 0 (by omega)]
  split
  · exact le32_wordByte w
  · rfl

/-! ## Numbers -/

theorem leint_lt (l : List Byte) : leint l < 256 ^ l.length := by
  induction l with
  | nil => simp [leint]
  | cons b l ih =>
    have := b.isLt
    simp only [leint, List.length_cons, pow_succ]
    omega

theorem leint_append (a b : List Byte) : leint (a ++ b) = leint a + 256 ^ a.length * leint b := by
  induction a with
  | nil => simp [leint]
  | cons x a ih =>
    simp only [List.cons_append, leint, ih, List.length_cons, pow_succ]
    ring

theorem leint_map_range (n v : Nat) :
    leint ((List.range n).map fun i => BitVec.ofNat 8 (v / 256 ^ i)) = v % 256 ^ n := by
  induction n with
  | zero => simp [leint, Nat.mod_one]
  | succ n ih =>
    rw [List.range_succ, List.map_append, leint_append, ih]
    simp only [List.map_cons, List.map_nil, leint, List.length_map, List.length_range, BitVec.toNat_ofNat]
    rw [show (256 : Nat) ^ (n + 1) = 256 ^ n * 256 from pow_succ .., Nat.mod_mul]
    simp

/-- `leint` of the little-endian bytes of a number. -/
theorem leint_leBytes (n v : Nat) : leint (leBytes n v).toList = v % 256 ^ n := by
  rw [← leint_map_range n v]
  congr 1
  apply List.ext_getElem
  · simp
  · intro i h1 h2
    simp [leBytes]

/-- A byte string is determined by its length and its number. -/
theorem leint_inj {a b : List Byte} (hl : a.length = b.length) (h : leint a = leint b) : a = b := by
  induction a generalizing b with
  | nil => simpa using hl.symm
  | cons x a ih =>
    cases b with
    | nil => simp at hl
    | cons y b =>
      simp only [leint] at h
      have hx := x.isLt
      have hy := y.isLt
      have hxy : x = y := BitVec.eq_of_toNat_eq (by omega)
      rw [hxy, ih (by simpa using hl) (by omega)]

@[simp] theorem length_le64 (n : Nat) : (le64 n).length = 8 := by simp [le64]

theorem leint_le64 (n : Nat) : leint (le64 n) = n % 2 ^ 64 := by
  have := leint_map_range 8 n
  rw [show (256 : Nat) ^ 8 = 2 ^ 64 by norm_num] at this
  rw [← this]
  rfl

/-! ## Exclusive or of byte strings -/

@[simp] theorem length_xorBytes (a b : List Byte) : (xorBytes a b).length = min a.length b.length := by
  simp [xorBytes]

theorem xorBytes_xorBytes {a b : List Byte} (h : a.length ≤ b.length) : xorBytes (xorBytes a b) b = a := by
  apply List.ext_getElem
  · simp [xorBytes]; omega
  · intro i h1 h2
    simp [xorBytes]

end Sys2Proof.Machine
end

