-- ==== Sys2Proof/Laws/ChaCha.lean ====
section
/-! SUPPORT. The engine's micro-operations: what each leaves in the scratch registers, and the stream's length, its
bytes, and that it is its own inverse (rules R64 to R66, R71, R81). -/

namespace Sys2Proof.Machine

/-! ## What the micro-operations leave -/

theorem doubleRounds_succ (n : Nat) (x : Words) : doubleRounds (n + 1) x = doubleRounds n (doubleRound x) := by
  rw [doubleRounds]

/-- `n` double rounds change RND and `x` only. -/
theorem Scratch.rounds_eq (n r : Nat) (sc : Scratch) :
    Scratch.rounds (n + 1) r sc = { sc with rnd := r + n, x := doubleRounds (n + 1) sc.x } := by
  induction n generalizing r sc with
  | zero => rw [Scratch.rounds, Scratch.rounds, doubleRounds_succ 0 sc.x, doubleRounds, Nat.add_zero]
  | succ n ih => rw [Scratch.rounds, ih, doubleRounds_succ (n + 1) sc.x, Nat.add_assoc r 1 n, Nat.add_comm 1 n]

/-- PERMUTE changes RND and `x` only, and leaves the permutation of `s` in `x`. -/
theorem Scratch.permute_eq (sc : Scratch) :
    sc.permute = { sc with rnd := 9, x := Sys2Proof.Machine.permute sc.sIn } := by
  rw [Scratch.permute, Scratch.rounds_eq 9 0]
  rfl

/-- BLOCK changes `s`, `x`, RND and KSB only, and leaves the keystream block in KSB. -/
theorem Scratch.block_eq (sc : Scratch) (key : Bytes 32) (counter : Word) (nonce : Bytes 12) :
    sc.block key counter nonce =
      { sc with
        sIn := initWords key counter nonce, rnd := 9, x := Sys2Proof.Machine.permute (initWords key counter nonce),
        ksb := Sys2Proof.Machine.block key counter nonce } := by
  rw [Scratch.block, Scratch.permute_eq]
  rfl

/-- HCHACHA20 changes `s`, `x` and RND only. -/
theorem Scratch.hchacha20_eq (sc : Scratch) (key : Bytes 32) (nonce : Bytes 16) :
    sc.hchacha20 key nonce =
      { sc with sIn := hinitWords key nonce, rnd := 9, x := Sys2Proof.Machine.permute (hinitWords key nonce) } := by
  rw [Scratch.hchacha20, Scratch.permute_eq]
  rfl

/-- The stream changes `s`, `x`, KSB, RND and BLK only. -/
theorem Scratch.xorSegments_frame (key : Bytes 32) (base : Word) (nonce : Bytes 12) (n i : Nat) (data : List Byte)
    (sc : Scratch) :
    ∃ s x ksb rnd blk, (Scratch.xorSegments key base nonce n i data sc).1 =
      { sc with sIn := s, x := x, ksb := ksb, rnd := rnd, blk := blk } := by
  induction n generalizing i data sc with
  | zero => exact ⟨sc.sIn, sc.x, sc.ksb, sc.rnd, sc.blk, rfl⟩
  | succ n ih =>
    rw [Scratch.xorSegments, Scratch.block_eq]
    obtain ⟨s, x, ksb, rnd, blk, h⟩ := ih (i + 1) (data.drop 64)
      { sc with
        blk := i, sIn := initWords key (base + BitVec.ofNat 32 i) nonce, rnd := 9,
        x := Sys2Proof.Machine.permute (initWords key (base + BitVec.ofNat 32 i) nonce),
        ksb := Sys2Proof.Machine.block key (base + BitVec.ofNat 32 i) nonce }
    exact ⟨s, x, ksb, rnd, blk, h⟩

/-- The output of the stream is the stream. -/
theorem Scratch.xorSegments_out (key : Bytes 32) (base : Word) (nonce : Bytes 12) (n i : Nat) (data : List Byte)
    (sc : Scratch) :
    (Scratch.xorSegments key base nonce n i data sc).2 = Sys2Proof.Machine.xorSegments key base nonce n i data := by
  induction n generalizing i data sc with
  | zero => rfl
  | succ n ih =>
    rw [Scratch.xorSegments, Scratch.block_eq]
    simp only [ih, Sys2Proof.Machine.xorSegments]

theorem Scratch.xorStream_frame (sc : Scratch) (key : Bytes 32) (base : Word) (nonce : Bytes 12) (data : List Byte) :
    ∃ s x ksb rnd blk, (sc.xorStream key base nonce data).1 =
      { sc with sIn := s, x := x, ksb := ksb, rnd := rnd, blk := blk } :=
  Scratch.xorSegments_frame ..

theorem Scratch.xorStream_out (sc : Scratch) (key : Bytes 32) (base : Word) (nonce : Bytes 12) (data : List Byte) :
    (sc.xorStream key base nonce data).2 = Sys2Proof.Machine.xorStream key base nonce data :=
  Scratch.xorSegments_out ..

/-! ## The stream -/

@[simp] theorem xorSegments_nil (key : Bytes 32) (base : Word) (nonce : Bytes 12) (n i : Nat) :
    xorSegments key base nonce n i [] = [] := by
  induction n generalizing i with
  | zero => rfl
  | succ n ih => simp [xorSegments, ih, xorBytes]

theorem length_xorSegments (key : Bytes 32) (base : Word) (nonce : Bytes 12) (n i : Nat) (data : List Byte) :
    (xorSegments key base nonce n i data).length = min (64 * n) data.length := by
  induction n generalizing i data with
  | zero => simp [xorSegments]
  | succ n ih =>
    simp only [xorSegments, List.length_append, length_xorBytes, List.length_take, ih, List.length_drop,
      Vector.length_toList]
    omega

/-- The stream has the data's length (rule R66). -/
@[simp] theorem length_xorStream (key : Bytes 32) (base : Word) (nonce : Bytes 12) (data : List Byte) :
    (xorStream key base nonce data).length = data.length := by
  rw [xorStream, length_xorSegments, segments]
  omega

/-- Byte `j` of the segments from `i` on. -/
theorem getElem_xorSegments (key : Bytes 32) (base : Word) (nonce : Bytes 12) (n i : Nat) (data : List Byte) (j : Nat)
    (h : j < (xorSegments key base nonce n i data).length) (hd : j < data.length) :
    (xorSegments key base nonce n i data)[j] =
      data[j] ^^^ byteAt (block key (base + BitVec.ofNat 32 (i + j / 64)) nonce) (j % 64) := by
  induction n generalizing i data j with
  | zero => simp [xorSegments] at h
  | succ n ih =>
    have hl : (xorBytes (data.take 64) (block key (base + BitVec.ofNat 32 i) nonce).toList).length =
        min 64 data.length := by simp
    simp only [xorSegments]
    by_cases hj : j < 64
    · rw [List.getElem_append_left (by omega)]
      simp [xorBytes, show j / 64 = 0 by omega, Nat.mod_eq_of_lt hj, byteAt_of_lt _ hj]
    · rw [List.getElem_append_right (by omega)]
      have hlen := length_xorSegments key base nonce (n + 1) i data
      rw [hlen] at h
      have e : j - (xorBytes (data.take 64) (block key (base + BitVec.ofNat 32 i) nonce).toList).length = j - 64 := by
        omega
      simp only [e]
      rw [ih (i + 1) (data.drop 64) (j - 64) (by rw [length_xorSegments, List.length_drop]; omega)
        (by rw [List.length_drop]; omega)]
      have e1 : i + 1 + (j - 64) / 64 = i + j / 64 := by omega
      have e2 : (j - 64) % 64 = j % 64 := by omega
      have e3 : 64 + (j - 64) = j := by omega
      simp only [List.getElem_drop, e1, e2, e3]

/-- The stream is its own inverse (rule R71). -/
theorem xorStream_xorStream (key : Bytes 32) (base : Word) (nonce : Bytes 12) (data : List Byte) :
    xorStream key base nonce (xorStream key base nonce data) = data := by
  apply List.ext_getElem
  · simp
  · intro j h1 h2
    have h3 : j < (xorStream key base nonce data).length := by simpa using h2
    have e := getElem_xorSegments key base nonce (segments (xorStream key base nonce data).length) 0
      (xorStream key base nonce data) j h1 h3
    have e' := getElem_xorSegments key base nonce (segments data.length) 0 data j h3 h2
    calc (xorStream key base nonce (xorStream key base nonce data))[j]
        = _ := e
      _ = (data[j] ^^^ byteAt (block key (base + BitVec.ofNat 32 (0 + j / 64)) nonce) (j % 64))
            ^^^ byteAt (block key (base + BitVec.ofNat 32 (0 + j / 64)) nonce) (j % 64) := by rw [← e']; rfl
      _ = data[j] := by rw [BitVec.xor_assoc, BitVec.xor_self, BitVec.xor_zero]

end Sys2Proof.Machine
end

