-- ==== Sys2Proof/Laws/State.lean ====
section
/-! SUPPORT. One lemma per field of State per named update: what the update leaves in the field. -/

namespace Sys2Proof.Machine

variable (s : State)

/-! ### withScratch -/

@[simp] theorem State.withScratch_cfg (sc : Scratch) : (s.withScratch sc).cfg = s.cfg := rfl
@[simp] theorem State.withScratch_latch (sc : Scratch) : (s.withScratch sc).latch = s.latch := rfl
@[simp] theorem State.withScratch_done (sc : Scratch) : (s.withScratch sc).done = s.done := rfl
@[simp] theorem State.withScratch_error (sc : Scratch) : (s.withScratch sc).error = s.error := rfl
@[simp] theorem State.withScratch_ckValid (sc : Scratch) : (s.withScratch sc).ckValid = s.ckValid := rfl
@[simp] theorem State.withScratch_skValid (sc : Scratch) : (s.withScratch sc).skValid = s.skValid := rfl
@[simp] theorem State.withScratch_ctr (sc : Scratch) : (s.withScratch sc).ctr = s.ctr := rfl
@[simp] theorem State.withScratch_keylen (sc : Scratch) : (s.withScratch sc).keylen = s.keylen := rfl
@[simp] theorem State.withScratch_aadLen (sc : Scratch) : (s.withScratch sc).aadLen = s.aadLen := rfl
@[simp] theorem State.withScratch_inLen (sc : Scratch) : (s.withScratch sc).inLen = s.inLen := rfl
@[simp] theorem State.withScratch_outLen (sc : Scratch) : (s.withScratch sc).outLen = s.outLen := rfl
@[simp] theorem State.withScratch_keyin (sc : Scratch) : (s.withScratch sc).keyin = s.keyin := rfl
@[simp] theorem State.withScratch_nonce (sc : Scratch) : (s.withScratch sc).nonce = s.nonce := rfl
@[simp] theorem State.withScratch_point (sc : Scratch) : (s.withScratch sc).point = s.point := rfl
@[simp] theorem State.withScratch_result (sc : Scratch) : (s.withScratch sc).result = s.result := rfl
@[simp] theorem State.withScratch_ks (sc : Scratch) : (s.withScratch sc).ks = s.ks := rfl
@[simp] theorem State.withScratch_ck (sc : Scratch) : (s.withScratch sc).ck = s.ck := rfl
@[simp] theorem State.withScratch_sk (sc : Scratch) : (s.withScratch sc).sk = s.sk := rfl
@[simp] theorem State.withScratch_aad (sc : Scratch) : (s.withScratch sc).aad = s.aad := rfl
@[simp] theorem State.withScratch_inp (sc : Scratch) : (s.withScratch sc).inp = s.inp := rfl
@[simp] theorem State.withScratch_out (sc : Scratch) : (s.withScratch sc).out = s.out := rfl
@[simp] theorem State.withScratch_scratch (sc : Scratch) : (s.withScratch sc).scratch = sc := rfl
@[simp] theorem State.withScratch_events (sc : Scratch) : (s.withScratch sc).events = s.events := rfl
@[simp] theorem State.withScratch_rdata (sc : Scratch) : (s.withScratch sc).rdata = s.rdata := rfl

/-! ### setOutLen -/

@[simp] theorem State.setOutLen_cfg (n : BitVec 64) : (s.setOutLen n).cfg = s.cfg := rfl
@[simp] theorem State.setOutLen_latch (n : BitVec 64) : (s.setOutLen n).latch = s.latch := rfl
@[simp] theorem State.setOutLen_done (n : BitVec 64) : (s.setOutLen n).done = s.done := rfl
@[simp] theorem State.setOutLen_error (n : BitVec 64) : (s.setOutLen n).error = s.error := rfl
@[simp] theorem State.setOutLen_ckValid (n : BitVec 64) : (s.setOutLen n).ckValid = s.ckValid := rfl
@[simp] theorem State.setOutLen_skValid (n : BitVec 64) : (s.setOutLen n).skValid = s.skValid := rfl
@[simp] theorem State.setOutLen_ctr (n : BitVec 64) : (s.setOutLen n).ctr = s.ctr := rfl
@[simp] theorem State.setOutLen_keylen (n : BitVec 64) : (s.setOutLen n).keylen = s.keylen := rfl
@[simp] theorem State.setOutLen_aadLen (n : BitVec 64) : (s.setOutLen n).aadLen = s.aadLen := rfl
@[simp] theorem State.setOutLen_inLen (n : BitVec 64) : (s.setOutLen n).inLen = s.inLen := rfl
@[simp] theorem State.setOutLen_outLen (n : BitVec 64) : (s.setOutLen n).outLen = n := rfl
@[simp] theorem State.setOutLen_keyin (n : BitVec 64) : (s.setOutLen n).keyin = s.keyin := rfl
@[simp] theorem State.setOutLen_nonce (n : BitVec 64) : (s.setOutLen n).nonce = s.nonce := rfl
@[simp] theorem State.setOutLen_point (n : BitVec 64) : (s.setOutLen n).point = s.point := rfl
@[simp] theorem State.setOutLen_result (n : BitVec 64) : (s.setOutLen n).result = s.result := rfl
@[simp] theorem State.setOutLen_ks (n : BitVec 64) : (s.setOutLen n).ks = s.ks := rfl
@[simp] theorem State.setOutLen_ck (n : BitVec 64) : (s.setOutLen n).ck = s.ck := rfl
@[simp] theorem State.setOutLen_sk (n : BitVec 64) : (s.setOutLen n).sk = s.sk := rfl
@[simp] theorem State.setOutLen_aad (n : BitVec 64) : (s.setOutLen n).aad = s.aad := rfl
@[simp] theorem State.setOutLen_inp (n : BitVec 64) : (s.setOutLen n).inp = s.inp := rfl
@[simp] theorem State.setOutLen_out (n : BitVec 64) : (s.setOutLen n).out = s.out := rfl
@[simp] theorem State.setOutLen_scratch (n : BitVec 64) : (s.setOutLen n).scratch = s.scratch := rfl
@[simp] theorem State.setOutLen_events (n : BitVec 64) : (s.setOutLen n).events = s.events := rfl
@[simp] theorem State.setOutLen_rdata (n : BitVec 64) : (s.setOutLen n).rdata = s.rdata := rfl

/-! ### setResult -/

@[simp] theorem State.setResult_cfg (v : Bytes 32) : (s.setResult v).cfg = s.cfg := rfl
@[simp] theorem State.setResult_latch (v : Bytes 32) : (s.setResult v).latch = s.latch := rfl
@[simp] theorem State.setResult_done (v : Bytes 32) : (s.setResult v).done = s.done := rfl
@[simp] theorem State.setResult_error (v : Bytes 32) : (s.setResult v).error = s.error := rfl
@[simp] theorem State.setResult_ckValid (v : Bytes 32) : (s.setResult v).ckValid = s.ckValid := rfl
@[simp] theorem State.setResult_skValid (v : Bytes 32) : (s.setResult v).skValid = s.skValid := rfl
@[simp] theorem State.setResult_ctr (v : Bytes 32) : (s.setResult v).ctr = s.ctr := rfl
@[simp] theorem State.setResult_keylen (v : Bytes 32) : (s.setResult v).keylen = s.keylen := rfl
@[simp] theorem State.setResult_aadLen (v : Bytes 32) : (s.setResult v).aadLen = s.aadLen := rfl
@[simp] theorem State.setResult_inLen (v : Bytes 32) : (s.setResult v).inLen = s.inLen := rfl
@[simp] theorem State.setResult_outLen (v : Bytes 32) : (s.setResult v).outLen = s.outLen := rfl
@[simp] theorem State.setResult_keyin (v : Bytes 32) : (s.setResult v).keyin = s.keyin := rfl
@[simp] theorem State.setResult_nonce (v : Bytes 32) : (s.setResult v).nonce = s.nonce := rfl
@[simp] theorem State.setResult_point (v : Bytes 32) : (s.setResult v).point = s.point := rfl
@[simp] theorem State.setResult_result (v : Bytes 32) : (s.setResult v).result = v := rfl
@[simp] theorem State.setResult_ks (v : Bytes 32) : (s.setResult v).ks = s.ks := rfl
@[simp] theorem State.setResult_ck (v : Bytes 32) : (s.setResult v).ck = s.ck := rfl
@[simp] theorem State.setResult_sk (v : Bytes 32) : (s.setResult v).sk = s.sk := rfl
@[simp] theorem State.setResult_aad (v : Bytes 32) : (s.setResult v).aad = s.aad := rfl
@[simp] theorem State.setResult_inp (v : Bytes 32) : (s.setResult v).inp = s.inp := rfl
@[simp] theorem State.setResult_out (v : Bytes 32) : (s.setResult v).out = s.out := rfl
@[simp] theorem State.setResult_scratch (v : Bytes 32) : (s.setResult v).scratch = s.scratch := rfl
@[simp] theorem State.setResult_events (v : Bytes 32) : (s.setResult v).events = s.events := rfl
@[simp] theorem State.setResult_rdata (v : Bytes 32) : (s.setResult v).rdata = s.rdata := rfl

/-! ### setKs -/

@[simp] theorem State.setKs_cfg (v : Bytes 64) : (s.setKs v).cfg = s.cfg := rfl
@[simp] theorem State.setKs_latch (v : Bytes 64) : (s.setKs v).latch = s.latch := rfl
@[simp] theorem State.setKs_done (v : Bytes 64) : (s.setKs v).done = s.done := rfl
@[simp] theorem State.setKs_error (v : Bytes 64) : (s.setKs v).error = s.error := rfl
@[simp] theorem State.setKs_ckValid (v : Bytes 64) : (s.setKs v).ckValid = s.ckValid := rfl
@[simp] theorem State.setKs_skValid (v : Bytes 64) : (s.setKs v).skValid = s.skValid := rfl
@[simp] theorem State.setKs_ctr (v : Bytes 64) : (s.setKs v).ctr = s.ctr := rfl
@[simp] theorem State.setKs_keylen (v : Bytes 64) : (s.setKs v).keylen = s.keylen := rfl
@[simp] theorem State.setKs_aadLen (v : Bytes 64) : (s.setKs v).aadLen = s.aadLen := rfl
@[simp] theorem State.setKs_inLen (v : Bytes 64) : (s.setKs v).inLen = s.inLen := rfl
@[simp] theorem State.setKs_outLen (v : Bytes 64) : (s.setKs v).outLen = s.outLen := rfl
@[simp] theorem State.setKs_keyin (v : Bytes 64) : (s.setKs v).keyin = s.keyin := rfl
@[simp] theorem State.setKs_nonce (v : Bytes 64) : (s.setKs v).nonce = s.nonce := rfl
@[simp] theorem State.setKs_point (v : Bytes 64) : (s.setKs v).point = s.point := rfl
@[simp] theorem State.setKs_result (v : Bytes 64) : (s.setKs v).result = s.result := rfl
@[simp] theorem State.setKs_ks (v : Bytes 64) : (s.setKs v).ks = v := rfl
@[simp] theorem State.setKs_ck (v : Bytes 64) : (s.setKs v).ck = s.ck := rfl
@[simp] theorem State.setKs_sk (v : Bytes 64) : (s.setKs v).sk = s.sk := rfl
@[simp] theorem State.setKs_aad (v : Bytes 64) : (s.setKs v).aad = s.aad := rfl
@[simp] theorem State.setKs_inp (v : Bytes 64) : (s.setKs v).inp = s.inp := rfl
@[simp] theorem State.setKs_out (v : Bytes 64) : (s.setKs v).out = s.out := rfl
@[simp] theorem State.setKs_scratch (v : Bytes 64) : (s.setKs v).scratch = s.scratch := rfl
@[simp] theorem State.setKs_events (v : Bytes 64) : (s.setKs v).events = s.events := rfl
@[simp] theorem State.setKs_rdata (v : Bytes 64) : (s.setKs v).rdata = s.rdata := rfl

/-! ### wipeKeyin -/

@[simp] theorem State.wipeKeyin_cfg : (s.wipeKeyin).cfg = s.cfg := rfl
@[simp] theorem State.wipeKeyin_latch : (s.wipeKeyin).latch = s.latch := rfl
@[simp] theorem State.wipeKeyin_done : (s.wipeKeyin).done = s.done := rfl
@[simp] theorem State.wipeKeyin_error : (s.wipeKeyin).error = s.error := rfl
@[simp] theorem State.wipeKeyin_ckValid : (s.wipeKeyin).ckValid = s.ckValid := rfl
@[simp] theorem State.wipeKeyin_skValid : (s.wipeKeyin).skValid = s.skValid := rfl
@[simp] theorem State.wipeKeyin_ctr : (s.wipeKeyin).ctr = s.ctr := rfl
@[simp] theorem State.wipeKeyin_keylen : (s.wipeKeyin).keylen = s.keylen := rfl
@[simp] theorem State.wipeKeyin_aadLen : (s.wipeKeyin).aadLen = s.aadLen := rfl
@[simp] theorem State.wipeKeyin_inLen : (s.wipeKeyin).inLen = s.inLen := rfl
@[simp] theorem State.wipeKeyin_outLen : (s.wipeKeyin).outLen = s.outLen := rfl
@[simp] theorem State.wipeKeyin_keyin : (s.wipeKeyin).keyin = zeros 32 := rfl
@[simp] theorem State.wipeKeyin_nonce : (s.wipeKeyin).nonce = s.nonce := rfl
@[simp] theorem State.wipeKeyin_point : (s.wipeKeyin).point = s.point := rfl
@[simp] theorem State.wipeKeyin_result : (s.wipeKeyin).result = s.result := rfl
@[simp] theorem State.wipeKeyin_ks : (s.wipeKeyin).ks = s.ks := rfl
@[simp] theorem State.wipeKeyin_ck : (s.wipeKeyin).ck = s.ck := rfl
@[simp] theorem State.wipeKeyin_sk : (s.wipeKeyin).sk = s.sk := rfl
@[simp] theorem State.wipeKeyin_aad : (s.wipeKeyin).aad = s.aad := rfl
@[simp] theorem State.wipeKeyin_inp : (s.wipeKeyin).inp = s.inp := rfl
@[simp] theorem State.wipeKeyin_out : (s.wipeKeyin).out = s.out := rfl
@[simp] theorem State.wipeKeyin_scratch : (s.wipeKeyin).scratch = s.scratch := rfl
@[simp] theorem State.wipeKeyin_events : (s.wipeKeyin).events = s.events := rfl
@[simp] theorem State.wipeKeyin_rdata : (s.wipeKeyin).rdata = s.rdata := rfl

/-! ### loadCk -/

@[simp] theorem State.loadCk_cfg (v : Bytes 32) : (s.loadCk v).cfg = s.cfg := rfl
@[simp] theorem State.loadCk_latch (v : Bytes 32) : (s.loadCk v).latch = s.latch := rfl
@[simp] theorem State.loadCk_done (v : Bytes 32) : (s.loadCk v).done = s.done := rfl
@[simp] theorem State.loadCk_error (v : Bytes 32) : (s.loadCk v).error = s.error := rfl
@[simp] theorem State.loadCk_ckValid (v : Bytes 32) : (s.loadCk v).ckValid = true := rfl
@[simp] theorem State.loadCk_skValid (v : Bytes 32) : (s.loadCk v).skValid = s.skValid := rfl
@[simp] theorem State.loadCk_ctr (v : Bytes 32) : (s.loadCk v).ctr = s.ctr := rfl
@[simp] theorem State.loadCk_keylen (v : Bytes 32) : (s.loadCk v).keylen = s.keylen := rfl
@[simp] theorem State.loadCk_aadLen (v : Bytes 32) : (s.loadCk v).aadLen = s.aadLen := rfl
@[simp] theorem State.loadCk_inLen (v : Bytes 32) : (s.loadCk v).inLen = s.inLen := rfl
@[simp] theorem State.loadCk_outLen (v : Bytes 32) : (s.loadCk v).outLen = s.outLen := rfl
@[simp] theorem State.loadCk_keyin (v : Bytes 32) : (s.loadCk v).keyin = s.keyin := rfl
@[simp] theorem State.loadCk_nonce (v : Bytes 32) : (s.loadCk v).nonce = s.nonce := rfl
@[simp] theorem State.loadCk_point (v : Bytes 32) : (s.loadCk v).point = s.point := rfl
@[simp] theorem State.loadCk_result (v : Bytes 32) : (s.loadCk v).result = s.result := rfl
@[simp] theorem State.loadCk_ks (v : Bytes 32) : (s.loadCk v).ks = s.ks := rfl
@[simp] theorem State.loadCk_ck (v : Bytes 32) : (s.loadCk v).ck = v := rfl
@[simp] theorem State.loadCk_sk (v : Bytes 32) : (s.loadCk v).sk = s.sk := rfl
@[simp] theorem State.loadCk_aad (v : Bytes 32) : (s.loadCk v).aad = s.aad := rfl
@[simp] theorem State.loadCk_inp (v : Bytes 32) : (s.loadCk v).inp = s.inp := rfl
@[simp] theorem State.loadCk_out (v : Bytes 32) : (s.loadCk v).out = s.out := rfl
@[simp] theorem State.loadCk_scratch (v : Bytes 32) : (s.loadCk v).scratch = s.scratch := rfl
@[simp] theorem State.loadCk_events (v : Bytes 32) : (s.loadCk v).events = s.events := rfl
@[simp] theorem State.loadCk_rdata (v : Bytes 32) : (s.loadCk v).rdata = s.rdata := rfl

/-! ### loadSk -/

@[simp] theorem State.loadSk_cfg (v : Bytes 32) : (s.loadSk v).cfg = s.cfg := rfl
@[simp] theorem State.loadSk_latch (v : Bytes 32) : (s.loadSk v).latch = s.latch := rfl
@[simp] theorem State.loadSk_done (v : Bytes 32) : (s.loadSk v).done = s.done := rfl
@[simp] theorem State.loadSk_error (v : Bytes 32) : (s.loadSk v).error = s.error := rfl
@[simp] theorem State.loadSk_ckValid (v : Bytes 32) : (s.loadSk v).ckValid = s.ckValid := rfl
@[simp] theorem State.loadSk_skValid (v : Bytes 32) : (s.loadSk v).skValid = true := rfl
@[simp] theorem State.loadSk_ctr (v : Bytes 32) : (s.loadSk v).ctr = s.ctr := rfl
@[simp] theorem State.loadSk_keylen (v : Bytes 32) : (s.loadSk v).keylen = s.keylen := rfl
@[simp] theorem State.loadSk_aadLen (v : Bytes 32) : (s.loadSk v).aadLen = s.aadLen := rfl
@[simp] theorem State.loadSk_inLen (v : Bytes 32) : (s.loadSk v).inLen = s.inLen := rfl
@[simp] theorem State.loadSk_outLen (v : Bytes 32) : (s.loadSk v).outLen = s.outLen := rfl
@[simp] theorem State.loadSk_keyin (v : Bytes 32) : (s.loadSk v).keyin = s.keyin := rfl
@[simp] theorem State.loadSk_nonce (v : Bytes 32) : (s.loadSk v).nonce = s.nonce := rfl
@[simp] theorem State.loadSk_point (v : Bytes 32) : (s.loadSk v).point = s.point := rfl
@[simp] theorem State.loadSk_result (v : Bytes 32) : (s.loadSk v).result = s.result := rfl
@[simp] theorem State.loadSk_ks (v : Bytes 32) : (s.loadSk v).ks = s.ks := rfl
@[simp] theorem State.loadSk_ck (v : Bytes 32) : (s.loadSk v).ck = s.ck := rfl
@[simp] theorem State.loadSk_sk (v : Bytes 32) : (s.loadSk v).sk = v := rfl
@[simp] theorem State.loadSk_aad (v : Bytes 32) : (s.loadSk v).aad = s.aad := rfl
@[simp] theorem State.loadSk_inp (v : Bytes 32) : (s.loadSk v).inp = s.inp := rfl
@[simp] theorem State.loadSk_out (v : Bytes 32) : (s.loadSk v).out = s.out := rfl
@[simp] theorem State.loadSk_scratch (v : Bytes 32) : (s.loadSk v).scratch = s.scratch := rfl
@[simp] theorem State.loadSk_events (v : Bytes 32) : (s.loadSk v).events = s.events := rfl
@[simp] theorem State.loadSk_rdata (v : Bytes 32) : (s.loadSk v).rdata = s.rdata := rfl

/-! ### wipeSk -/

@[simp] theorem State.wipeSk_cfg : (s.wipeSk).cfg = s.cfg := rfl
@[simp] theorem State.wipeSk_latch : (s.wipeSk).latch = s.latch := rfl
@[simp] theorem State.wipeSk_done : (s.wipeSk).done = s.done := rfl
@[simp] theorem State.wipeSk_error : (s.wipeSk).error = s.error := rfl
@[simp] theorem State.wipeSk_ckValid : (s.wipeSk).ckValid = s.ckValid := rfl
@[simp] theorem State.wipeSk_skValid : (s.wipeSk).skValid = s.skValid := rfl
@[simp] theorem State.wipeSk_ctr : (s.wipeSk).ctr = s.ctr := rfl
@[simp] theorem State.wipeSk_keylen : (s.wipeSk).keylen = s.keylen := rfl
@[simp] theorem State.wipeSk_aadLen : (s.wipeSk).aadLen = s.aadLen := rfl
@[simp] theorem State.wipeSk_inLen : (s.wipeSk).inLen = s.inLen := rfl
@[simp] theorem State.wipeSk_outLen : (s.wipeSk).outLen = s.outLen := rfl
@[simp] theorem State.wipeSk_keyin : (s.wipeSk).keyin = s.keyin := rfl
@[simp] theorem State.wipeSk_nonce : (s.wipeSk).nonce = s.nonce := rfl
@[simp] theorem State.wipeSk_point : (s.wipeSk).point = s.point := rfl
@[simp] theorem State.wipeSk_result : (s.wipeSk).result = s.result := rfl
@[simp] theorem State.wipeSk_ks : (s.wipeSk).ks = s.ks := rfl
@[simp] theorem State.wipeSk_ck : (s.wipeSk).ck = s.ck := rfl
@[simp] theorem State.wipeSk_sk : (s.wipeSk).sk = zeros 32 := rfl
@[simp] theorem State.wipeSk_aad : (s.wipeSk).aad = s.aad := rfl
@[simp] theorem State.wipeSk_inp : (s.wipeSk).inp = s.inp := rfl
@[simp] theorem State.wipeSk_out : (s.wipeSk).out = s.out := rfl
@[simp] theorem State.wipeSk_scratch : (s.wipeSk).scratch = s.scratch := rfl
@[simp] theorem State.wipeSk_events : (s.wipeSk).events = s.events := rfl
@[simp] theorem State.wipeSk_rdata : (s.wipeSk).rdata = s.rdata := rfl

/-! ### dropSk -/

@[simp] theorem State.dropSk_cfg : (s.dropSk).cfg = s.cfg := rfl
@[simp] theorem State.dropSk_latch : (s.dropSk).latch = s.latch := rfl
@[simp] theorem State.dropSk_done : (s.dropSk).done = s.done := rfl
@[simp] theorem State.dropSk_error : (s.dropSk).error = s.error := rfl
@[simp] theorem State.dropSk_ckValid : (s.dropSk).ckValid = s.ckValid := rfl
@[simp] theorem State.dropSk_skValid : (s.dropSk).skValid = false := rfl
@[simp] theorem State.dropSk_ctr : (s.dropSk).ctr = s.ctr := rfl
@[simp] theorem State.dropSk_keylen : (s.dropSk).keylen = s.keylen := rfl
@[simp] theorem State.dropSk_aadLen : (s.dropSk).aadLen = s.aadLen := rfl
@[simp] theorem State.dropSk_inLen : (s.dropSk).inLen = s.inLen := rfl
@[simp] theorem State.dropSk_outLen : (s.dropSk).outLen = s.outLen := rfl
@[simp] theorem State.dropSk_keyin : (s.dropSk).keyin = s.keyin := rfl
@[simp] theorem State.dropSk_nonce : (s.dropSk).nonce = s.nonce := rfl
@[simp] theorem State.dropSk_point : (s.dropSk).point = s.point := rfl
@[simp] theorem State.dropSk_result : (s.dropSk).result = s.result := rfl
@[simp] theorem State.dropSk_ks : (s.dropSk).ks = s.ks := rfl
@[simp] theorem State.dropSk_ck : (s.dropSk).ck = s.ck := rfl
@[simp] theorem State.dropSk_sk : (s.dropSk).sk = zeros 32 := rfl
@[simp] theorem State.dropSk_aad : (s.dropSk).aad = s.aad := rfl
@[simp] theorem State.dropSk_inp : (s.dropSk).inp = s.inp := rfl
@[simp] theorem State.dropSk_out : (s.dropSk).out = s.out := rfl
@[simp] theorem State.dropSk_scratch : (s.dropSk).scratch = s.scratch := rfl
@[simp] theorem State.dropSk_events : (s.dropSk).events = s.events := rfl
@[simp] theorem State.dropSk_rdata : (s.dropSk).rdata = s.rdata := rfl

/-! ### writeOut -/

@[simp] theorem State.writeOut_cfg (a : Nat) (v : List Byte) : (s.writeOut a v).cfg = s.cfg := rfl
@[simp] theorem State.writeOut_latch (a : Nat) (v : List Byte) : (s.writeOut a v).latch = s.latch := rfl
@[simp] theorem State.writeOut_done (a : Nat) (v : List Byte) : (s.writeOut a v).done = s.done := rfl
@[simp] theorem State.writeOut_error (a : Nat) (v : List Byte) : (s.writeOut a v).error = s.error := rfl
@[simp] theorem State.writeOut_ckValid (a : Nat) (v : List Byte) : (s.writeOut a v).ckValid = s.ckValid := rfl
@[simp] theorem State.writeOut_skValid (a : Nat) (v : List Byte) : (s.writeOut a v).skValid = s.skValid := rfl
@[simp] theorem State.writeOut_ctr (a : Nat) (v : List Byte) : (s.writeOut a v).ctr = s.ctr := rfl
@[simp] theorem State.writeOut_keylen (a : Nat) (v : List Byte) : (s.writeOut a v).keylen = s.keylen := rfl
@[simp] theorem State.writeOut_aadLen (a : Nat) (v : List Byte) : (s.writeOut a v).aadLen = s.aadLen := rfl
@[simp] theorem State.writeOut_inLen (a : Nat) (v : List Byte) : (s.writeOut a v).inLen = s.inLen := rfl
@[simp] theorem State.writeOut_outLen (a : Nat) (v : List Byte) : (s.writeOut a v).outLen = s.outLen := rfl
@[simp] theorem State.writeOut_keyin (a : Nat) (v : List Byte) : (s.writeOut a v).keyin = s.keyin := rfl
@[simp] theorem State.writeOut_nonce (a : Nat) (v : List Byte) : (s.writeOut a v).nonce = s.nonce := rfl
@[simp] theorem State.writeOut_point (a : Nat) (v : List Byte) : (s.writeOut a v).point = s.point := rfl
@[simp] theorem State.writeOut_result (a : Nat) (v : List Byte) : (s.writeOut a v).result = s.result := rfl
@[simp] theorem State.writeOut_ks (a : Nat) (v : List Byte) : (s.writeOut a v).ks = s.ks := rfl
@[simp] theorem State.writeOut_ck (a : Nat) (v : List Byte) : (s.writeOut a v).ck = s.ck := rfl
@[simp] theorem State.writeOut_sk (a : Nat) (v : List Byte) : (s.writeOut a v).sk = s.sk := rfl
@[simp] theorem State.writeOut_aad (a : Nat) (v : List Byte) : (s.writeOut a v).aad = s.aad := rfl
@[simp] theorem State.writeOut_inp (a : Nat) (v : List Byte) : (s.writeOut a v).inp = s.inp := rfl
@[simp] theorem State.writeOut_out (a : Nat) (v : List Byte) : (s.writeOut a v).out = s.out.writeBytes a v := rfl
@[simp] theorem State.writeOut_scratch (a : Nat) (v : List Byte) : (s.writeOut a v).scratch = s.scratch := rfl
@[simp] theorem State.writeOut_events (a : Nat) (v : List Byte) : (s.writeOut a v).events = s.events := rfl
@[simp] theorem State.writeOut_rdata (a : Nat) (v : List Byte) : (s.writeOut a v).rdata = s.rdata := rfl

/-! ### issued -/

@[simp] theorem State.issued_cfg : (s.issued).cfg = s.cfg := rfl
@[simp] theorem State.issued_latch : (s.issued).latch = none := rfl
@[simp] theorem State.issued_done : (s.issued).done = s.done := rfl
@[simp] theorem State.issued_error : (s.issued).error = s.error := rfl
@[simp] theorem State.issued_ckValid : (s.issued).ckValid = s.ckValid := rfl
@[simp] theorem State.issued_skValid : (s.issued).skValid = s.skValid := rfl
@[simp] theorem State.issued_ctr : (s.issued).ctr = s.ctr := rfl
@[simp] theorem State.issued_keylen : (s.issued).keylen = s.keylen := rfl
@[simp] theorem State.issued_aadLen : (s.issued).aadLen = s.aadLen := rfl
@[simp] theorem State.issued_inLen : (s.issued).inLen = s.inLen := rfl
@[simp] theorem State.issued_outLen : (s.issued).outLen = s.outLen := rfl
@[simp] theorem State.issued_keyin : (s.issued).keyin = s.keyin := rfl
@[simp] theorem State.issued_nonce : (s.issued).nonce = s.nonce := rfl
@[simp] theorem State.issued_point : (s.issued).point = s.point := rfl
@[simp] theorem State.issued_result : (s.issued).result = s.result := rfl
@[simp] theorem State.issued_ks : (s.issued).ks = s.ks := rfl
@[simp] theorem State.issued_ck : (s.issued).ck = s.ck := rfl
@[simp] theorem State.issued_sk : (s.issued).sk = s.sk := rfl
@[simp] theorem State.issued_aad : (s.issued).aad = s.aad := rfl
@[simp] theorem State.issued_inp : (s.issued).inp = s.inp := rfl
@[simp] theorem State.issued_out : (s.issued).out = s.out := rfl
@[simp] theorem State.issued_scratch : (s.issued).scratch = s.scratch := rfl
@[simp] theorem State.issued_events : (s.issued).events = s.events := rfl
@[simp] theorem State.issued_rdata : (s.issued).rdata = s.rdata := rfl

/-! ### finish -/

@[simp] theorem State.finish_cfg : (s.finish).cfg = s.cfg := rfl
@[simp] theorem State.finish_latch : (s.finish).latch = none := rfl
@[simp] theorem State.finish_done : (s.finish).done = true := rfl
@[simp] theorem State.finish_error : (s.finish).error = none := rfl
@[simp] theorem State.finish_ckValid : (s.finish).ckValid = s.ckValid := rfl
@[simp] theorem State.finish_skValid : (s.finish).skValid = s.skValid := rfl
@[simp] theorem State.finish_ctr : (s.finish).ctr = s.ctr := rfl
@[simp] theorem State.finish_keylen : (s.finish).keylen = s.keylen := rfl
@[simp] theorem State.finish_aadLen : (s.finish).aadLen = s.aadLen := rfl
@[simp] theorem State.finish_inLen : (s.finish).inLen = s.inLen := rfl
@[simp] theorem State.finish_outLen : (s.finish).outLen = s.outLen := rfl
@[simp] theorem State.finish_keyin : (s.finish).keyin = s.keyin := rfl
@[simp] theorem State.finish_nonce : (s.finish).nonce = s.nonce := rfl
@[simp] theorem State.finish_point : (s.finish).point = s.point := rfl
@[simp] theorem State.finish_result : (s.finish).result = s.result := rfl
@[simp] theorem State.finish_ks : (s.finish).ks = s.ks := rfl
@[simp] theorem State.finish_ck : (s.finish).ck = s.ck := rfl
@[simp] theorem State.finish_sk : (s.finish).sk = s.sk := rfl
@[simp] theorem State.finish_aad : (s.finish).aad = s.aad := rfl
@[simp] theorem State.finish_inp : (s.finish).inp = s.inp := rfl
@[simp] theorem State.finish_out : (s.finish).out = s.out := rfl
@[simp] theorem State.finish_scratch : (s.finish).scratch = Scratch.zero := rfl
@[simp] theorem State.finish_events : (s.finish).events = s.events := rfl
@[simp] theorem State.finish_rdata : (s.finish).rdata = s.rdata := rfl

/-! ### raise -/

@[simp] theorem State.raise_cfg (e : CmdError) : (s.raise e).cfg = s.cfg := rfl
@[simp] theorem State.raise_latch (e : CmdError) : (s.raise e).latch = none := rfl
@[simp] theorem State.raise_done (e : CmdError) : (s.raise e).done = true := rfl
@[simp] theorem State.raise_error (e : CmdError) : (s.raise e).error = some e := rfl
@[simp] theorem State.raise_ckValid (e : CmdError) : (s.raise e).ckValid = s.ckValid := rfl
@[simp] theorem State.raise_skValid (e : CmdError) : (s.raise e).skValid = s.skValid := rfl
@[simp] theorem State.raise_ctr (e : CmdError) : (s.raise e).ctr = s.ctr := rfl
@[simp] theorem State.raise_keylen (e : CmdError) : (s.raise e).keylen = s.keylen := rfl
@[simp] theorem State.raise_aadLen (e : CmdError) : (s.raise e).aadLen = s.aadLen := rfl
@[simp] theorem State.raise_inLen (e : CmdError) : (s.raise e).inLen = s.inLen := rfl
@[simp] theorem State.raise_outLen (e : CmdError) : (s.raise e).outLen = s.outLen := rfl
@[simp] theorem State.raise_keyin (e : CmdError) : (s.raise e).keyin = s.keyin := rfl
@[simp] theorem State.raise_nonce (e : CmdError) : (s.raise e).nonce = s.nonce := rfl
@[simp] theorem State.raise_point (e : CmdError) : (s.raise e).point = s.point := rfl
@[simp] theorem State.raise_result (e : CmdError) : (s.raise e).result = s.result := rfl
@[simp] theorem State.raise_ks (e : CmdError) : (s.raise e).ks = s.ks := rfl
@[simp] theorem State.raise_ck (e : CmdError) : (s.raise e).ck = s.ck := rfl
@[simp] theorem State.raise_sk (e : CmdError) : (s.raise e).sk = s.sk := rfl
@[simp] theorem State.raise_aad (e : CmdError) : (s.raise e).aad = s.aad := rfl
@[simp] theorem State.raise_inp (e : CmdError) : (s.raise e).inp = s.inp := rfl
@[simp] theorem State.raise_out (e : CmdError) : (s.raise e).out = s.out := rfl
@[simp] theorem State.raise_scratch (e : CmdError) : (s.raise e).scratch = Scratch.zero := rfl
@[simp] theorem State.raise_events (e : CmdError) : (s.raise e).events = s.events := rfl
@[simp] theorem State.raise_rdata (e : CmdError) : (s.raise e).rdata = s.rdata := rfl

/-! ### answer -/

@[simp] theorem State.answer_cfg (v : Word) : (s.answer v).cfg = s.cfg := rfl
@[simp] theorem State.answer_latch (v : Word) : (s.answer v).latch = s.latch := rfl
@[simp] theorem State.answer_done (v : Word) : (s.answer v).done = s.done := rfl
@[simp] theorem State.answer_error (v : Word) : (s.answer v).error = s.error := rfl
@[simp] theorem State.answer_ckValid (v : Word) : (s.answer v).ckValid = s.ckValid := rfl
@[simp] theorem State.answer_skValid (v : Word) : (s.answer v).skValid = s.skValid := rfl
@[simp] theorem State.answer_ctr (v : Word) : (s.answer v).ctr = s.ctr := rfl
@[simp] theorem State.answer_keylen (v : Word) : (s.answer v).keylen = s.keylen := rfl
@[simp] theorem State.answer_aadLen (v : Word) : (s.answer v).aadLen = s.aadLen := rfl
@[simp] theorem State.answer_inLen (v : Word) : (s.answer v).inLen = s.inLen := rfl
@[simp] theorem State.answer_outLen (v : Word) : (s.answer v).outLen = s.outLen := rfl
@[simp] theorem State.answer_keyin (v : Word) : (s.answer v).keyin = s.keyin := rfl
@[simp] theorem State.answer_nonce (v : Word) : (s.answer v).nonce = s.nonce := rfl
@[simp] theorem State.answer_point (v : Word) : (s.answer v).point = s.point := rfl
@[simp] theorem State.answer_result (v : Word) : (s.answer v).result = s.result := rfl
@[simp] theorem State.answer_ks (v : Word) : (s.answer v).ks = s.ks := rfl
@[simp] theorem State.answer_ck (v : Word) : (s.answer v).ck = s.ck := rfl
@[simp] theorem State.answer_sk (v : Word) : (s.answer v).sk = s.sk := rfl
@[simp] theorem State.answer_aad (v : Word) : (s.answer v).aad = s.aad := rfl
@[simp] theorem State.answer_inp (v : Word) : (s.answer v).inp = s.inp := rfl
@[simp] theorem State.answer_out (v : Word) : (s.answer v).out = s.out := rfl
@[simp] theorem State.answer_scratch (v : Word) : (s.answer v).scratch = s.scratch := rfl
@[simp] theorem State.answer_events (v : Word) : (s.answer v).events = s.events := rfl
@[simp] theorem State.answer_rdata (v : Word) : (s.answer v).rdata = v := rfl

end Sys2Proof.Machine
end

