-- ==== Sys2Proof/Laws/Ports.lean ====
section
/-! SUPPORT. What a port operation issued by a command can change, and what a MAC feed accumulates (rules R91, R94,
R95). -/

namespace Sys2Proof.Machine

/-! ## Port operations -/

/-- A port operation changes scratch state and RESULT only (rule R122: FENC "is the only FOP that writes outside the
field register file"). -/
theorem issue_frame (i : Instr) (s : State) : ∃ sc r, issue i s = (s.withScratch sc).setResult r := by
  have same : ∀ sc, s.withScratch sc = (s.withScratch sc).setResult s.result := fun _ => rfl
  cases i
  case fenc a => exact ⟨s.scratch, feEnc (s.fe a), rfl⟩
  case fcswap a b =>
    rw [issue, fcswapEffect]
    split
    · exact ⟨_, _, same _⟩
    · exact ⟨s.scratch, s.result, rfl⟩
  case minit | mupd | mtag | mvfy | fdec | fadd | fsub | fmul | fsqr | finv => exact ⟨_, _, same _⟩
  all_goals exact ⟨s.scratch, s.result, rfl⟩

theorem issueAll_append (a b : List Instr) (s : State) : issueAll (a ++ b) s = issueAll b (issueAll a s) := by
  induction a generalizing s with
  | nil => rfl
  | cons i a ih => exact ih (issue i s)

/-- A well-formed port operation run from a port word has the effect it has inside a command. -/
theorem portResult_next {wf : Bool} (h : wf = true) (s : State) : portResult wf s = .next s.issued := by
  rw [portResult, if_pos h]

/-! ## The MAC feed -/

/-- MUPDs append their bytes, and change nothing else. -/
theorem issueAll_mupd (us : List (Bytes 16)) (s : State) :
    issueAll (us.map .mupd) s =
      s.withScratch { s.scratch with macMsg := s.scratch.macMsg ++ us.flatMap Vector.toList } := by
  induction us generalizing s with
  | nil => simp [issueAll, State.withScratch]
  | cons u us ih =>
    rw [List.map_cons, issueAll, ih]
    simp [issue, mupdEffect, State.withScratch]

/-- The units of a byte string of whole units are the byte string (rule R95). -/
theorem flatMap_macUnits (n : Nat) (m : List Byte) (h : m.length = 16 * n) :
    (macUnits n m).flatMap Vector.toList = m := by
  induction n generalizing m with
  | zero => simpa [macUnits] using h
  | succ n ih =>
    rw [macUnits, List.flatMap_cons, ih _ (by rw [List.length_drop]; omega),
      toList_ofList (by rw [List.length_take]; omega), List.take_append_drop]

/-- The MAC stream is whole units (rule R94). -/
theorem length_macStream (aad ct : List Byte) :
    (macStream aad ct).length = 16 * ((aad.length + 15) / 16) + 16 * ((ct.length + 15) / 16) + 16 := by
  simp only [macStream, pad16, List.length_append, List.length_replicate, length_le64]
  omega

/-- After MACFEED the engine's message is exactly the MAC stream (rule R95). -/
theorem issueAll_macFeed (otk : Bytes 32) (aad ct : List Byte) (s : State) :
    issueAll (macFeed otk aad ct) s =
      s.withScratch { s.scratch with macKey := otk, macMsg := macStream aad ct } := by
  have hl := length_macStream aad ct
  rw [macFeed, issueAll, issueAll_mupd, flatMap_macUnits _ _ (by omega)]
  simp [issue, minitEffect, State.withScratch]

end Sys2Proof.Machine
end

