-- ==== Sys2Proof/Laws/Aead.lean ====
section
/-! SUPPORT. The composers' shared operations: what they leave is what SEAL and OPEN compute, and nothing else of the
state is changed (rules R92, R96, R97, R110). -/

namespace Sys2Proof.Machine

/-- OTKDERIVE leaves the one-time key in OTK and changes only scratch state. -/
theorem State.otkDerive_eq (s : State) (key : Bytes 32) (nonce : Bytes 12) :
    ∃ sc, s.otkDerive key nonce = s.withScratch sc ∧ sc.otk = otkOf key nonce := by
  refine ⟨_, rfl, ?_⟩
  rw [Scratch.block_eq]
  rfl

/-- The stream changes only scratch state, but for OTK and SUBKEY, N12, and its output is XORSTREAM. -/
theorem State.xorStream_eq (s : State) (key : Bytes 32) (base : Word) (nonce : Bytes 12) (data : List Byte) :
    ∃ sc, s.xorStream key base nonce data = (s.withScratch sc, Sys2Proof.Machine.xorStream key base nonce data) ∧
      sc.otk = s.scratch.otk := by
  refine ⟨(s.scratch.xorStream key base nonce data).1, ?_, ?_⟩
  · rw [State.xorStream, ← Scratch.xorStream_out s.scratch key base nonce data]
  · obtain ⟨_, _, _, _, _, h⟩ := Scratch.xorStream_frame s.scratch key base nonce data
    rw [h]

/-- SEAL's output is `sealBytes`, and SEAL changes only scratch state. -/
theorem State.sealData_eq (s : State) (key : Bytes 32) (nonce : Bytes 12) (aad pt : List Byte) (ctr : Word) :
    ∃ sc, s.sealData key nonce aad pt ctr = (s.withScratch sc, sealBytes s.cfg key nonce aad pt ctr) := by
  obtain ⟨sc1, h1, o1⟩ := s.otkDerive_eq key nonce
  obtain ⟨sc2, h2, o2⟩ := (s.withScratch sc1).xorStream_eq key ctr nonce pt
  have o3 : sc2.otk = otkOf key nonce := by rw [o2]; exact o1
  refine ⟨{ sc2 with
    macKey := sc2.otk, macMsg := macStream aad (Sys2Proof.Machine.xorStream key ctr nonce pt),
    tagx := tagOf s.cfg key nonce aad (Sys2Proof.Machine.xorStream key ctr nonce pt) }, ?_⟩
  rw [State.sealData]
  simp only [h1, h2]
  simp only [issueAll_macFeed, issue, mtagEffect, sealBytes, tagOf, State.withScratch, o3]

/-- MVFY's answer is whether the tag is the tag of `aad` and `ct`, and the verification changes only scratch state. -/
theorem State.verifyData_eq (s : State) (key : Bytes 32) (nonce : Bytes 12) (aad ct : List Byte) (tag : Bytes 16) :
    ∃ sc, s.verifyData key nonce aad ct tag = s.withScratch sc ∧
      sc.macOk = decide (tagOf s.cfg key nonce aad ct = tag) := by
  obtain ⟨sc1, h1, o1⟩ := s.otkDerive_eq key nonce
  refine ⟨{ sc1 with
    macKey := sc1.otk, macMsg := macStream aad ct,
    macOk := decide (tagOf s.cfg key nonce aad ct = tag) }, ?_, rfl⟩
  rw [State.verifyData]
  simp only [h1, issueAll_macFeed, issue, mvfyEffect, tagOf, State.withScratch, o1]
  rfl

/-- The encrypt commands after their checks: SEAL of the operands in OUT, OUT_LEN = IN_LEN + 16, and the command's end. -/
theorem State.encryptWith_eq (s : State) (key : Bytes 32) (nonce : Bytes 12) :
    s.encryptWith key nonce =
      ((s.writeOut 0 (sealBytes s.cfg key nonce s.assocData s.input s.ctr)).setOutLen (s.inLen + 16#64)).finish := by
  obtain ⟨sc, h⟩ := s.sealData_eq key nonce s.assocData s.input s.ctr
  rw [State.encryptWith, h]
  rfl

/-- The decrypt commands after their checks: OPEN of the operands in OUT and OUT_LEN = IN_LEN - 16, or
AuthenticationFailure with OUT as before. -/
theorem State.decryptWith_eq (s : State) (key : Bytes 32) (nonce : Bytes 12) :
    s.decryptWith key nonce =
      match openBytes s.cfg key nonce s.assocData s.input s.ctr with
      | some pt => ((s.writeOut 0 pt).setOutLen (s.inLen - 16#64)).finish
      | none => s.raise .authenticationFailure := by
  obtain ⟨sc, h, ok⟩ := s.verifyData_eq key nonce s.assocData (s.input.take (s.input.length - 16))
    (ofList 16 (s.input.drop (s.input.length - 16)))
  obtain ⟨sc2, h2, -⟩ := (s.withScratch sc).xorStream_eq key s.ctr nonce (s.input.take (s.input.length - 16))
  rw [State.decryptWith, openBytes]
  simp only [h, h2, State.withScratch_scratch, ok, decide_eq_true_eq]
  split <;> rfl

/-- XDERIVE leaves the subkey and the derived nonce, and changes only scratch state. -/
theorem State.xderive_eq (s : State) (key : Bytes 32) (nonce : Bytes 24) :
    ∃ sc, s.xderive key nonce = s.withScratch sc ∧ sc.subkey = hchacha20 key (slice nonce 0 16) ∧
      sc.n12 = xnonce nonce := by
  refine ⟨_, rfl, ?_, rfl⟩
  rw [Scratch.hchacha20_eq]
  rfl

/-! ## The stream and the seal are inverse -/

/-- `sealBytes` is 16 bytes longer than the plaintext. -/
@[simp] theorem length_sealBytes (c : Config) (key : Bytes 32) (nonce : Bytes 12) (aad pt : List Byte) (ctr : Word) :
    (sealBytes c key nonce aad pt ctr).length = pt.length + 16 := by
  simp [sealBytes]

/-- OPEN of SEAL is the plaintext (rule R103). -/
theorem openBytes_sealBytes (c : Config) (key : Bytes 32) (nonce : Bytes 12) (aad pt : List Byte) (ctr : Word) :
    openBytes c key nonce aad (sealBytes c key nonce aad pt ctr) ctr = some pt := by
  have hl : (sealBytes c key nonce aad pt ctr).length - 16 = (xorStream key ctr nonce pt).length := by simp
  rw [openBytes]
  simp only [hl]
  simp only [sealBytes, List.take_left, List.drop_left, ofList_toList, if_true, xorStream_xorStream]

/-! ## The MAC stream determines what is authenticated (rule R104) -/

theorem macStream_injective {aad ct aad' ct' : List Byte} (h : macStream aad ct = macStream aad' ct')
    (ha : aad.length < 2 ^ 64) (hc : ct.length < 2 ^ 64) (ha' : aad'.length < 2 ^ 64) (hc' : ct'.length < 2 ^ 64) :
    aad = aad' ∧ ct = ct' := by
  have e1 := List.append_inj_right' h (by simp)
  have e2 := List.append_inj_left' h (by simp)
  have e3 := List.append_inj_right' e2 (by simp)
  have e4 := List.append_inj_left' e2 (by simp)
  have lc : ct.length = ct'.length := by
    have := congrArg leint e1
    rw [leint_le64, leint_le64, Nat.mod_eq_of_lt hc, Nat.mod_eq_of_lt hc'] at this
    exact this
  have la : aad.length = aad'.length := by
    have := congrArg leint e3
    rw [leint_le64, leint_le64, Nat.mod_eq_of_lt ha, Nat.mod_eq_of_lt ha'] at this
    exact this
  have e5 := List.append_inj_left' e4 (by rw [lc])
  exact ⟨List.append_inj_left' (List.append_inj_left' e5 lc) (by rw [la]), List.append_inj_right' e5 lc⟩

end Sys2Proof.Machine
end

