-- ==== Sys2Proof/Laws/Memory.lean ====
section
/-! SUPPORT. Buffers: every operation keeps the canonical form, and a read after a write gives what was written there
and the old byte elsewhere (rule R36). -/

namespace Sys2Proof.Machine

theorem Memory.wfFrom_cons {lo k : Nat} {v : Byte} {m : Memory} :
    Memory.wfFrom lo ((k, v) :: m) = true ↔ lo ≤ k ∧ v ≠ unlistedByte ∧ Memory.wfFrom (k + 1) m = true := by
  simp [Memory.wfFrom, and_assoc]

theorem Memory.wfFrom_mono {lo lo' : Nat} {m : Memory} (hle : lo' ≤ lo) (h : Memory.wfFrom lo m = true) :
    Memory.wfFrom lo' m = true := by
  cases m with
  | nil => rfl
  | cons c m =>
    obtain ⟨k, v⟩ := c
    rw [Memory.wfFrom_cons] at h ⊢
    exact ⟨hle.trans h.1, h.2⟩

/-- Below its first address a buffer holds nothing. -/
theorem Memory.read_below {lo : Nat} {m : Memory} (h : Memory.wfFrom lo m = true) {a : Nat} (ha : a < lo) :
    m.read a = unlistedByte := by
  induction m generalizing lo with
  | nil => rfl
  | cons c m ih =>
    obtain ⟨k, v⟩ := c
    rw [Memory.wfFrom_cons] at h
    rw [Memory.read, if_neg (by omega)]
    exact ih h.2.2 (by omega)

theorem Memory.wfFrom_write {lo : Nat} {m : Memory} (h : Memory.wfFrom lo m = true) {a : Nat} (ha : lo ≤ a) (v : Byte) :
    Memory.wfFrom lo (m.write a v) = true := by
  induction m generalizing lo with
  | nil =>
    rw [Memory.write]
    split
    · rfl
    · rw [Memory.wfFrom_cons]; exact ⟨ha, ‹_›, rfl⟩
  | cons c m ih =>
    obtain ⟨k, w⟩ := c
    have h' := Memory.wfFrom_cons.mp h
    rw [Memory.write]
    split
    · split
      · exact h
      · rw [Memory.wfFrom_cons]
        exact ⟨ha, ‹_›, Memory.wfFrom_cons.mpr ⟨by omega, h'.2⟩⟩
    · split
      · split
        · exact Memory.wfFrom_mono (by omega) h'.2.2
        · rw [Memory.wfFrom_cons]; exact ⟨ha, ‹_›, by subst a; exact h'.2.2⟩
      · rw [Memory.wfFrom_cons]
        exact ⟨h'.1, h'.2.1, ih h'.2.2 (by omega)⟩

/-- A write keeps the canonical form. -/
theorem Memory.wf_write {m : Memory} (h : m.wf = true) (a : Nat) (v : Byte) : (m.write a v).wf = true :=
  Memory.wfFrom_write h (Nat.zero_le a) v

theorem Memory.read_write_from {lo : Nat} {m : Memory} (h : Memory.wfFrom lo m = true) (a : Nat) (v : Byte) (b : Nat) :
    (m.write a v).read b = if b = a then v else m.read b := by
  induction m generalizing lo with
  | nil =>
    rw [Memory.write]
    by_cases hv : v = unlistedByte
    · simp [hv, Memory.read]
    · rw [if_neg hv]
      by_cases hb : b = a
      · simp [Memory.read, hb]
      · simp [Memory.read, hb, Ne.symm hb]
  | cons c m ih =>
    obtain ⟨k, w⟩ := c
    have h' := Memory.wfFrom_cons.mp h
    rw [Memory.write]
    split
    · rename_i hlt
      have hbelow : Memory.read ((k, w) :: m) a = unlistedByte := by
        rw [Memory.read, if_neg (by omega)]
        exact Memory.read_below h'.2.2 (by omega)
      split
      · rename_i hv
        by_cases hb : b = a
        · rw [if_pos hb, hb, hbelow, hv]
        · rw [if_neg hb]
      · rw [Memory.read]
        by_cases hb : b = a
        · rw [if_pos hb.symm, if_pos hb]
        · rw [if_neg (Ne.symm hb), if_neg hb]
    · split
      · rename_i hk
        subst hk
        split
        · rename_i hv
          by_cases hb : b = a
          · rw [if_pos hb, hb, hv]; exact Memory.read_below h'.2.2 (by omega)
          · rw [if_neg hb]
            conv_rhs => rw [Memory.read, if_neg (Ne.symm hb)]
        · by_cases hb : b = a
          · rw [Memory.read, if_pos hb.symm, if_pos hb]
          · rw [Memory.read, if_neg (Ne.symm hb), if_neg hb]
            conv_rhs => rw [Memory.read, if_neg (Ne.symm hb)]
      · rename_i hlt hk
        have hi := ih h'.2.2
        rw [Memory.read]
        by_cases hkb : k = b
        · rw [if_pos hkb, if_neg (by omega)]
          conv_rhs => rw [Memory.read, if_pos hkb]
        · rw [if_neg hkb, hi]
          conv_rhs => rw [Memory.read, if_neg hkb]

/-- A read after a write of one byte. -/
theorem Memory.read_write {m : Memory} (h : m.wf = true) (a : Nat) (v : Byte) (b : Nat) :
    (m.write a v).read b = if b = a then v else m.read b :=
  Memory.read_write_from h a v b

theorem Memory.within_write {m : Memory} {size : Nat} (h : m.within size = true) {a : Nat} (ha : a < size) (v : Byte) :
    (m.write a v).within size = true := by
  induction m with
  | nil =>
    rw [Memory.write]
    split <;> simp [Memory.within, ha]
  | cons c m ih =>
    obtain ⟨k, w⟩ := c
    have h' : k < size ∧ Memory.within size m = true := by simpa [Memory.within] using h
    have ih' : Memory.within size (Memory.write m a v) = true := ih h'.2
    rw [Memory.write]
    split
    · split
      · exact h
      · simpa [Memory.within, ha] using h
    · split
      · split
        · exact h'.2
        · simpa [Memory.within, ha] using h'.2
      · simpa [Memory.within, h'.1] using ih'

/-! ## Byte strings -/

@[simp] theorem Memory.length_readBytes (m : Memory) (a n : Nat) : (m.readBytes a n).length = n := by
  induction n generalizing a with
  | zero => rfl
  | succ n ih => simp [Memory.readBytes, ih]

theorem Memory.getElem_readBytes (m : Memory) (a n i : Nat) (h : i < (m.readBytes a n).length) :
    (m.readBytes a n)[i] = m.read (a + i) := by
  induction n generalizing a i with
  | zero => simp at h
  | succ n ih =>
    cases i with
    | zero => rfl
    | succ i =>
      simp only [Memory.readBytes, List.getElem_cons_succ]
      rw [ih (a + 1) i (by simpa [Memory.readBytes] using h)]
      congr 1; omega

theorem Memory.wf_writeBytes {m : Memory} (h : m.wf = true) (a : Nat) (v : List Byte) :
    (m.writeBytes a v).wf = true := by
  induction v generalizing m a with
  | nil => exact h
  | cons b v ih => exact ih (Memory.wf_write h a b) (a + 1)

theorem Memory.within_writeBytes {m : Memory} {size : Nat} (h : m.within size = true) {a : Nat} {v : List Byte}
    (hv : a + v.length ≤ size) : (m.writeBytes a v).within size = true := by
  induction v generalizing m a with
  | nil => exact h
  | cons b v ih =>
    simp only [List.length_cons] at hv
    exact ih (Memory.within_write h (by omega) b) (by omega)

/-- Outside the bytes written every address reads as before. -/
theorem Memory.read_writeBytes_outside {m : Memory} (h : m.wf = true) {a : Nat} {v : List Byte} {b : Nat}
    (hb : b < a ∨ a + v.length ≤ b) : (m.writeBytes a v).read b = m.read b := by
  induction v generalizing m a with
  | nil => rfl
  | cons c v ih =>
    simp only [List.length_cons] at hb
    rw [Memory.writeBytes, ih (Memory.wf_write h a c) (by omega), Memory.read_write h, if_neg (by omega)]

/-- The bytes written are read back. -/
theorem Memory.read_writeBytes_inside {m : Memory} (h : m.wf = true) {a : Nat} {v : List Byte} {i : Nat}
    (hi : i < v.length) : (m.writeBytes a v).read (a + i) = v[i] := by
  induction v generalizing m a i with
  | nil => simp at hi
  | cons c v ih =>
    cases i with
    | zero =>
      rw [Memory.writeBytes, Memory.read_writeBytes_outside (Memory.wf_write h a c) (by omega), Memory.read_write h]
      simp
    | succ i =>
      have := ih (m := m.write a c) (Memory.wf_write h a c) (a := a + 1) (i := i) (by simpa using hi)
      rw [Memory.writeBytes, show a + (i + 1) = a + 1 + i by omega, this]
      rfl

/-- MemRead of what MemWrite wrote. -/
theorem Memory.readBytes_writeBytes {m : Memory} (h : m.wf = true) (a : Nat) (v : List Byte) :
    (m.writeBytes a v).readBytes a v.length = v := by
  apply List.ext_getElem
  · simp
  · intro i h1 h2
    rw [Memory.getElem_readBytes, Memory.read_writeBytes_inside h h2]

end Sys2Proof.Machine
end

