-- ==== Sys2Proof/Laws/Commands.lean ====
section
/-! SUPPORT. What each command leaves, in terms of what its rule computes: the scratch registers' path through a command
is gone, since a command's end releases them (rule R22). -/

namespace Sys2Proof.Machine

/-! ## A command's end forgets scratch state -/

@[simp] theorem State.finish_withScratch (s : State) (sc : Scratch) : (s.withScratch sc).finish = s.finish := rfl

@[simp] theorem State.raise_withScratch (s : State) (sc : Scratch) (e : CmdError) :
    (s.withScratch sc).raise e = s.raise e := rfl

@[simp] theorem State.setOutLen_setOutLen (s : State) (m n : BitVec 64) :
    (s.setOutLen m).setOutLen n = s.setOutLen n := rfl

/-! ## The checks do not read OUT_LEN or scratch state -/

@[simp] theorem State.streamError_setOutLen (s : State) (n : BitVec 64) :
    (s.setOutLen n).streamError = s.streamError := rfl

@[simp] theorem State.encryptError_setOutLen (s : State) (n : BitVec 64) :
    (s.setOutLen n).encryptError = s.encryptError := rfl

@[simp] theorem State.decryptError_setOutLen (s : State) (n : BitVec 64) :
    (s.setOutLen n).decryptError = s.decryptError := rfl

/-! ## What the two composers' commands leave -/

/-- The end of an encrypt command under (key, nonce), its checks passed. -/
def State.encrypted (s : State) (key : Bytes 32) (nonce : Bytes 12) : State :=
  ((s.writeOut 0 (sealBytes s.cfg key nonce s.assocData s.input s.ctr)).setOutLen (s.inLen + 16#64)).finish

/-- The end of a decrypt command under (key, nonce), its checks before the tag passed. -/
def State.decrypted (s : State) (key : Bytes 32) (nonce : Bytes 12) : State :=
  match openBytes s.cfg key nonce s.assocData s.input s.ctr with
  | some pt => ((s.writeOut 0 pt).setOutLen (s.inLen - 16#64)).finish
  | none => (s.setOutLen 0#64).raise .authenticationFailure

/-- Where a data command stands after its checks: the first that failed ends it with OUT_LEN = 0 (rule R159). -/
def State.checkedBy (s : State) (err : Option CmdError) (t : State) : State :=
  match err with
  | some e => (s.setOutLen 0#64).raise e
  | none => t

theorem execCcblock_eq (s : State) :
    execCcblock s = .next (if s.ckValid then (s.setKs (block s.ck s.ctr s.nonce12)).finish else s.raise .noKey) := by
  rw [execCcblock, Scratch.block_eq]
  cases s.ckValid <;> rfl

theorem execHchacha_eq (s : State) :
    execHchacha s =
      .next (if s.ckValid then (s.setResult (hchacha20 s.ck s.nonce16)).finish else s.raise .noKey) := by
  rw [execHchacha, Scratch.hchacha20_eq]
  cases s.ckValid <;> rfl

theorem execCcxor_eq (s : State) :
    execCcxor s =
      .next (s.checkedBy s.streamError
        (((s.writeOut 0 (xorStream s.ck s.ctr s.nonce12 s.input)).setOutLen s.inLen).finish)) := by
  rw [execCcxor]
  simp only [State.streamError_setOutLen, Scratch.xorStream_out]
  cases s.streamError <;> rfl

theorem execAeadenc_eq (s : State) :
    execAeadenc s = .next (s.checkedBy s.encryptError (s.encrypted s.ck s.nonce12)) := by
  rw [execAeadenc]
  simp only [State.encryptError_setOutLen, State.encryptWith_eq]
  cases s.encryptError <;> rfl

theorem execAeaddec_eq (s : State) :
    execAeaddec s = .next (s.checkedBy s.decryptError (s.decrypted s.ck s.nonce12)) := by
  rw [execAeaddec]
  simp only [State.decryptError_setOutLen, State.decryptWith_eq]
  cases s.decryptError <;> rfl

theorem execXaeadenc_eq (s : State) :
    execXaeadenc s =
      .next (s.checkedBy s.encryptError (s.encrypted (hchacha20 s.ck (slice s.nonce 0 16)) (xnonce s.nonce))) := by
  obtain ⟨sc, h, hk, hn⟩ := (s.setOutLen 0#64).xderive_eq s.ck s.nonce
  rw [execXaeadenc]
  simp only [State.encryptError_setOutLen, State.encryptWith_eq, State.setOutLen_ck, State.setOutLen_nonce, h,
    State.withScratch_scratch, hk, hn]
  cases s.encryptError <;> rfl

theorem execXaeaddec_eq (s : State) :
    execXaeaddec s =
      .next (s.checkedBy s.decryptError (s.decrypted (hchacha20 s.ck (slice s.nonce 0 16)) (xnonce s.nonce))) := by
  obtain ⟨sc, h, hk, hn⟩ := (s.setOutLen 0#64).xderive_eq s.ck s.nonce
  rw [execXaeaddec]
  simp only [State.decryptError_setOutLen, State.decryptWith_eq, State.setOutLen_ck, State.setOutLen_nonce, h,
    State.withScratch_scratch, hk, hn]
  cases s.decryptError <;> rfl

/-! ## When the checks pass -/

/-- CTRCHECK passes (rule R67). -/
theorem ctrOverflows_eq_false {c : Config} {base : Word} {n : Nat} :
    ctrOverflows c base n = false ↔
      c.ctrOverflow = .wrap ∨ n = 0 ∨ base.toNat + (n + 63) / 64 - 1 ≤ 2 ^ 32 - 1 := by
  rw [ctrOverflows]
  cases c.ctrOverflow
  · simp [segments]
    omega
  · simp

theorem firstError_eq_none {l : List (Bool × CmdError)} : firstError l = none ↔ ∀ c ∈ l, c.1 = false := by
  induction l with
  | nil => simp [firstError]
  | cons c l ih =>
    obtain ⟨b, e⟩ := c
    cases b <;> simp [firstError, ih]

theorem State.streamError_eq_none {s : State} :
    s.streamError = none ↔ s.ckValid = true ∧ s.inLen.toNat ≤ s.cfg.dataMax.val ∧
      ctrOverflows s.cfg s.ctr s.inLen.toNat = false := by
  rw [State.streamError, firstError_eq_none]
  simp

theorem State.encryptError_eq_none {s : State} :
    s.encryptError = none ↔ s.ckValid = true ∧ s.inLen.toNat ≤ s.cfg.dataMax.val ∧
      s.aadLen.toNat ≤ s.cfg.aadMax.val ∧ ctrOverflows s.cfg s.ctr s.inLen.toNat = false := by
  rw [State.encryptError, firstError_eq_none]
  simp [and_assoc]

theorem State.decryptError_eq_none {s : State} :
    s.decryptError = none ↔ s.ckValid = true ∧ s.inLen.toNat ≤ s.cfg.dataMax.val + 16 ∧
      s.aadLen.toNat ≤ s.cfg.aadMax.val ∧ minDec s.cfg ≤ s.inLen.toNat ∧
      ctrOverflows s.cfg s.ctr (s.inLen.toNat - 16) = false := by
  rw [State.decryptError, firstError_eq_none]
  simp [and_assoc]

end Sys2Proof.Machine
end

