-- ==== Sys2Proof/Laws/Decode.lean ====
section
/-! SUPPORT. The fields of a field-port word, and what the decoder's checks let through (rules R45, R53, R55). -/

namespace Sys2Proof

/-- The fields of the word built from four fields. -/
theorem nibble_fopWord (fopc d a b : Fin 16) :
    nibble (fopWord fopc d a b) 3 = fopc ∧ nibble (fopWord fopc d a b) 2 = d ∧ nibble (fopWord fopc d a b) 1 = a ∧
      nibble (fopWord fopc d a b) 0 = b := by
  have := fopc.isLt
  have := d.isLt
  have := a.isLt
  have := b.isLt
  simp only [nibble, fopWord, BitVec.toNat_ofNat, Fin.ext_iff]
  omega

/-- The word built from a word's own fields. -/
theorem fopWord_nibble (w : BitVec 16) : fopWord (nibble w 3) (nibble w 2) (nibble w 1) (nibble w 0) = w := by
  have := w.isLt
  apply BitVec.eq_of_toNat_eq
  simp only [nibble, fopWord, BitVec.toNat_ofNat]
  omega

theorem decodeFop_fopWord (fopc d a b : Fin 16) : decodeFop (fopWord fopc d a b) = decodeFields fopc d a b := by
  obtain ⟨h3, h2, h1, h0⟩ := nibble_fopWord fopc d a b
  rw [decodeFop, h3, h2, h1, h0]

/-- An instruction that passes the register check is the one given, and well formed. -/
theorem checked_instr {i j : Instr} (h : checked i = .instr j) : i = j ∧ j.wf = true := by
  rw [checked] at h
  split at h
  · cases h; exact ⟨rfl, ‹_›⟩
  · exact absurd h nofun

/-- A word that passes the unused-field check has zeros there. -/
theorem unusedZero_instr {l : List (Fin 16)} {d : Decoded} {j : Instr} (h : unusedZero l d = .instr j) :
    d = .instr j ∧ ∀ x ∈ l, x = 0 := by
  rw [unusedZero] at h
  split at h
  · rename_i hz
    exact ⟨h, by simpa using hz⟩
  · exact absurd h nofun

end Sys2Proof
end

