-- ==== Sys2Proof/Laws/Ladder.lean ====
section
/-! SUPPORT. The ladder: what a schedule can change, one iteration as the four formulas of rule R130, and the whole scalar
multiplication as the function `x25519` of the scalar and the point (rules R126 to R132). -/

namespace Sys2Proof.Machine

/-! ## Schedules -/

theorem runSchedule_append (a b : List Control) (s : State) :
    runSchedule (a ++ b) s = runSchedule b (runSchedule a s) := by
  induction a generalizing s with
  | nil => rfl
  | cons c a ih => exact ih (runControl c s)

/-- Port words alone are issued in order. -/
theorem runSchedule_issue (is : List Instr) (s : State) : runSchedule (is.map .issue) s = issueAll is s := by
  induction is generalizing s with
  | nil => rfl
  | cons i is ih => exact ih (Sys2Proof.Machine.issue i s)

/-- An item of a schedule changes scratch state and RESULT only. -/
theorem runControl_frame (c : Control) (s : State) : ∃ sc r, runControl c s = (s.withScratch sc).setResult r := by
  cases c with
  | issue i => exact issue_frame i s
  | clearPrev => exact ⟨{ s.scratch with prev := false }, s.result, rfl⟩
  | selectBit t =>
    exact ⟨{ s.scratch with t := t, swap := xor (scalarBit s.scratch.e t) s.scratch.prev }, s.result, rfl⟩
  | keepBit t => exact ⟨{ s.scratch with prev := scalarBit s.scratch.e t }, s.result, rfl⟩
  | lastSwap => exact ⟨{ s.scratch with swap := s.scratch.prev }, s.result, rfl⟩

/-- A schedule changes scratch state and RESULT only. -/
theorem runSchedule_frame (cs : List Control) (s : State) :
    ∃ sc r, runSchedule cs s = (s.withScratch sc).setResult r := by
  induction cs generalizing s with
  | nil => exact ⟨s.scratch, s.result, rfl⟩
  | cons c cs ih =>
    obtain ⟨sc, r, h⟩ := runControl_frame c s
    obtain ⟨sc', r', h'⟩ := ih (runControl c s)
    exact ⟨sc', r', by rw [runSchedule, h', h]; rfl⟩

/-! ## The field registers -/

/-- What an operation of the ladder step does to the field registers, with SWAP standing. -/
def fieldFile (swap : Bool) (f : Vector Fe 16) : Instr → Vector Fe 16
  | .fadd d a b => f.set d (feAdd f[a] f[b])
  | .fsub d a b => f.set d (feSub f[a] f[b])
  | .fmul d a b => f.set d (feMul f[a] f[b])
  | .fsqr d a => f.set d (feSqr f[a])
  | .finv d a => f.set d (feInv f[a])
  | .fcswap a b => if swap then (f.set a f[b]).set b f[a] else f
  | _ => f

/-- The operations that change field registers only. -/
def onFieldFile : Instr → Bool
  | .fadd _ _ _ => true
  | .fsub _ _ _ => true
  | .fmul _ _ _ => true
  | .fsqr _ _ => true
  | .finv _ _ => true
  | .fcswap _ _ => true
  | _ => false

theorem issue_onFieldFile {i : Instr} (h : onFieldFile i = true) (s : State) :
    issue i s = s.withScratch { s.scratch with f := fieldFile s.scratch.swap s.scratch.f i } := by
  cases i <;> first
    | (simp [onFieldFile] at h; done)
    | rfl
    | (rw [issue, fcswapEffect, fieldFile]; split <;> rfl)

/-- Operations on field registers, one after the other. -/
theorem issueAll_onFieldFile (is : List Instr) (h : ∀ i ∈ is, onFieldFile i = true) (s : State) :
    issueAll is s = s.withScratch { s.scratch with f := is.foldl (fieldFile s.scratch.swap) s.scratch.f } := by
  induction is generalizing s with
  | nil => rfl
  | cons i is ih =>
    rw [issueAll, issue_onFieldFile (h i (by simp)), ih (fun j hj => h j (by simp [hj]))]
    rfl

/-- The pairs a field-register file holds in F1 to F4. -/
def pairOf (f : Vector Fe 16) : LadderPair := { x2 := f[1], z2 := f[2], x3 := f[3], z3 := f[4] }

/-- Rule R130 on the field registers. -/
theorem ladderStep_file (swap : Bool) (f : Vector Fe 16) (h5 : f[5] = Fe.ofNat 121665) :
    pairOf (ladderStep.foldl (fieldFile swap) f) = ((pairOf f).cswap swap).advance f[0] ∧
      (ladderStep.foldl (fieldFile swap) f)[0] = f[0] ∧ (ladderStep.foldl (fieldFile swap) f)[5] = f[5] := by
  cases swap <;>
    simp [ladderStep, fieldFile, pairOf, LadderPair.cswap, LadderPair.swapped, LadderPair.advance, h5]

/-! ## Iterations -/

theorem ladderStep_onFieldFile : ∀ i ∈ ladderStep, onFieldFile i = true := by decide

/-- The pairs of a state. -/
def State.pair (s : State) : LadderPair := pairOf s.scratch.f

/-- One iteration in full (rules R129, R130). -/
theorem runSchedule_ladderIteration_eq (t : Nat) (s : State) :
    runSchedule (ladderIteration t) s =
      s.withScratch { s.scratch with
        t := t, swap := xor (scalarBit s.scratch.e t) s.scratch.prev, prev := scalarBit s.scratch.e t,
        f := ladderStep.foldl (fieldFile (xor (scalarBit s.scratch.e t) s.scratch.prev)) s.scratch.f } := by
  rw [ladderIteration, List.cons_append, runSchedule, runSchedule_append, runSchedule_issue,
    issueAll_onFieldFile _ ladderStep_onFieldFile]
  simp only [runSchedule, runControl, State.withScratch_scratch]
  generalize ladderStep.foldl (fieldFile (xor (scalarBit s.scratch.e t) s.scratch.prev)) s.scratch.f = f
  rfl

/-- One iteration: the pairs advance, PREV is the bit, and F0, F5, E stay. -/
theorem runSchedule_ladderIteration (t : Nat) (s : State) (h5 : s.scratch.f[5] = Fe.ofNat 121665) :
    let r := runSchedule (ladderIteration t) s
    let b := scalarBit s.scratch.e t
    r.pair = (s.pair.cswap (xor b s.scratch.prev)).advance s.scratch.f[0] ∧ r.scratch.prev = b ∧
      r.scratch.f[0] = s.scratch.f[0] ∧ r.scratch.f[5] = s.scratch.f[5] ∧ r.scratch.e = s.scratch.e := by
  have hs := ladderStep_file (xor (scalarBit s.scratch.e t) s.scratch.prev) s.scratch.f h5
  rw [runSchedule_ladderIteration_eq]
  generalize ladderStep.foldl (fieldFile (xor (scalarBit s.scratch.e t) s.scratch.prev)) s.scratch.f = f at hs
  exact ⟨hs.1, rfl, hs.2.1, hs.2.2, rfl⟩

/-- The iterations from `n - 1` down to 0 (rule R129). -/
theorem runSchedule_ladderLoop (n : Nat) (s : State) (h5 : s.scratch.f[5] = Fe.ofNat 121665) :
    let r := runSchedule (ladderLoop n) s
    (r.pair, r.scratch.prev) = ladderPairs s.scratch.e s.scratch.f[0] n s.scratch.prev s.pair := by
  induction n generalizing s with
  | zero => rfl
  | succ n ih =>
    obtain ⟨hp, hb, h0, h5', he⟩ := runSchedule_ladderIteration n s h5
    have hi := ih (runSchedule (ladderIteration n) s) (by rw [h5', h5])
    rw [ladderLoop, runSchedule_append, ladderPairs]
    simp only at hi ⊢
    rw [hi, he, h0, hb, hp]

/-! ## The scalar multiplication -/

/-- After the prologue (rule R128): the pairs (1:0) and (u:1), X1 = u, and the constant. -/
theorem issueAll_ladderPrologue (s : State) :
    ∃ f, issueAll ladderPrologue s = s.withScratch { s.scratch with f := f } ∧
      f[0] = feDec (s.fdecBytes .u) ∧ f[5] = Fe.ofNat 121665 ∧
      pairOf f = { x2 := Fe.ofNat 1, z2 := Fe.ofNat 0, x3 := feDec (s.fdecBytes .u), z3 := Fe.ofNat 1 } := by
  have h1 : feDec (leBytes 32 1) = Fe.ofNat 1 := by decide +kernel
  have h0 : feDec (leBytes 32 0) = Fe.ofNat 0 := by decide +kernel
  have ha : feDec (leBytes 32 121665) = Fe.ofNat 121665 := by decide +kernel
  refine ⟨(((((s.scratch.f.set 0 (feDec (s.fdecBytes .u))).set 1 (feDec (leBytes 32 1))).set 2
    (feDec (leBytes 32 0))).set 3 (feDec (s.fdecBytes .u))).set 4 (feDec (leBytes 32 1))).set 5
    (feDec (leBytes 32 121665)), ?_, ?_⟩
  · simp only [ladderPrologue, issueAll, issue, fdecEffect, State.setFe, State.withScratch, State.fdecBytes]
    rfl
  · simp [pairOf, h1, h0, ha]

theorem ladderEpilogue_eq : ladderEpilogue = [.fcswap 1 3, .fcswap 2 4, .finv 2 2, .fmul 1 1 2] ++ [.fenc 1] := rfl

/-- The epilogue's operations on the field registers. -/
theorem ladderEpilogue_file (swap : Bool) (f : Vector Fe 16) :
    ([.fcswap 1 3, .fcswap 2 4, .finv 2 2, .fmul 1 1 2].foldl (fieldFile swap) f)[1] =
      feMul ((pairOf f).cswap swap).x2 (feInv ((pairOf f).cswap swap).z2) := by
  cases swap <;> simp [fieldFile, pairOf, LadderPair.cswap, LadderPair.swapped]

/-- After the epilogue (rule R131), SWAP standing: RESULT is X2 * Z2^-1 encoded. -/
theorem result_ladderEpilogue (s : State) :
    (issueAll ladderEpilogue s).result =
      feEnc (feMul (s.pair.cswap s.scratch.swap).x2 (feInv (s.pair.cswap s.scratch.swap).z2)) := by
  rw [ladderEpilogue_eq, issueAll_append, issueAll_onFieldFile [.fcswap 1 3, .fcswap 2 4, .finv 2 2, .fmul 1 1 2]
    (by decide), State.pair, ← ladderEpilogue_file]
  generalize List.foldl (fieldFile s.scratch.swap) s.scratch.f _ = f
  rfl

/-- The last swap and the epilogue, from pairs and a last bit (rule R131). -/
theorem result_lastSwap (s : State) (q : LadderPair × Bool) (h : (s.pair, s.scratch.prev) = q) :
    (issueAll ladderEpilogue (runControl .lastSwap s)).result =
      feEnc (feMul (q.1.cswap q.2).x2 (feInv (q.1.cswap q.2).z2)) := by
  have h1 : (runControl .lastSwap s).pair = s.pair := rfl
  have h2 : (runControl .lastSwap s).scratch.swap = s.scratch.prev := rfl
  rw [result_ladderEpilogue, h1, h2, ← h]

/-- From the prologue's values on: `n` iterations, the last swap and the epilogue. -/
theorem result_ladder (n : Nat) (scalar point : Bytes 32) (s : State) (he : s.scratch.e = clamp scalar)
    (hp : s.scratch.prev = false) (h0 : s.scratch.f[0] = feDec point) (h5 : s.scratch.f[5] = Fe.ofNat 121665)
    (hf : s.pair = { x2 := Fe.ofNat 1, z2 := Fe.ofNat 0, x3 := feDec point, z3 := Fe.ofNat 1 })
    (q : LadderPair × Bool)
    (hq : ladderPairs (clamp scalar) (feDec point) n false
      { x2 := Fe.ofNat 1, z2 := Fe.ofNat 0, x3 := feDec point, z3 := Fe.ofNat 1 } = q) :
    (issueAll ladderEpilogue (runControl .lastSwap (runSchedule (ladderLoop n) s))).result =
      feEnc (feMul (q.1.cswap q.2).x2 (feInv (q.1.cswap q.2).z2)) := by
  have hl := runSchedule_ladderLoop n s h5
  rw [he, hp, h0, hf, hq] at hl
  exact result_lastSwap _ q hl

/-- The whole schedule, with the clamped scalar in E, leaves `x25519` of the scalar and U in RESULT. -/
theorem result_ladderSchedule (scalar : Bytes 32) (s : State) (he : s.scratch.e = clamp scalar) :
    (runSchedule ladderSchedule s).result = x25519 scalar (s.fdecBytes .u) := by
  obtain ⟨f, hf, f0, f5, fp⟩ := issueAll_ladderPrologue s
  rw [ladderSchedule, runSchedule_append, runSchedule_append, runSchedule_append, runSchedule_append, runSchedule_issue,
    runSchedule_issue, hf, runSchedule, runSchedule, runSchedule, runSchedule]
  exact result_ladder 255 scalar _ (runControl .clearPrev (s.withScratch { s.scratch with f := f })) he rfl f0 f5 fp _ rfl

/-- SCALARMULT leaves the function `x25519` of the scalar and the point in RESULT, and changes only scratch state
beside (rules R132, R133). -/
theorem State.scalarMult_eq (s : State) (scalar : Bytes 32) (base : Bool) :
    ∃ sc, s.scalarMult scalar base =
      (s.withScratch sc).setResult (x25519 scalar (if base then basePoint else s.point)) := by
  have hr : (s.scalarMult scalar base).result = x25519 scalar (if base then basePoint else s.point) := by
    rw [State.scalarMult, result_ladderSchedule scalar _ rfl]
    rfl
  obtain ⟨sc, r, h⟩ :=
    runSchedule_frame ladderSchedule (s.withScratch { s.scratch with e := clamp scalar, uBase := base })
  refine ⟨sc, ?_⟩
  rw [← hr, State.scalarMult, h]
  rfl

theorem execSkpub_eq (s : State) :
    execSkpub s = .next (if s.skValid then (s.setResult (x25519 s.sk basePoint)).finish else s.raise .noKey) := by
  obtain ⟨sc, h⟩ := s.scalarMult_eq s.sk true
  rw [execSkpub, h]
  cases s.skValid <;> rfl

theorem execSkexch_eq (s : State) :
    execSkexch s = .next (if s.skValid then (s.setResult (x25519 s.sk s.point)).finish else s.raise .noKey) := by
  obtain ⟨sc, h⟩ := s.scalarMult_eq s.sk false
  rw [execSkexch, h]
  cases s.skValid <;> rfl

end Sys2Proof.Machine
end

