-- ==== Sys2Proof/Laws/Ends.lean ====
section
/-! SUPPORT. Everything an instruction can do, said once: the ends of a command (rules R43, R159), and the frame of a port
operation (rule R122). -/

namespace Sys2Proof.Machine

/-! ## Commands -/

/-- The state a failing command leaves before its flags: OUT_LEN and KEYIN (rule R159). -/
def State.failing (s : State) (i : Instr) : State :=
  let s := if isData i then s.setOutLen 0#64 else s
  if isLoad i then s.wipeKeyin else s

/-- The states a command can end in. -/
inductive CommandEnd (i : Instr) (s : State) : State → Prop where
  | failed (e : CmdError) : CommandEnd i s ((s.failing i).raise e)
  | wroteOut (v : List Byte) (n : BitVec 64) (hd : isData i = true) (hv : v.length ≤ s.cfg.dataMax.val + 16)
      (hn : n.toNat ≤ s.cfg.dataMax.val + 16) : CommandEnd i s ((s.writeOut 0 v).setOutLen n).finish
  | loadedCk (hi : i = .ckload) : CommandEnd i s ((s.loadCk s.keyin).wipeKeyin).finish
  | loadedSk (hi : i = .skload) : CommandEnd i s ((s.loadSk s.keyin).wipeKeyin).finish
  | droppedSk (hi : i = .skdrop) : CommandEnd i s s.dropSk.finish
  | wroteKs (v : Bytes 64) (hi : i = .ccblock) : CommandEnd i s (s.setKs v).finish
  | wroteResult (v : Bytes 32) (hi : i = .hchacha ∨ i = .skpub ∨ i = .skexch) : CommandEnd i s (s.setResult v).finish

/-- A data command ends in its first failing check, or as it ends when they pass. -/
theorem CommandEnd.checkedBy {i : Instr} {s t : State} {err : Option CmdError} (hd : isData i = true)
    (hl : isLoad i = false) (h : err = none → CommandEnd i s t) : CommandEnd i s (s.checkedBy err t) := by
  cases err with
  | none => exact h rfl
  | some e =>
    have hf : s.failing i = s.setOutLen 0#64 := by rw [State.failing, if_pos hd, if_neg (by simp [hl])]
    have hc := CommandEnd.failed (i := i) (s := s) e
    rw [hf] at hc
    exact hc

theorem length_openBytes {c : Config} {key : Bytes 32} {nonce : Bytes 12} {aad input pt : List Byte} {ctr : Word}
    (h : openBytes c key nonce aad input ctr = some pt) : pt.length = input.length - 16 := by
  rw [openBytes] at h
  split at h
  · cases h
    simp
  · exact absurd h nofun

theorem CommandEnd.encrypted {i : Instr} {s : State} (hd : isData i = true) (h : s.encryptError = none) (key : Bytes 32)
    (nonce : Bytes 12) : CommandEnd i s (s.encrypted key nonce) := by
  have hm := s.cfg.dataMax.isLt
  obtain ⟨-, h2, -⟩ := State.encryptError_eq_none.mp h
  refine .wroteOut _ _ hd ?_ ?_
  · rw [length_sealBytes, State.input, State.memRead, Memory.length_readBytes]
    omega
  · rw [BitVec.toNat_add]
    simp
    omega

theorem CommandEnd.decrypted {i : Instr} {s : State} (hd : isData i = true) (hl : isLoad i = false)
    (h : s.decryptError = none) (key : Bytes 32) (nonce : Bytes 12) : CommandEnd i s (s.decrypted key nonce) := by
  obtain ⟨-, h2, -, h3, -⟩ := State.decryptError_eq_none.mp h
  have h16 : 16 ≤ minDec s.cfg := by rw [minDec]; split <;> omega
  rw [State.decrypted]
  split
  · rename_i pt hp
    have hpt := length_openBytes hp
    rw [State.input, State.memRead, Memory.length_readBytes] at hpt
    refine .wroteOut _ _ hd (by omega) ?_
    rw [BitVec.toNat_sub_of_le (by rw [BitVec.le_def]; simp; omega)]
    simp
    omega
  · exact CommandEnd.checkedBy (err := some .authenticationFailure) (t := s) hd hl nofun

/-- Every command ends in one of these states. -/
theorem exec_command {i : Instr} (hi : isCommand i = true) (s : State) : ∃ t, exec i s = .next t ∧ CommandEnd i s t := by
  have hm := s.cfg.dataMax.isLt
  cases i
  case minit | mupd | mtag | mvfy | fdec | fenc | fadd | fsub | fmul | fsqr | finv | fcswap =>
    exact absurd hi (by simp [isCommand, encode])
  case ckload =>
    rw [exec, execCkload]
    split
    · exact ⟨_, rfl, .failed .invalidKeyLength⟩
    · exact ⟨_, rfl, .loadedCk rfl⟩
  case skload =>
    rw [exec, execSkload]
    split
    · exact ⟨_, rfl, .failed .invalidKeyLength⟩
    · exact ⟨_, rfl, .loadedSk rfl⟩
  case skdrop => exact ⟨_, rfl, .droppedSk rfl⟩
  case ccblock =>
    rw [exec, execCcblock_eq]
    split
    · exact ⟨_, rfl, .wroteKs _ rfl⟩
    · exact ⟨_, rfl, .failed .noKey⟩
  case hchacha =>
    rw [exec, execHchacha_eq]
    split
    · exact ⟨_, rfl, .wroteResult _ (.inl rfl)⟩
    · exact ⟨_, rfl, .failed .noKey⟩
  case skpub =>
    rw [exec, execSkpub_eq]
    split
    · exact ⟨_, rfl, .wroteResult _ (.inr (.inl rfl))⟩
    · exact ⟨_, rfl, .failed .noKey⟩
  case skexch =>
    rw [exec, execSkexch_eq]
    split
    · exact ⟨_, rfl, .wroteResult _ (.inr (.inr rfl))⟩
    · exact ⟨_, rfl, .failed .noKey⟩
  case ccxor =>
    refine ⟨_, execCcxor_eq s, CommandEnd.checkedBy rfl rfl fun h => ?_⟩
    obtain ⟨-, h2, -⟩ := State.streamError_eq_none.mp h
    refine .wroteOut _ _ rfl ?_ (by omega)
    rw [length_xorStream, State.input, State.memRead, Memory.length_readBytes]
    omega
  case aeadenc => exact ⟨_, execAeadenc_eq s, CommandEnd.checkedBy rfl rfl fun h => .encrypted rfl h _ _⟩
  case xaeadenc => exact ⟨_, execXaeadenc_eq s, CommandEnd.checkedBy rfl rfl fun h => .encrypted rfl h _ _⟩
  case aeaddec => exact ⟨_, execAeaddec_eq s, CommandEnd.checkedBy rfl rfl fun h => .decrypted rfl rfl h _ _⟩
  case xaeaddec => exact ⟨_, execXaeaddec_eq s, CommandEnd.checkedBy rfl rfl fun h => .decrypted rfl rfl h _ _⟩

/-- A command word decodes to a command. -/
theorem isCommand_of_decodeCmd {w : Word} {i : Instr} (h : decodeCmd w = .instr i) : isCommand i = true := by
  rw [decodeCmd] at h
  split at h
  · exact absurd h nofun
  · split at h <;> first | (cases h; rfl) | exact absurd h nofun

/-! ## Port operations -/

/-- A port operation that goes on has the effect it has inside a command, and latches nothing. -/
theorem exec_port {i : Instr} (hi : isCommand i = false) {s t : State} (h : exec i s = .next t) :
    t = (issue i s).issued := by
  cases i
  case ckload | ccblock | ccxor | hchacha | aeadenc | aeaddec | xaeadenc | xaeaddec | skload | skpub | skexch | skdrop =>
    exact absurd hi (by simp [isCommand, encode])
  case minit | mupd | mtag | mvfy =>
    cases h
    rfl
  all_goals
    simp only [exec, execFdec, execFenc, execFadd, execFsub, execFmul, execFsqr, execFinv, execFcswap, portResult] at h
    split at h
    · cases h
      rfl
    · exact absurd h nofun

/-- A port operation other than FENC changes scratch state only. -/
theorem issue_scratch {i : Instr} (h : ∀ a, i ≠ .fenc a) (s : State) : ∃ sc, issue i s = s.withScratch sc := by
  cases i
  case fenc a => exact absurd rfl (h a)
  case fcswap a b =>
    rw [issue, fcswapEffect]
    split
    · exact ⟨_, rfl⟩
    · exact ⟨s.scratch, rfl⟩
  case minit | mupd | mtag | mvfy | fdec | fadd | fsub | fmul | fsqr | finv => exact ⟨_, rfl⟩
  all_goals exact ⟨s.scratch, rfl⟩

end Sys2Proof.Machine
end

