-- ==== Sys2Proof/Laws/Field.lean ====
section
/-! SUPPORT. The field unit's operations through their values (rules R121 to R123), and the field registers after a
write. -/

namespace Sys2Proof.Machine

theorem fieldPrime_eq : fieldPrime = 2 ^ 255 - 19 := by decide

@[simp] theorem Fe.ofNat_val (n : Nat) : (Fe.ofNat n).val = n % fieldPrime := rfl

theorem feDec_val (b : Bytes 32) : (feDec b).val = leint b.toList % 2 ^ 255 % fieldPrime := rfl

theorem feAdd_val (a b : Fe) : (feAdd a b).val = (a.val + b.val) % fieldPrime := rfl

theorem feMul_val (a b : Fe) : (feMul a b).val = a.val * b.val % fieldPrime := rfl

theorem feSqr_val (a : Fe) : (feSqr a).val = a.val * a.val % fieldPrime := rfl

/-- The difference, as an exact integer taken mod p. -/
theorem feSub_val (a b : Fe) : ((feSub a b).val : Int) = ((a.val : Int) - b.val) % fieldPrime := by
  have hb : b.val < fieldPrime := b.isLt
  rw [feSub, Fe.ofNat_val, Int.natCast_mod, Nat.cast_add, Nat.cast_sub hb.le,
    show (a.val : Int) + ((fieldPrime : Int) - b.val) = (a.val - b.val) + fieldPrime by ring, Int.add_emod_right]

/-- The encoding is canonical (rule R122). -/
theorem leint_feEnc (e : Fe) : leint (feEnc e).toList = e.val := by
  rw [feEnc, leint_leBytes, Nat.mod_eq_of_lt]
  exact lt_trans e.isLt (by decide)

/-- A decoded encoding is the element. -/
theorem feDec_feEnc (e : Fe) : feDec (feEnc e) = e := by
  apply Fin.ext
  rw [feDec_val, leint_feEnc, Nat.mod_eq_of_lt (lt_trans e.isLt (by decide)), Nat.mod_eq_of_lt e.isLt]

theorem FReg.usable_iff (r : FReg) : r.usable = true ↔ r.val ≤ 12 := by simp [FReg.usable]

theorem State.fe_setFe (s : State) (d a : FReg) (v : Fe) : (s.setFe d v).fe a = if d = a then v else s.fe a := by
  by_cases h : d = a
  · subst h
    simp [State.fe, State.setFe, State.withScratch]
  · have hv : (d : Nat) ≠ a := fun h' => h (Fin.ext h')
    simp [State.fe, State.setFe, State.withScratch, h, hv]

end Sys2Proof.Machine
end

