-- ==== Sys2Proof/Laws/FieldPrime.lean ====
section
/-! SUPPORT. FIELD_PRIME is prime, and the power p - 2 inverts every nonzero residue (rule R124,
93_implementation_defined.md G9). Primality is Lucas' test, down to numbers small enough to divide out. -/

namespace Sys2Proof.Machine

/-! ## Powers by squaring -/

/-- `acc * b^e mod m` by squaring, over `n` bits of the exponent: `powMod` for any modulus. -/
def powerMod (m : Nat) : Nat → Nat → Nat → Nat → Nat
  | 0, _, _, acc => acc
  | n + 1, b, e, acc => powerMod m n (b * b % m) (e / 2) (if e % 2 = 1 then acc * b % m else acc)

theorem powerMod_cast (m n b e acc : Nat) (he : e < 2 ^ n) :
    ((powerMod m n b e acc : Nat) : ZMod m) = (acc : ZMod m) * (b : ZMod m) ^ e := by
  induction n generalizing b e acc with
  | zero =>
    obtain rfl : e = 0 := by omega
    simp [powerMod]
  | succ n ih =>
    have hp : (b : ZMod m) ^ e = ((b : ZMod m) * b) ^ (e / 2) * (b : ZMod m) ^ (e % 2) := by
      rw [← pow_two, ← pow_mul, ← pow_add]
      congr 1
      omega
    rw [powerMod, ih _ _ _ (by omega), hp]
    obtain h | h : e % 2 = 0 ∨ e % 2 = 1 := by omega
    · simp [h]
    · simp [h]
      ring

theorem powMod_eq_powerMod (n b e acc : Nat) : powMod n b e acc = powerMod fieldPrime n b e acc := by
  induction n generalizing b e acc with
  | zero => rfl
  | succ n ih => rw [powMod, powerMod, ih]

/-! ## Lucas' test -/

/-- A number is prime when some `a` has order `p - 1`, checked against the prime factors of `p - 1`. -/
theorem prime_of_certificate (p a n : Nat) (fs : List (Nat × Nat)) (hfs : ∀ f ∈ fs, f.1.Prime)
    (hprod : (fs.map fun f => f.1 ^ f.2).prod = p - 1) (hp : 1 < p) (hn : p - 1 < 2 ^ n)
    (h1 : powerMod p n a (p - 1) 1 % p = 1)
    (hq : ∀ f ∈ fs, powerMod p n a ((p - 1) / f.1) 1 % p ≠ 1) : p.Prime := by
  have one : (1 : Nat) % p = 1 := Nat.mod_eq_of_lt hp
  have cast : ∀ e, e ≤ p - 1 → ((powerMod p n a e 1 % p = 1) ↔ (a : ZMod p) ^ e = 1) := by
    intro e he
    have := powerMod_cast p n a e 1 (lt_of_le_of_lt he hn)
    rw [Nat.cast_one, one_mul] at this
    rw [← this, ← Nat.cast_one (R := ZMod p), ZMod.natCast_eq_natCast_iff', one]
  refine lucas_primality p (a : ZMod p) ((cast _ le_rfl).mp h1) ?_
  intro q hqp hqd
  rw [← hprod, hqp.prime.dvd_prod_iff] at hqd
  obtain ⟨x, hx, hqx⟩ := hqd
  obtain ⟨f, hf, rfl⟩ := List.mem_map.mp hx
  have e : q = f.1 := (Nat.prime_dvd_prime_iff_eq hqp (hfs f hf)).mp (hqp.dvd_of_dvd_pow hqx)
  rw [e]
  exact fun h => hq f hf ((cast _ (Nat.div_le_self ..)).mpr h)

theorem prime_2773320623 : Nat.Prime 2773320623 :=
  prime_of_certificate _ 5 32 [(2, 1), (2437, 1), (569003, 1)] (by simp only [List.forall_mem_cons]; norm_num)
    (by decide) (by decide) (by decide) (by decide +kernel) (by decide +kernel)

theorem prime_72106336199 : Nat.Prime 72106336199 :=
  prime_of_certificate _ 7 40 [(2, 1), (13, 1), (2773320623, 1)]
    (by simp only [List.forall_mem_cons, prime_2773320623]; norm_num)
    (by decide) (by decide) (by decide) (by decide +kernel) (by decide +kernel)

theorem prime_1919519569386763 : Nat.Prime 1919519569386763 :=
  prime_of_certificate _ 2 64 [(2, 1), (3, 1), (7, 1), (19, 1), (47, 2), (127, 1), (8574133, 1)]
    (by simp only [List.forall_mem_cons]; norm_num)
    (by decide) (by decide) (by decide) (by decide +kernel) (by decide +kernel)

theorem prime_31757755568855353 : Nat.Prime 31757755568855353 :=
  prime_of_certificate _ 10 64 [(2, 3), (3, 1), (31, 1), (107, 1), (223, 1), (4153, 1), (430751, 1)]
    (by simp only [List.forall_mem_cons]; norm_num)
    (by decide) (by decide) (by decide) (by decide +kernel) (by decide +kernel)

theorem prime_75445702479781427272750846543864801 : Nat.Prime 75445702479781427272750846543864801 :=
  prime_of_certificate _ 7 128 [(2, 5), (3, 2), (5, 2), (75707, 1), (72106336199, 1), (1919519569386763, 1)]
    (by simp only [List.forall_mem_cons, prime_72106336199, prime_1919519569386763]; norm_num)
    (by decide) (by decide) (by decide) (by decide +kernel) (by decide +kernel)

theorem prime_74058212732561358302231226437062788676166966415465897661863160754340907 :
    Nat.Prime 74058212732561358302231226437062788676166966415465897661863160754340907 :=
  prime_of_certificate _ 2 240
    [(2, 1), (3, 1), (353, 1), (57467, 1), (132049, 1), (1923133, 1), (31757755568855353, 1),
      (75445702479781427272750846543864801, 1)]
    (by
      simp only [List.forall_mem_cons, prime_31757755568855353, prime_75445702479781427272750846543864801]
      norm_num)
    (by decide) (by decide) (by decide) (by decide +kernel) (by decide +kernel)

theorem fieldPrime_prime : Nat.Prime fieldPrime :=
  prime_of_certificate _ 2 255
    [(2, 2), (3, 1), (65147, 1), (74058212732561358302231226437062788676166966415465897661863160754340907, 1)]
    (by
      simp only [List.forall_mem_cons, prime_74058212732561358302231226437062788676166966415465897661863160754340907]
      norm_num)
    (by decide) (by decide) (by decide) (by decide +kernel) (by decide +kernel)

/-! ## The inverse -/

/-- The value of the field unit's inverse, as a power (rule R124, G9). -/
theorem feInv_cast (a : Fe) : ((feInv a).val : ZMod fieldPrime) = (a.val : ZMod fieldPrime) ^ (fieldPrime - 2) := by
  rw [feInv, Fe.ofNat, powMod_eq_powerMod]
  simp only [ZMod.natCast_mod]
  rw [powerMod_cast fieldPrime 255 a.val (fieldPrime - 2) 1 (by decide)]
  simp

/-- The inverse of a nonzero element (rule R124). -/
theorem feInv_mul (a : Fe) (h : a.val ≠ 0) : (feInv a).val * a.val % fieldPrime = 1 := by
  have hp : Fact fieldPrime.Prime := ⟨fieldPrime_prime⟩
  have ha : (a.val : ZMod fieldPrime) ≠ 0 := by
    rw [Ne, ZMod.natCast_eq_zero_iff]
    exact fun hd => h (Nat.eq_zero_of_dvd_of_lt hd a.isLt)
  have hm : (((feInv a).val * a.val : Nat) : ZMod fieldPrime) = ((1 : Nat) : ZMod fieldPrime) := by
    rw [Nat.cast_mul, feInv_cast, ← pow_succ, show fieldPrime - 2 + 1 = fieldPrime - 1 by decide, ZMod.pow_card_sub_one_eq_one ha,
      Nat.cast_one]
  have := (ZMod.natCast_eq_natCast_iff' _ _ _).mp hm
  rwa [Nat.mod_eq_of_lt (show 1 < fieldPrime by decide)] at this

/-- The inverse of zero is zero (rule R124). -/
theorem feInv_zero (a : Fe) (h : a.val = 0) : (feInv a).val = 0 := by
  have hz : ((feInv a).val : ZMod fieldPrime) = 0 := by
    rw [feInv_cast, h, Nat.cast_zero]
    exact zero_pow (by decide)
  rw [ZMod.natCast_eq_zero_iff] at hz
  exact Nat.eq_zero_of_dvd_of_lt hz (feInv a).isLt

end Sys2Proof.Machine
end

