-- ==== Sys2Proof/Laws/Invariant.lean ====
section
/-! SUPPORT. The invariant between steps: it reads some fields only, and a command's end establishes the part of it that
concerns flags, latch and scratch state. -/

namespace Sys2Proof.Machine

/-- The invariant depends on these fields only. -/
theorem State.Inv.transfer {s t : State} (h : s.Inv) (hcfg : t.cfg = s.cfg) (haad : t.aad = s.aad) (hinp : t.inp = s.inp)
    (hout : t.out = s.out) (hlen : t.outLen = s.outLen) (hsc : t.scratch = s.scratch) (hl : t.latch = s.latch)
    (hd : t.done = s.done) (he : t.error = s.error) (hcv : t.ckValid = s.ckValid) (hck : t.ck = s.ck)
    (hsv : t.skValid = s.skValid) (hsk : t.sk = s.sk) : t.Inv := by
  obtain ⟨h1, h2, h3, h4, h5, h6, h7, h8, h9, h10, h11, h12, h13⟩ := h
  rw [State.busy] at h10
  constructor <;> (try rw [State.busy]) <;>
    simp only [hcfg, haad, hinp, hout, hlen, hsc, hl, hd, he, hcv, hck, hsv, hsk] <;> assumption

/-- What the invariant says of buffers, OUT_LEN and slots. -/
structure State.DataInv (s : State) : Prop where
  aadCanonical : s.aad.wf = true
  inpCanonical : s.inp.wf = true
  outCanonical : s.out.wf = true
  aadWithin : s.aad.within (bufferSize s.cfg .aad) = true
  inpWithin : s.inp.within (bufferSize s.cfg .inp) = true
  outWithin : s.out.within (bufferSize s.cfg .out) = true
  outLenBound : s.outLen.toNat ≤ s.cfg.dataMax.val + 16
  emptyCk : s.ckValid = false → s.ck = zeros 32
  emptySk : s.skValid = false → s.sk = zeros 32

theorem State.Inv.data {s : State} (h : s.Inv) : s.DataInv :=
  ⟨h.aadCanonical, h.inpCanonical, h.outCanonical, h.aadWithin, h.inpWithin, h.outWithin, h.outLenBound, h.emptyCk,
    h.emptySk⟩

/-- The end of a command without error gives the rest. -/
theorem State.DataInv.finish {s : State} (h : s.DataInv) : s.finish.Inv := by
  obtain ⟨h1, h2, h3, h4, h5, h6, h7, h8, h9⟩ := h
  exact ⟨h1, h2, h3, h4, h5, h6, h7, rfl, nofun, nofun, fun _ => rfl, h8, h9⟩

/-- The end of a command with an error gives the rest. -/
theorem State.DataInv.raise {s : State} (h : s.DataInv) (e : CmdError) : (s.raise e).Inv := by
  obtain ⟨h1, h2, h3, h4, h5, h6, h7, h8, h9⟩ := h
  exact ⟨h1, h2, h3, h4, h5, h6, h7, rfl, nofun, nofun, fun _ => rfl, h8, h9⟩

end Sys2Proof.Machine
end

