-- ==== Sys2Proof/Laws/PerInstr.lean ====
section
/-! SUPPORT. What holds of every instruction's word, instruction by instruction: its format's form (rules R45, R46, R52 to
R55). -/

namespace Sys2Proof.Laws.Format

/-- A command's word has RSVD = 0; a MAC-port code carries the payload its row names; a field-port word has an operation
1 to 8 and, when it is well formed, names registers F0 to F12 only. -/
def Statement (i : Instr) : Prop :=
  match encode i with
  | .cmd w => w.toNat < 256
  | .mop code payload => payload.length = payloadLength code
  | .fop w =>
    1 ≤ (nibble w 3).val ∧ (nibble w 3).val ≤ 8 ∧
      (i.wf = true → (nibble w 2).val ≤ 12 ∧ (nibble w 1).val ≤ 12 ∧ (nibble w 0).val ≤ 12)

/-- A command word of an opcode below 256. -/
theorem of_command {i : Instr} {w : Word} (he : encode i = .cmd w) (hw : w.toNat < 256) : Statement i := by
  rw [Statement, he]
  exact hw

theorem ckload : Statement .ckload := of_command rfl (by decide)
theorem ccblock : Statement .ccblock := of_command rfl (by decide)
theorem ccxor : Statement .ccxor := of_command rfl (by decide)
theorem hchacha : Statement .hchacha := of_command rfl (by decide)
theorem aeadenc : Statement .aeadenc := of_command rfl (by decide)
theorem aeaddec : Statement .aeaddec := of_command rfl (by decide)
theorem xaeadenc : Statement .xaeadenc := of_command rfl (by decide)
theorem xaeaddec : Statement .xaeaddec := of_command rfl (by decide)
theorem skload : Statement .skload := of_command rfl (by decide)
theorem skpub : Statement .skpub := of_command rfl (by decide)
theorem skexch : Statement .skexch := of_command rfl (by decide)
theorem skdrop : Statement .skdrop := of_command rfl (by decide)
theorem minit (key : Bytes 32) : Statement (.minit key) := by simp [Statement, encode, payloadLength]
theorem mupd (block : Bytes 16) : Statement (.mupd block) := by simp [Statement, encode, payloadLength]
theorem mtag : Statement .mtag := by simp [Statement, encode, payloadLength]
theorem mvfy (tag : Bytes 16) : Statement (.mvfy tag) := by simp [Statement, encode, payloadLength]

/-- A field-port word of an operation 1 to 8 whose fields are usable. -/
theorem of_fopWord {i : Instr} {fopc d a b : Fin 16} (he : encode i = .fop (fopWord fopc d a b))
    (hf : 1 ≤ fopc.val ∧ fopc.val ≤ 8) (hw : i.wf = true → d.val ≤ 12 ∧ a.val ≤ 12 ∧ b.val ≤ 12) : Statement i := by
  obtain ⟨h3, h2, h1, h0⟩ := nibble_fopWord fopc d a b
  rw [Statement, he]
  simp only [h3, h2, h1, h0]
  exact ⟨hf.1, hf.2, hw⟩

theorem fdec (d : FReg) (src : ByteSource) : Statement (.fdec d src) :=
  of_fopWord rfl (by decide) fun h => by cases src <;> simpa [Instr.wf, FReg.usable, byteSourceCode] using h
theorem fenc (a : FReg) : Statement (.fenc a) :=
  of_fopWord rfl (by decide) fun h => by simpa [Instr.wf, FReg.usable] using h
theorem fadd (d a b : FReg) : Statement (.fadd d a b) :=
  of_fopWord rfl (by decide) fun h => by simpa [Instr.wf, FReg.usable, and_assoc] using h
theorem fsub (d a b : FReg) : Statement (.fsub d a b) :=
  of_fopWord rfl (by decide) fun h => by simpa [Instr.wf, FReg.usable, and_assoc] using h
theorem fmul (d a b : FReg) : Statement (.fmul d a b) :=
  of_fopWord rfl (by decide) fun h => by simpa [Instr.wf, FReg.usable, and_assoc] using h
theorem fsqr (d a : FReg) : Statement (.fsqr d a) :=
  of_fopWord rfl (by decide) fun h => by simpa [Instr.wf, FReg.usable] using h
theorem finv (d a : FReg) : Statement (.finv d a) :=
  of_fopWord rfl (by decide) fun h => by simpa [Instr.wf, FReg.usable] using h
theorem fcswap (a b : FReg) : Statement (.fcswap a b) :=
  of_fopWord rfl (by decide) fun h => by simpa [Instr.wf, FReg.usable] using h

end Sys2Proof.Laws.Format
end

