-- ==== Sys2Proof/Laws/Script.lean ====
section
/-! SUPPORT. What running a host script is: the machine's own steps, and one script after another (rules R37, R56,
R57). -/

namespace Sys2Proof.Machine

/-- A step takes the first event listed. -/
theorem step_cons (e : Event) (es : List Event) (s : State) :
    step { s with events := e :: es } = runEvent e { s with events := es } := rfl

/-- Events in two parts: the second from the state the first leaves, the words read one after the other. -/
theorem runEvents_append {a b : List Event} {s t u : State} {ws vs : List Word} (ha : runEvents a s = .next (t, ws))
    (hb : runEvents b t = .next (u, vs)) : runEvents (a ++ b) s = .next (u, ws ++ vs) := by
  induction a generalizing s ws with
  | nil =>
    obtain ⟨rfl, rfl⟩ : s = t ∧ [] = ws := by simpa [runEvents] using ha
    simpa using hb
  | cons e a ih =>
    simp only [List.cons_append, runEvents] at ha ⊢
    cases h : runEvent e s with
    | next s1 =>
      simp only [h] at ha ⊢
      cases h1 : runEvents a s1 with
      | next p =>
        obtain ⟨s2, w1⟩ := p
        simp only [h1] at ha
        obtain ⟨rfl, rfl⟩ : s2 = t ∧ (if e.isRead then s1.rdata :: w1 else w1) = ws := by simpa using ha
        simp only [ih h1]
        cases e.isRead <;> rfl
      | fault f => simp [h1] at ha
      | refused r => simp [h1] at ha
    | fault f => simp [h] at ha
    | refused r => simp [h] at ha

/-- One script after another: the second, on the first's reply, from the state the first leaves. -/
theorem runHostScript_andThen {a : HostScript} {k : Reply → HostScript} {s t : State} {r : Reply}
    (ha : runHostScript a s = .next (t, r)) : runHostScript (a.andThen k) s = runHostScript (k r) t := by
  induction a generalizing s with
  | done r' =>
    obtain ⟨rfl, rfl⟩ : s = t ∧ r' = r := by simpa [runHostScript] using ha
    rfl
  | act es next ih =>
    simp only [HostScript.andThen, runHostScript] at ha ⊢
    cases h : runEvents es s with
    | next p =>
      simp only [h] at ha ⊢
      exact ih _ ha
    | fault f => simp [h] at ha
    | refused r => simp [h] at ha

end Sys2Proof.Machine
end

