-- ==== Sys2Proof/Tests/Slice0.lean ====
section
/-! SUPPORT. Tests against the spec's tables and vectors (95_test_vectors.md, cited V1 to V19 and S1 to S14), and a
witness for every obligation with hypotheses. No expected value comes from the model. -/

namespace Sys2Proof.Tests

open Sys2Proof Sys2Proof.Machine

/-! ## Helpers -/

/-- The state of a next outcome; the reset state for a stop (`went` says which). -/
def after (o : Host.Outcome State Fault Refusal) : State :=
  match o with
  | .next t => t
  | .fault _ => State.reset
  | .refused _ => State.reset

/-- Whether an outcome is a next state. -/
def went (o : Host.Outcome State Fault Refusal) : Bool :=
  match o with
  | .next _ => true
  | .fault _ => false
  | .refused _ => false

/-- A byte string from numbers. -/
def hex (l : List Nat) : List Byte := l.map (BitVec.ofNat 8)

/-- `n` bytes counting up from `a`. -/
def ramp (a n : Nat) : List Byte := (List.range n).map fun i => BitVec.ofNat 8 (a + i)

/-- A state with a cipher key, a nonce, CTR = 1 and the bytes of IN. -/
def keyed (key nonce inp : List Byte) : State :=
  { State.reset with
    ck := ofList 32 key, ckValid := true, nonce := ofList 24 nonce, ctr := 1#32,
    inp := Memory.writeBytes [] 0 inp, inLen := BitVec.ofNat 64 inp.length }

/-- The key and nonce of V9. -/
def v9 (inp : List Byte) : State := keyed (ramp 0x80 32) (hex [7, 0, 0, 0, 0x40, 0x41, 0x42, 0x43, 0x44, 0x45, 0x46, 0x47]) inp

/-- V10: the sealed one-byte message. -/
def sealedByte : List Byte :=
  hex [0x9f, 0xbb, 0x75, 0x8e, 0x73, 0x7c, 0xb5, 0x6e, 0x18, 0xdf, 0x47, 0x48, 0x42, 0x1b, 0x08, 0x5b, 0xb0]

/-- V14: key and nonce, and the sealed one-byte message. -/
def v14 (inp : List Byte) : State := keyed (ramp 0x80 32) (ramp 0x40 24) inp

def xSealedByte : List Byte :=
  hex [0xf1, 0x0c, 0x60, 0x66, 0x1f, 0xf5, 0xd2, 0x6d, 0x1e, 0xec, 0xc8, 0xc8, 0x92, 0x5d, 0xe9, 0x3d, 0x11]

/-- A state whose field registers 1 and 2 hold two numbers. -/
def fielded (a b : Nat) : State :=
  { State.reset with scratch := { Scratch.zero with
      f := (Scratch.zero.f.set 1 (Fe.ofNat a)).set 2 (Fe.ofNat b) } }

/-- F[3] after an instruction. -/
def f3 (i : Instr) (s : State) : Nat := (after (exec i s)).scratch.f[(3 : Fin 16)].val

/-! ## Decoding (30_encoding.md rules R46, R51 to R55) -/

theorem test_decode_commands :
    [0x01#32, 0x02#32, 0x03#32, 0x04#32, 0x10#32, 0x11#32, 0x12#32, 0x13#32, 0x20#32, 0x21#32, 0x22#32, 0x23#32].map
        (fun w => decode (.cmd w)) =
      [.ckload, .ccblock, .ccxor, .hchacha, .aeadenc, .aeaddec, .xaeadenc, .xaeaddec, .skload, .skpub, .skexch,
        .skdrop].map Decoded.instr := by decide

theorem test_decode_illegal_commands :
    [0x00#32, 0x05#32, 0x14#32, 0x24#32, 0xFF#32, 0x101#32, 0x80000001#32, 0x00010010#32].map
        (fun w => decode (.cmd w)) = List.replicate 8 (.reject .illegalCommand) := by decide

theorem test_decode_mac_port :
    decode (.mop 0#2 (ramp 0 32)) = .instr (.minit (ofList 32 (ramp 0 32))) ∧
      decode (.mop 1#2 (ramp 1 16)) = .instr (.mupd (ofList 16 (ramp 1 16))) ∧
      decode (.mop 2#2 []) = .instr .mtag ∧
      decode (.mop 3#2 (ramp 2 16)) = .instr (.mvfy (ofList 16 (ramp 2 16))) ∧
      decode (.mop 1#2 (ramp 1 15)) = .reject .payloadLength := by decide

/-- The words of LADDER_PROLOGUE, STEP and EPILOGUE as printed (rules R128, R130, R131). -/
theorem test_decode_field_port :
    [0x1000#16, 0x1101#16, 0x1202#16, 0x1503#16, 0x2010#16, 0x3612#16, 0x4812#16, 0x5CC6#16, 0x6760#16, 0x7220#16,
        0x8013#16].map (fun w => decode (.fop w)) =
      [.fdec 0 .u, .fdec 1 .one, .fdec 2 .zero, .fdec 5 .a24, .fenc 1, .fadd 6 1 2, .fsub 8 1 2, .fmul 12 12 6,
        .fsqr 7 6, .finv 2 2, .fcswap 1 3].map Decoded.instr := by decide

theorem test_decode_reserved_field_port :
    [0x0000#16, 0x9000#16, 0x1004#16, 0x3D00#16, 0x30D0#16, 0x300D#16, 0x1010#16, 0x2001#16, 0x8100#16].map
        (fun w => decode (.fop w)) =
      [.reservedOperation, .reservedOperation, .reservedByteSource, .reservedRegister, .reservedRegister,
        .reservedRegister, .unusedFieldNotZero, .unusedFieldNotZero, .unusedFieldNotZero].map Decoded.reject := by
  decide

theorem test_encode_ladder_step :
    ladderStep.map encode =
      [0x8013#16, 0x8024#16, 0x3612#16, 0x6760#16, 0x4812#16, 0x6980#16, 0x4A79#16, 0x3B34#16, 0x4C34#16, 0x5CC6#16,
        0x5BB8#16, 0x33CB#16, 0x6330#16, 0x44CB#16, 0x6440#16, 0x5404#16, 0x5179#16, 0x525A#16, 0x3272#16,
        0x52A2#16].map Encoded.fop := by decide

theorem test_table_words :
    decodeTableWord 32 0x12 = some .xaeadenc ∧ decodeTableWord 16 0x7220 = some (.finv 2 2) ∧
      decodeTableWord 8 2 = some .mtag ∧ decodeTableWord 8 0 = some (.minit (zeros 32)) ∧
      decodeTableWord 32 0x14 = none ∧ decodeTableWord 16 0x9000 = none := by decide

theorem test_fetch_word_runs :
    step (State.reset.withFetchWord 32 0x23) = exec .skdrop { State.reset with latch := some (.cmd 0x23#32) } := rfl

/-! ## WellFormed: a term each register check refuses (rules R20, R55) -/

theorem test_wellformed_refuses :
    [Instr.fdec 13 .u, .fenc 13, .fadd 13 0 0, .fadd 0 13 0, .fadd 0 0 13, .fsub 13 0 0, .fsub 0 13 0, .fsub 0 0 13,
        .fmul 13 0 0, .fmul 0 13 0, .fmul 0 0 13, .fsqr 13 0, .fsqr 0 13, .finv 13 0, .finv 0 13, .fcswap 13 0,
        .fcswap 0 13].all (fun i => !i.wf) = true := by decide

/-! ## ChaCha20 (V1 to V8) -/

theorem test_quarter_round :
    let x := quarterRound 0 4 8 12
      #v[0x11111111#32, 0, 0, 0, 0x01020304#32, 0, 0, 0, 0x9b8d6f43#32, 0, 0, 0, 0x01234567#32, 0, 0, 0]
    [x[0], x[4], x[8], x[12], x[1]] =
      [0xea2a92f4#32, 0xcb1cf8ce#32, 0x4581472e#32, 0x5881c4bb#32, 0#32] := by decide

theorem test_double_round :
    (doubleRound (initWords (ofList 32 (ramp 0 32)) 1#32 (ofList 12 (hex [0, 0, 0, 9, 0, 0, 0, 0x4a])))).toList =
      [0xcd52e917#32, 0x85ab03b4#32, 0xb3457395#32, 0xf96de7dd#32, 0xc4b7cd22#32, 0x5c2e187a#32, 0xc95eb461#32,
        0x316c801a#32, 0x7bf7d740#32, 0x7eddd644#32, 0xf1a1bdf5#32, 0x761246ca#32, 0x6b0d58a3#32, 0x6798471a#32,
        0xd737f167#32, 0xf173888d#32] := by decide +kernel

/-- V3: the command, its block and STATUS. -/
theorem test_ccblock :
    let t := after (exec .ccblock (keyed (ramp 0 32) (hex [0, 0, 0, 9, 0, 0, 0, 0x4a]) []))
    t.status = 0x0A#32 ∧ t.ks.toList.take 8 = hex [0x10, 0xf1, 0xe7, 0xe4, 0xd1, 0x3b, 0x59, 0x15] ∧
      t.ks.toList.drop 48 = hex [0xb5, 0x12, 0x9c, 0xd1, 0xde, 0x16, 0x4e, 0xb9, 0xcb, 0xd0, 0x83, 0xe8, 0xa2, 0x50,
        0x3c, 0x4e] := by decide +kernel

/-- V7: 65 zero bytes take two blocks. -/
theorem test_ccxor_two_blocks :
    let t := after (exec .ccxor (keyed (ramp 0 32) (hex [0, 0, 0, 0, 0, 0, 0, 0x4a])
      (List.replicate 65 0#8)))
    t.outLen = 65#64 ∧ t.out.read 0 = 0x22#8 ∧ t.out.read 63 = 0xb7#8 ∧ t.out.read 64 = 0x69#8 ∧
      t.out.read 65 = 0#8 := by decide +kernel

/-- V7: one byte ff. -/
theorem test_ccxor_one_byte :
    (after (exec .ccxor (keyed (ramp 0 32) (hex [0, 0, 0, 0, 0, 0, 0, 0x4a]) [0xff#8]))).out = [(0, 0xdd#8)] := by
  decide +kernel

/-- V5, with CTR_OVERFLOW = fault. -/
theorem test_counter_check :
    [(0xFFFFFFFF#32, 0), (0xFFFFFFFF#32, 64), (0xFFFFFFFE#32, 128), (0#32, 274877906944), (0xFFFFFFFF#32, 65),
        (0xFFFFFFFE#32, 129), (1#32, 274877906944)].map (fun r => ctrOverflows Config.vectors r.1 r.2) =
      [false, false, false, false, true, true, true] := by decide

/-- V8, byte reading. -/
theorem test_hchacha :
    (after (exec .hchacha (keyed (ramp 0 32)
        (hex [0, 0, 0, 9, 0, 0, 0, 0x4a, 0, 0, 0, 0, 0x31, 0x41, 0x59, 0x27]) []))).result.toList =
      hex [0x82, 0x41, 0x3b, 0x42, 0x27, 0xb2, 0x7b, 0xfe, 0xd3, 0x0e, 0x42, 0x50, 0x8a, 0x87, 0x7d, 0x73, 0xa0, 0xf9,
        0xe4, 0xd5, 0x8a, 0x74, 0xa8, 0x53, 0xc1, 0x2e, 0xc4, 0x13, 0x26, 0xd3, 0xec, 0xdc] := by decide +kernel

/-! ## The composers (V9 to V14) -/

theorem test_pad16_lengths :
    [0, 1, 15, 16, 17, 31, 32, 114].map (fun n => (pad16 n).length) = [0, 15, 1, 0, 15, 1, 0, 14] := by decide

theorem test_length_unit :
    le64 4294967296 ++ le64 4294967297 = hex [0, 0, 0, 0, 1, 0, 0, 0, 1, 0, 0, 0, 1, 0, 0, 0] := by decide

/-- V10: one byte sealed, and nothing at all sealed. -/
theorem test_aeadenc :
    let t := after (exec .aeadenc (v9 [0#8]))
    t.status = 0x0A#32 ∧ t.outLen = 17#64 ∧ t.out.readBytes 0 17 = sealedByte := by decide +kernel

theorem test_aeadenc_empty :
    (after (exec .aeadenc (v9 []))).out.readBytes 0 16 =
      hex [0xa0, 0x78, 0x4d, 0x7a, 0x47, 0x16, 0xf3, 0xfe, 0xb4, 0xf6, 0x4e, 0x7f, 0x4b, 0x39, 0xbf, 0x04] := by
  decide +kernel

/-- V10: the plaintext comes back. -/
theorem test_aeaddec :
    let t := after (exec .aeaddec (v9 sealedByte))
    t.status = 0x0A#32 ∧ t.outLen = 1#64 ∧ t.out = [] := by decide +kernel

/-- V11: a changed ciphertext byte; 16 bytes are too short. -/
theorem test_aeaddec_failures :
    let t := after (exec .aeaddec (v9 (sealedByte.set 0 0x9e#8)))
    t.status = 0x30E#32 ∧ t.outLen = 0#64 ∧ t.out = [] ∧
      (after (exec .aeaddec (v9 (sealedByte.take 16)))).status = 0x20E#32 := by decide +kernel

/-- V14: the derived key and nonce, and the one-byte case. -/
theorem test_xderive :
    let t := (v14 []).xderive (v14 []).ck (v14 []).nonce
    t.scratch.subkey.toList.take 8 = hex [0x4a, 0x8a, 0xc0, 0xc0, 0x29, 0x62, 0x22, 0xba] ∧
      t.scratch.n12.toList = hex [0, 0, 0, 0, 0x50, 0x51, 0x52, 0x53, 0x54, 0x55, 0x56, 0x57] := by decide +kernel

theorem test_xaeadenc :
    let t := after (exec .xaeadenc (v14 [0#8]))
    t.outLen = 17#64 ∧ t.out.readBytes 0 17 = xSealedByte ∧ t.ck = (v14 []).ck := by decide +kernel

theorem test_xaeaddec :
    let t := after (exec .xaeaddec (v14 xSealedByte))
    t.status = 0x0A#32 ∧ t.outLen = 1#64 ∧ t.out.read 0 = 0#8 := by decide +kernel

/-- Rule R91: the engine's key and message after MINIT and MUPD. -/
theorem test_minit_mupd :
    let t := after (exec (.mupd (ofList 16 (ramp 1 16)))
      (after (exec (.minit (ofList 32 (ramp 0 32))) { State.reset with scratch := { Scratch.zero with macMsg := [7#8] } })))
    t.scratch.macKey.toList = ramp 0 32 ∧ t.scratch.macMsg = ramp 1 16 := by decide

/-- V10, empty message: the tag MTAG answers on MACSTREAM of V10, and MVFY of it. -/
theorem test_mtag_mvfy :
    let mac : State := { State.reset with scratch := { Scratch.zero with
      macKey := otkOf (v9 []).ck (v9 []).nonce12, macMsg := List.replicate 16 0#8 } }
    let tag := (after (exec .mtag mac)).scratch.tagx
    tag.toList = hex [0xa0, 0x78, 0x4d, 0x7a, 0x47, 0x16, 0xf3, 0xfe, 0xb4, 0xf6, 0x4e, 0x7f, 0x4b, 0x39, 0xbf, 0x04] ∧
      (after (exec (.mvfy tag) mac)).scratch.macOk = true ∧
      (after (exec (.mvfy (zeros 16)) mac)).scratch.macOk = false := by decide +kernel

/-! ## X25519 (V18, rules R127, R130) -/

theorem test_clamp :
    clamp (zeros 32) = (zeros 32).set 31 0x40#8 ∧
      (clamp (Vector.replicate 32 0xff#8)).toList = 0xf8#8 :: List.replicate 30 0xff#8 ++ [0x7f#8] ∧
      clamp (((zeros 32).set 0 0x07#8).set 31 0x80#8) = (zeros 32).set 31 0x40#8 := by decide

theorem test_scalar_bits :
    (List.range 9).map (scalarBit ((zeros 32).set 0 0xA8#8 |>.set 1 0x01#8)) =
      [false, false, false, true, false, true, false, true, true] := by decide

/-- V18: FDEC of 32 bytes ff, of p, and of A24. -/
theorem test_fdec :
    let s := { State.reset with point := Vector.replicate 32 0xff#8 }
    let p := { State.reset with point := ofList 32 (0xed#8 :: List.replicate 30 0xff#8 ++ [0x7f#8]) }
    f3 (.fdec 3 .u) s = 18 ∧ f3 (.fdec 3 .u) p = 0 ∧ f3 (.fdec 3 .a24) s = 121665 ∧ f3 (.fdec 3 .one) s = 1 := by
  decide +kernel

/-- V18: FENC of p - 1. -/
theorem test_fenc :
    (after (exec (.fenc 1) (fielded (fieldPrime - 1) 0))).result.toList =
      0xec#8 :: List.replicate 30 0xff#8 ++ [0x7f#8] := by decide +kernel

theorem test_fadd : f3 (.fadd 3 1 2) (fielded (fieldPrime - 1) 1) = 0 := by decide +kernel

theorem test_fsub : f3 (.fsub 3 1 2) (fielded 0 1) = fieldPrime - 1 := by decide +kernel

theorem test_fmul :
    f3 (.fmul 3 1 2) (fielded (fieldPrime - 1) (fieldPrime - 1)) = 1 ∧
      f3 (.fmul 3 1 2) (fielded (2 ^ 254) 4) = 38 := by decide +kernel

theorem test_fsqr : f3 (.fsqr 3 1) (fielded (2 ^ 128) 0) = 38 := by decide +kernel

theorem test_finv :
    f3 (.finv 3 1) (fielded 2 0) = 0x3ffffffffffffffffffffffffffffffffffffffffffffffffffffffffffffff7 ∧
      f3 (.finv 3 1) (fielded 0 0) = 0 ∧ f3 (.finv 3 1) (fielded (fieldPrime - 1) 0) = fieldPrime - 1 := by
  decide +kernel

theorem test_fcswap :
    let s := fielded 5 7
    let swapped := after (exec (.fcswap 1 2) { s with scratch := { s.scratch with swap := true } })
    (after (exec (.fcswap 1 2) s)).scratch.f = s.scratch.f ∧ swapped.scratch.f[(1 : Fin 16)].val = 7 ∧
      swapped.scratch.f[(2 : Fin 16)].val = 5 := by decide +kernel

/-- V17, T = 254: X1 = 9, SWAP = 1, the pairs (1:0) and (9:1). -/
theorem test_ladder_step :
    let f : Vector Fe 16 := #v[9, 1, 0, 9, 1, 121665, 0, 0, 0, 0, 0, 0, 0, 0, 0, 0].map Fe.ofNat
    let s := issueAll ladderStep { State.reset with scratch := { Scratch.zero with swap := true, f := f } }
    (s.scratch.f.toList.take 5).map Fin.val = [9, 0x1900, 0x9660720, 0x144, 0x24] := by decide +kernel

/-- S13: the base point's bytes. -/
theorem test_base_point : basePoint.toList = 9#8 :: List.replicate 31 0#8 := by decide

/-! ## Loads, errors, priority (V19) -/

/-- A state with KEYLEN and KEYIN written. -/
def staged (len : Nat) : State := { State.reset with keylen := BitVec.ofNat 32 len, keyin := ofList 32 (ramp 1 32) }

theorem test_ckload :
    let t := after (exec .ckload (staged 32))
    t.status = 0x0A#32 ∧ t.ck.toList = ramp 1 32 ∧ t.keyin = zeros 32 := by decide

theorem test_skload :
    let t := after (exec .skload (staged 32))
    t.status = 0x12#32 ∧ t.sk.toList = ramp 1 32 ∧ t.keyin = zeros 32 := by decide

theorem test_load_lengths :
    (after (exec .skload (staged 31))).status = 0x106#32 ∧ (after (exec .ckload (staged 33))).status = 0x106#32 ∧
      (after (exec .ckload { staged 16 with ckValid := true })).status = 0x10E#32 := by decide

theorem test_no_key :
    [Instr.ccblock, .ccxor, .hchacha, .aeadenc, .aeaddec, .xaeadenc, .xaeaddec, .skpub, .skexch].map
      (fun i => (after (exec i State.reset)).status) = List.replicate 9 0x506#32 := by decide

theorem test_skdrop : (after (exec .skdrop State.reset)).status = 0x02#32 := by decide

theorem test_skexch_wrong_slot :
    (after (exec .skexch (keyed (ramp 0 32) [] []))).status = 0x50E#32 ∧
      (after (exec .ccblock { State.reset with skValid := true })).status = 0x516#32 := by decide

theorem test_illegal_words :
    [0x00#32, 0x14#32, 0x101#32, 0x103#32].map
        (fun w => (after (hostAccess (.regWrite 0 w) (keyed (ramp 0 32) [] []))).status) =
      List.replicate 4 0x40E#32 := by decide

theorem test_error_priority :
    let s := keyed (ramp 0 32) [] []
    (after (exec .aeaddec { s with inLen := 5#64, aadLen := 65537#64 })).status = 0x60E#32 ∧
      (after (exec .aeaddec { s with inLen := 16#64, ctr := 0xFFFFFFFF#32 })).status = 0x20E#32 ∧
      (after (exec .aeaddec { s with inLen := 81#64, ctr := 0xFFFFFFFF#32 })).status = 0x70E#32 := by decide

/-! ## The host interface -/

/-- P6 line 5 and rule R49: KEYIN reads as 0; NONCE word 0 of 07 00 00 00 is 00000007. -/
theorem test_register_reads :
    (after (hostAccess (.regRead 0x10) (staged 32))).rdata = 0#32 ∧
      (after (hostAccess (.regRead 0x18) (v9 []))).rdata = 0x00000007#32 ∧
      (after (hostAccess (.regRead 0x19) (v9 []))).rdata = 0x43424140#32 := by decide

/-- P5 line 21: a KEYIN write of the word C0C08A4A puts 4A at the lowest byte. -/
theorem test_keyin_write :
    (after (hostAccess (.regWrite 0x10 0xC0C08A4A#32) State.reset)).keyin.toList.take 4 =
      hex [0x4a, 0x8a, 0xc0, 0xc0] := by decide

theorem test_buffer_edges :
    went (hostAccess (.bufRead .aad 65535) State.reset) = true ∧
      went (hostAccess (.bufRead .aad 65536) State.reset) = false ∧
      went (hostAccess (.bufWrite .inp 65551 1#8) State.reset) = true ∧
      went (hostAccess (.bufWrite .inp 65552 1#8) State.reset) = false := by decide

/-- Rule R39: "every other host read returns 0; every host write ... is ignored", beyond a buffer's end too. -/
theorem test_busy_buffer_access :
    let busy := { State.reset with latch := some (.cmd 0x23#32), rdata := 7#32 }
    after (hostAccess (.bufRead .aad 65536) busy) = { busy with rdata := 0#32 } ∧
      after (hostAccess (.bufWrite .inp 65552 1#8) busy) = busy := by decide

/-! ## Host scripts (rule R57; programs P2, P4) -/

/-- The reply of a script that ends. -/
def replyOf (o : Host.Outcome (State × Reply) Fault Refusal) : Option Reply :=
  match o with
  | .next p => some p.2
  | .fault _ => none
  | .refused _ => none

/-- The nonce of V9. -/
def nonce9 : Bytes 12 := ofList 12 (hex [7, 0, 0, 0, 0x40, 0x41, 0x42, 0x43, 0x44, 0x45, 0x46, 0x47])

/-- V10 and P2: construct-with-key, encrypt, decrypt with a changed byte. -/
theorem test_script_encrypt_then_tampered :
    let new := scriptNewCipherKey (ramp 0x80 32)
    replyOf (runHostScript (new.andThen fun _ => scriptEncrypt nonce9 [] [0#8] 1#32) State.reset) =
        some (.bytes sealedByte) ∧
      replyOf (runHostScript (new.andThen fun _ => scriptDecrypt nonce9 [] (sealedByte.set 0 0x9e#8) 1#32) State.reset) =
        some (.failure 3#4) := by decide +kernel

/-- Without a key the dump is of OUT_LEN = 0 bytes, and decrypt names NoKey. -/
theorem test_script_without_key :
    replyOf (runHostScript (scriptEncrypt nonce9 [] [0#8] 1#32) State.reset) = some (.bytes []) ∧
      replyOf (runHostScript (scriptDecrypt nonce9 [] [0#8] 1#32) State.reset) = some (.failure 5#4) := by
  decide +kernel

/-- P4: a 33-byte private key is refused. `WRB KEYIN` of a 16-byte buffer is plain: four words. -/
theorem test_script_private_key :
    replyOf (runHostScript ((scriptNewPrivateKey (ramp 1 33)).andThen fun _ => .act (scriptRd .status) fun ws =>
        .done (.failure (statusErrCode ws[0]!))) State.reset) = some (.failure 1#4) ∧
      (scriptWrb .keyin (privateKeyBytes (ramp 1 16))).length = 4 ∧
      scriptKeylen (2 ^ 32 + 32) = scriptWr .keylen 0xFFFFFFFF#32 := by decide +kernel

/-! ## Witnesses: states and operands that meet the hypotheses of the obligations -/

/-- A state that meets the invariant with a command latched, a key loaded and bytes in OUT. -/
def busyState : State :=
  { keyed (ramp 0 32) [] [1#8, 0#8, 2#8] with latch := some (.cmd 0x03#32), out := [(0, 9#8)], outLen := 1#64 }

theorem busyState_inv : busyState.Inv where
  aadCanonical := by decide
  inpCanonical := by decide
  outCanonical := by decide
  aadWithin := by decide
  inpWithin := by decide
  outWithin := by decide
  outLenBound := by decide
  scratchReleased := rfl
  latchLegal := fun _ h => ⟨0x03#32, .ccxor, (Option.some.inj h).symm, by decide⟩
  busyFlags := fun _ => ⟨rfl, rfl⟩
  errorDone := fun h => absurd rfl h
  emptyCk := fun h => absurd h (by decide)
  emptySk := fun _ => rfl

theorem witness_DecodeOfEncode :
    [Instr.xaeaddec, .minit (zeros 32), .mvfy (zeros 16), .fdec 12 .a24, .fenc 12, .fadd 12 12 12, .fsub 12 0 12,
      .fmul 0 12 12, .fsqr 12 12, .finv 12 12, .fcswap 12 12].all Instr.wf = true := by decide

theorem witness_EncodeOfDecode :
    (∃ i, decode (.cmd 0x23#32) = .instr i) ∧ (∃ i, decode (.mop 2#2 []) = .instr i) ∧
      ∃ i, decode (.fop 0x80CC#16) = .instr i :=
  ⟨⟨.skdrop, by decide⟩, ⟨.mtag, by decide⟩, .fcswap 12 12, by decide⟩

theorem witness_CommandWordLegal : ∀ i, decode (.cmd 0x101#32) ≠ .instr i := fun _ h => nomatch h

/-- One word for each clause. -/
theorem witness_ReservedPortWordsRefused :
    (nibble 0x0000#16 3).val = 0 ∧ 9 ≤ (nibble 0x9000#16 3).val ∧
      ((nibble 0x1004#16 3).val = 1 ∧ 4 ≤ (nibble 0x1004#16 0).val) ∧ 13 ≤ (nibble 0x3D00#16 2).val ∧
      13 ≤ (nibble 0x30D0#16 1).val ∧ ((nibble 0x300D#16 3).val ≠ 1 ∧ 13 ≤ (nibble 0x300D#16 0).val) ∧
      ∃ s : State, s.latch = some (.fop 0x300D#16) :=
  ⟨by decide, by decide, by decide, by decide, by decide, by decide, { State.reset with latch := some (.fop 0x300D#16) }, rfl⟩

theorem witness_StepRunsDecoded :
    (busyState.latch = some (.cmd 0x03#32) ∧ decode (.cmd 0x03#32) = .instr .ccxor ∧ busyState.events = []) ∧
      let s := State.reset.withFetchWord 16 0x7220
      s.latch = some (.fop 0x7220#16) ∧ decode (.fop 0x7220#16) = .instr (.finv 2 2) ∧
        s.events = .sequencer :: [] := by decide

/-- The clauses of the idle block and of the host access. -/
theorem witness_StepRunsDecoded_others :
    (State.reset.latch = none ∧ State.reset.events = []) ∧
      (let s := { State.reset with events := [.sequencer, .rst] }
      s.latch = none ∧ s.events = .sequencer :: [.rst]) ∧
      { busyState with events := [.host (.regRead 1)] }.events = .host (.regRead 1) :: [] := by decide

theorem witness_ResetState : { busyState with events := [.rst, .sequencer] }.events = .rst :: [.sequencer] := rfl

theorem witness_StepKeepsInv : ∃ s t : State, s.Inv ∧ step s = .next t := ⟨busyState, _, busyState_inv, rfl⟩

/-- Both ways a step of such a machine goes: a next state, and a stop one byte beyond AAD. -/
theorem witness_StopsOnlyOutsideBuffers :
    busyState.Inv ∧ (∃ t, step busyState = .next t) ∧
      ∃ s : State, s.events = [.host (.bufRead .aad 65536)] ∧ s.busy = false ∧ bufferSize s.cfg .aad ≤ 65536 ∧
        (nextEvent s).1 = .host (.bufRead .aad 65536) ∧ step s = .fault (.outsideSpace .aad 65536) :=
  ⟨busyState_inv, ⟨_, rfl⟩, { State.reset with events := [.host (.bufRead .aad 65536)] }, rfl, rfl, by decide, rfl, rfl⟩

theorem witness_BusyLock : busyState.busy = true ∧ busyState.Inv := ⟨by decide, busyState_inv⟩

/-- Every offset falls under exactly one clause. -/
theorem witness_RegisterMapReads :
    State.reset.busy = false ∧ ∀ k : Fin 64,
      [decide (k.val < 0x0A), decide ((0x0A ≤ k.val ∧ k.val < 0x10) ∨ k.val = 0x1E ∨ k.val = 0x1F),
        decide (0x10 ≤ k.val ∧ k.val < 0x18), decide (0x18 ≤ k.val ∧ k.val < 0x1E),
        decide (0x20 ≤ k.val ∧ k.val < 0x28), decide (0x28 ≤ k.val ∧ k.val < 0x30),
        decide (0x30 ≤ k.val)].count true = 1 := by decide

/-- Every offset but CMD's falls under exactly one clause. -/
theorem witness_RegisterMapWrites :
    State.reset.busy = false ∧ ∀ k : Fin 64,
      [decide (k.val = 0), decide (0x02 ≤ k.val ∧ k.val ≤ 0x07),
        decide (k.val = 0x01 ∨ (0x08 ≤ k.val ∧ k.val < 0x10) ∨ k.val = 0x1E ∨ k.val = 0x1F ∨ 0x28 ≤ k.val),
        decide (0x10 ≤ k.val ∧ k.val < 0x18), decide (0x18 ≤ k.val ∧ k.val < 0x1E),
        decide (0x20 ≤ k.val ∧ k.val < 0x28)].count true = 1 := by decide

theorem witness_BufferAccess :
    State.reset.busy = false ∧ 65535 < bufferSize State.reset.cfg .aad ∧ 65535 < State.reset.cfg.aadMax.val ∧
      State.reset.aad.wf = true ∧ 65551 < State.reset.cfg.dataMax.val + 16 ∧ State.reset.inp.wf = true := by decide

theorem witness_CmdWrite :
    State.reset.busy = false ∧ decode (.cmd 0x23#32) = .instr .skdrop ∧ ∀ i, decode (.cmd 0x24#32) ≠ .instr i :=
  ⟨rfl, by decide, fun _ h => nomatch h⟩

theorem witness_StatusWord :
    let ok := after (exec .skdrop State.reset)
    let bad := after (exec .skpub State.reset)
    (ok.busy = false ∧ ok.done = true ∧ ok.error = none) ∧
      (bad.busy = false ∧ bad.done = true ∧ bad.error = some .noKey) := by decide

theorem witness_HostSeesNoSecret :
    let s := keyed (ramp 0 32) [] []
    let s' := keyed (ramp 1 32) [] []
    Event.rst ≠ .sequencer ∧ s.publicPart = s'.publicPart ∧ s ≠ s' := by decide

theorem witness_MemWriteThenRead : Memory.wf [(0, 1#8), (5, 2#8)] = true := by decide

theorem witness_CkloadResult : (staged 32).keylen = 32#32 ∧ (staged 31).keylen ≠ 32#32 := by decide

theorem witness_SkloadResult :
    { staged 32 with skValid := true }.keylen = 32#32 ∧ { staged 64 with skValid := true }.keylen ≠ 32#32 := by decide

theorem witness_LoadRefusesOtherLengths :
    (staged 0).keylen ≠ 32#32 ∧ (staged 31).keylen ≠ 32#32 ∧ (staged 33).keylen ≠ 32#32 := by decide

theorem witness_NoKeyFirst :
    (usesCk .xaeaddec = true ∧ State.reset.ckValid = false) ∧ (usesSk .skpub = true ∧ busyState.skValid = false) := by
  decide

/-- One byte too long for each clause. -/
theorem witness_LengthCheckSecond :
    let s := keyed (ramp 0 32) [] []
    s.ckValid = true ∧ s.cfg.dataMax.val < (65537#64).toNat ∧ s.cfg.aadMax.val < (65537#64).toNat ∧
      s.cfg.dataMax.val + 16 < (65553#64).toNat := by decide

theorem witness_TooShortThird :
    let s := { keyed (ramp 0 32) [] [] with inLen := 16#64, ctr := 0xFFFFFFFF#32, aadLen := 65536#64 }
    s.ckValid = true ∧ s.inLen.toNat ≤ s.cfg.dataMax.val + 16 ∧ s.aadLen.toNat ≤ s.cfg.aadMax.val ∧
      s.inLen.toNat < (match s.cfg.minDecLen with | .sixteen => 16 | .seventeen => 17) := by decide

/-- 65 bytes with CTR = 2^32 - 1: two blocks (V5), for each clause. -/
theorem witness_CounterCheckFourth :
    let s := { keyed (ramp 0 32) [] [] with inLen := 65#64, ctr := 0xFFFFFFFF#32 }
    let d := { s with inLen := 81#64 }
    s.ckValid = true ∧ s.cfg.ctrOverflow = .fault ∧ s.inLen.toNat ≤ s.cfg.dataMax.val ∧
      s.aadLen.toNat ≤ s.cfg.aadMax.val ∧ d.inLen.toNat ≤ d.cfg.dataMax.val + 16 ∧ 17 ≤ d.inLen.toNat ∧
      d.inLen.toNat - 16 = 65 ∧ 0 < s.inLen.toNat ∧
      2 ^ 32 - 1 < s.ctr.toNat + (s.inLen.toNat + 63) / 64 - 1 ∧
      ∃ t, exec .ccxor { s with cfg := { Config.vectors with ctrOverflow := .wrap } } = .next t :=
  ⟨by decide, by decide, by decide, by decide, by decide, by decide, by decide, by decide, by decide, _, rfl⟩

theorem witness_FailureEntry :
    isCommand .ckload = true ∧ ∃ t, exec .ckload (staged 31) = .next t ∧ t.error = some .invalidKeyLength :=
  ⟨by decide, _, rfl, by decide⟩

theorem witness_WritersOfState :
    (∃ t, exec .skdrop State.reset = .next t) ∧ isData .skdrop = false ∧ isLoad .skdrop = false ∧
      (∃ t, exec (.fenc 12) State.reset = .next t) ∧ ∀ a, Instr.mtag ≠ .fenc a :=
  ⟨⟨_, rfl⟩, by decide, by decide, ⟨_, rfl⟩, fun _ h => nomatch h⟩

theorem witness_EveryCommandEnds :
    [Instr.ckload, .ccblock, .ccxor, .hchacha, .aeadenc, .aeaddec, .xaeadenc, .xaeaddec, .skload, .skpub, .skexch,
      .skdrop].all isCommand = true := by decide

theorem witness_QuarterRound :
    (3 : Fin 16) ≠ 4 ∧ (3 : Fin 16) ≠ 9 ∧ (3 : Fin 16) ≠ 14 ∧ (4 : Fin 16) ≠ 9 ∧ (4 : Fin 16) ≠ 14 ∧
      (9 : Fin 16) ≠ 14 := by decide

theorem witness_QuarterRoundsCommute : [(0 : Fin 16), 4, 8, 12, 3, 7, 11, 15].Nodup := by decide

theorem witness_StreamBytes : 64 < (List.replicate 65 0#8).length := by decide

theorem witness_CcblockResult :
    { keyed [] [] [] with ctr := 0xFFFFFFFF#32 }.ckValid = true ∧ State.reset.ckValid = false := by decide

/-- The longest message at counter 1, the last block counter, an empty message at it, and a wrapping instance. -/
theorem witness_CcxorResult :
    let long := { keyed [] [] [] with inLen := 65536#64 }
    let last := { keyed [] [] [] with inLen := 64#64, ctr := 0xFFFFFFFF#32 }
    let wrap := { last with inLen := 65#64, cfg := { Config.vectors with ctrOverflow := .wrap } }
    (long.ckValid = true ∧ long.inLen.toNat ≤ long.cfg.dataMax.val ∧
      long.ctr.toNat + (long.inLen.toNat + 63) / 64 - 1 ≤ 2 ^ 32 - 1 ∧ long.out.wf = true) ∧
    (last.ckValid = true ∧ last.inLen.toNat ≤ last.cfg.dataMax.val ∧
      last.ctr.toNat + (last.inLen.toNat + 63) / 64 - 1 ≤ 2 ^ 32 - 1 ∧ last.out.wf = true) ∧
    (wrap.ckValid = true ∧ wrap.inLen.toNat ≤ wrap.cfg.dataMax.val ∧ wrap.cfg.ctrOverflow = .wrap) := by decide

theorem witness_CcxorTwice :
    let s := keyed (ramp 0 32) [] [0xff#8]
    ∃ t u, s.ckValid = true ∧ s.inLen.toNat ≤ s.cfg.dataMax.val ∧
      s.ctr.toNat + (s.inLen.toNat + 63) / 64 - 1 ≤ 2 ^ 32 - 1 ∧ s.out.wf = true ∧
      exec .ccxor s = .next t ∧ exec .ccxor { t with inp := t.out } = .next u :=
  ⟨_, _, by decide, by decide, by decide, by decide, rfl, rfl⟩

theorem witness_HchachaResult : (keyed (ramp 0 32) [] []).ckValid = true ∧ State.reset.ckValid = false := by decide

theorem witness_FramingInjective :
    let aad := ramp 0 17
    let ct := ramp 1 16
    aad.length < 2 ^ 64 ∧ ct.length < 2 ^ 64 ∧ macStream aad ct = macStream (ramp 0 17) (ramp 1 16) := by decide

/-- The boundaries of the encrypt commands: the longest message, and 64 bytes at the last counter. -/
theorem witness_AeadencResult :
    let long := { keyed [] [] [] with inLen := 65536#64, aadLen := 65536#64 }
    let last := { keyed [] [] [] with inLen := 64#64, ctr := 0xFFFFFFFF#32 }
    (long.ckValid = true ∧ long.inLen.toNat ≤ long.cfg.dataMax.val ∧ long.aadLen.toNat ≤ long.cfg.aadMax.val ∧
      long.ctr.toNat + (long.inLen.toNat + 63) / 64 - 1 ≤ 2 ^ 32 - 1 ∧ long.out.wf = true) ∧
    (last.ckValid = true ∧ last.inLen.toNat ≤ last.cfg.dataMax.val ∧ last.aadLen.toNat ≤ last.cfg.aadMax.val ∧
      last.ctr.toNat + (last.inLen.toNat + 63) / 64 - 1 ≤ 2 ^ 32 - 1) := by decide

theorem witness_XaeadencResult :
    let s := v14 [0#8]
    s.ckValid = true ∧ s.inLen.toNat ≤ s.cfg.dataMax.val ∧ s.aadLen.toNat ≤ s.cfg.aadMax.val ∧
      s.ctr.toNat + (s.inLen.toNat + 63) / 64 - 1 ≤ 2 ^ 32 - 1 ∧ s.out.wf = true ∧
      ∃ nonce : Bytes 12, nonce.toList = [0#8, 0#8, 0#8, 0#8] ++ (slice s.nonce 16 8).toList :=
  ⟨by decide, by decide, by decide, by decide, by decide, ofList 12 ([0#8, 0#8, 0#8, 0#8] ++ ramp 0x50 8), by decide⟩

/-- The hypotheses of the decrypt commands, and whether the tag is right, under a key and a nonce. -/
def decryptable (s : State) (key : Bytes 32) (nonce : Bytes 12) (tagRight : Bool) : Bool :=
  s.ckValid && decide (s.inLen.toNat ≤ s.cfg.dataMax.val + 16) && decide (s.aadLen.toNat ≤ s.cfg.aadMax.val)
    && decide ((match s.cfg.minDecLen with | .sixteen => 16 | .seventeen => 17) ≤ s.inLen.toNat)
    && decide (s.ctr.toNat + (s.inLen.toNat - 16 + 63) / 64 - 1 ≤ 2 ^ 32 - 1) && s.out.wf
    && decide ((macf s.cfg (slice (block key 0#32 nonce) 0 32) (macStream (s.aad.readBytes 0 s.aadLen.toNat)
      (s.inp.readBytes 0 (s.inLen.toNat - 16)))).toList = s.inp.readBytes (s.inLen.toNat - 16) 16) == tagRight

/-- A tag that is right (V10) and one that is not (V11). -/
theorem witness_AeaddecResult :
    let s := v9 sealedByte
    let bad := v9 (sealedByte.set 0 0x9e#8)
    decryptable s s.ck (slice s.nonce 0 12) true = true ∧ decryptable bad bad.ck (slice bad.nonce 0 12) false = true := by
  decide +kernel

/-- A tag that is right (V14) and one that is not. -/
theorem witness_XaeaddecResult :
    let s := v14 xSealedByte
    let bad := v14 (xSealedByte.set 16 0x10#8)
    let key := hchacha20 s.ck (slice s.nonce 0 16)
    let nonce := ofList 12 ([0#8, 0#8, 0#8, 0#8] ++ ramp 0x50 8)
    nonce.toList = [0#8, 0#8, 0#8, 0#8] ++ (slice s.nonce 16 8).toList ∧ decryptable s key nonce true = true ∧
      decryptable bad key nonce false = true := by decide +kernel

/-- For each pair of commands. -/
theorem witness_AeadRoundTrip :
    let s := v9 [0#8]
    let x := v14 [0#8]
    (s.out.wf = true ∧ (∃ t, exec .aeadenc s = .next t ∧ t.error = none) ∧
      (match s.cfg.minDecLen with | .sixteen => 16 | .seventeen => 17) - 16 ≤ s.inLen.toNat) ∧
    (x.out.wf = true ∧ (∃ t, exec .xaeadenc x = .next t ∧ t.error = none) ∧
      (match x.cfg.minDecLen with | .sixteen => 16 | .seventeen => 17) - 16 ≤ x.inLen.toNat) :=
  ⟨⟨by decide, ⟨after (exec .aeadenc (v9 [0#8])), rfl, by decide +kernel⟩, by decide⟩,
    ⟨by decide, ⟨after (exec .xaeadenc (v14 [0#8])), rfl, by decide +kernel⟩, by decide⟩⟩

/-- For each decrypt command: an input that opens, and its last byte changed. -/
theorem witness_WrongTagFails :
    let differs := fun (s : State) (m : Memory) =>
      m.readBytes 0 (s.inLen.toNat - 16) = s.inp.readBytes 0 (s.inLen.toNat - 16) ∧
        m.readBytes (s.inLen.toNat - 16) 16 ≠ s.inp.readBytes (s.inLen.toNat - 16) 16
    (∃ (t : State) (m : Memory), exec .aeaddec (v9 sealedByte) = .next t ∧ t.error = none ∧ differs (v9 sealedByte) m) ∧
    ∃ (t : State) (m : Memory), exec .xaeaddec (v14 xSealedByte) = .next t ∧ t.error = none ∧
      differs (v14 xSealedByte) m :=
  ⟨⟨after (exec .aeaddec (v9 sealedByte)), (v9 sealedByte).inp.write 16 0xb1#8, rfl, by decide +kernel, by decide⟩,
    after (exec .xaeaddec (v14 xSealedByte)), (v14 xSealedByte).inp.write 16 0x10#8, rfl, by decide +kernel, by decide⟩

theorem witness_FdecResult : (12 : FReg).val ≤ 12 ∧ (Instr.fdec 12 .a24).wf = true := by decide

theorem witness_FencResult : (12 : FReg).val ≤ 12 ∧ (Instr.fenc 12).wf = true := by decide

theorem witness_FieldArithmetic : (12 : FReg).val ≤ 12 ∧ (0 : FReg).val ≤ 12 ∧ (Instr.fmul 12 12 0).wf = true := by
  decide

/-- Two registers, and one register twice. -/
theorem witness_FcswapResult : (Instr.fcswap 12 0).wf = true ∧ (Instr.fcswap 12 12).wf = true ∧ (12 : FReg).val ≤ 12 := by
  decide

/-- The zero and a value that is not, for FINV. -/
theorem witness_FinvResult :
    (fielded 0 1).scratch.f[(1 : Fin 16)].val = 0 ∧ (fielded 0 1).scratch.f[(2 : Fin 16)].val ≠ 0 := by decide +kernel

theorem witness_RegistersAboveTwelveRefused : (Instr.fadd 12 12 13).wf = false ∧ (Instr.fdec 13 .one).wf = false := by
  decide

theorem witness_ClampBits : 255 < 256 ∧ 254 < 255 ∧ (2 < 3 ∨ 2 = 255) := by decide

theorem witness_LadderStepFormulas :
    let s : State := { State.reset with scratch := { Scratch.zero with f := Scratch.zero.f.set 5 (Fe.ofNat 121665) } }
    s.scratch.f[(5 : Fin 16)] = Fe.ofNat 121665 := by decide +kernel

theorem witness_SkpubResult :
    ∃ (s : State) (base : Bytes 32), s.skValid = true ∧ State.reset.skValid = false ∧
      base.toList = 9#8 :: List.replicate 31 0#8 :=
  ⟨{ State.reset with skValid := true }, (zeros 32).set 0 9#8, rfl, rfl, by decide⟩

theorem witness_SkexchResult :
    { State.reset with skValid := true, sk := ofList 32 (ramp 0 32) }.skValid = true ∧ State.reset.skValid = false := by
  decide

theorem witness_FixedSchedule : ∃ s : State, s.skValid = true := ⟨{ State.reset with skValid := true }, rfl⟩

/-- POINT 0 and POINT p both decode to 0. -/
theorem witness_ZeroPointZeroResult :
    let s := { State.reset with skValid := true }
    let p : State := { s with point := ofList 32 (0xed#8 :: List.replicate 30 0xff#8 ++ [0x7f#8]) }
    s.skValid = true ∧ leint s.point.toList % 2 ^ 255 % (2 ^ 255 - 19) = 0 ∧
      leint p.point.toList % 2 ^ 255 % (2 ^ 255 - 19) = 0 := by decide +kernel

end Sys2Proof.Tests
end

section
/-! The busy lock (rule R39): what a host access does while a command runs, access by access. -/

namespace Sys2Proof.Machine

/-! ## STATUS -/

theorem bit_eq_toNat (b : Bool) : bit b = b.toNat := by cases b <;> rfl

/-- STATUS of a busy state whose flags are cleared, as rule R160 leaves them at the CMD write: BUSY and the valid bits. -/
theorem State.status_of_busy {s : State} (hb : s.busy = true) (hd : s.done = false) (he : s.error = none) :
    s.status = BitVec.ofNat 32 (0x01 + 0x08 * s.ckValid.toNat + 0x10 * s.skValid.toNat) := by
  simp [State.status, State.err, State.errCode, bit_eq_toNat, hb, hd, he]

/-- STATUS stands at one offset of the register map (rule R49). -/
theorem regAt_eq_status_iff : ∀ k : Fin 64, regAt k = .status ↔ k = wordIndex .status := by decide

/-- What the host reads from a register while BUSY = 1. -/
theorem State.hostRegRead_of_busy {s : State} (hb : s.busy = true) (k : Fin 64) :
    s.hostRegRead (regAt k) = if k = wordIndex .status then s.status else 0#32 := by
  by_cases hk : regAt k = .status
  · rw [if_pos ((regAt_eq_status_iff k).mp hk), hk]
    simp [State.hostRegRead, State.regRead]
  · rw [if_neg (mt (regAt_eq_status_iff k).mpr hk)]
    simp [State.hostRegRead, hb, hk]

/-! ## The four accesses while BUSY = 1 -/

section
variable {s : State} (hb : s.busy = true)
include hb

theorem hostAccess_regRead_of_busy (k : Fin 64) :
    hostAccess (.regRead k) s = .next (s.answer (if k = wordIndex .status then s.status else 0#32)) := by
  rw [hostAccess, State.hostRegRead_of_busy hb]

theorem hostAccess_regWrite_of_busy (k : Fin 64) (v : Word) : hostAccess (.regWrite k v) s = .next s := by
  rw [hostAccess, if_pos hb]

theorem hostAccess_bufRead_of_busy (b : Buffer) (addr : Nat) :
    hostAccess (.bufRead b addr) s = .next (s.answer 0#32) := by
  rw [hostAccess, if_pos hb]

theorem hostAccess_bufWrite_of_busy (b : Buffer) (addr : Nat) (v : Byte) :
    hostAccess (.bufWrite b addr v) s = .next s := by
  rw [hostAccess, if_pos hb]

end

/-- Settles O12: STATUS is fixed by the invariant's flag relations, and the lock stands before every other access. -/
theorem busyLock : Obligations.BusyLock := by
  intro s hb
  have hstatus (h : s.Inv) :
      s.status = BitVec.ofNat 32 (0x01 + 0x08 * s.ckValid.toNat + 0x10 * s.skValid.toNat) := by
    obtain ⟨hd, he⟩ := h.busyFlags hb
    exact State.status_of_busy hb hd he
  exact ⟨hstatus, hostAccess_regRead_of_busy hb, hostAccess_regWrite_of_busy hb, hostAccess_bufRead_of_busy hb,
    hostAccess_bufWrite_of_busy hb⟩

end Sys2Proof.Machine
end

section
/-! STATUS as a word (rule R50): its number is a sum of fields that do not overlap, so each field is read back by a
division and a remainder. -/

namespace Sys2Proof.Machine

/-! ## The number of STATUS -/

theorem CmdError.code_lt (e : CmdError) : e.code < 8 := by cases e <;> decide

theorem State.errCode_lt (s : State) : s.errCode < 8 := by
  unfold State.errCode
  split
  · decide
  · exact CmdError.code_lt _

theorem State.status_eq (s : State) :
    s.status = BitVec.ofNat 32 (s.busy.toNat + 0x02 * s.done.toNat + 0x04 * s.error.isSome.toNat +
      0x08 * s.ckValid.toNat + 0x10 * s.skValid.toNat + 0x100 * s.errCode) := by
  simp only [State.status, State.err, bit_eq_toNat]

/-- STATUS fits its 32 bits: its number is the sum itself. -/
theorem State.status_toNat (s : State) :
    s.status.toNat = s.busy.toNat + 0x02 * s.done.toNat + 0x04 * s.error.isSome.toNat + 0x08 * s.ckValid.toNat +
      0x10 * s.skValid.toNat + 0x100 * s.errCode := by
  have hcode := s.errCode_lt
  rw [State.status_eq, BitVec.toNat_ofNat, Nat.mod_eq_of_lt]
  have hbit (b : Bool) : b.toNat ≤ 1 := b.toNat_le
  linarith [hbit s.busy, hbit s.done, hbit s.error.isSome, hbit s.ckValid, hbit s.skValid]

/-! ## Reading a field of a word by arithmetic -/

theorem getLsbD_eq_of_toNat {n i : Nat} {w : BitVec n} {b : Bool} (h : w.toNat / 2 ^ i % 2 = b.toNat) :
    w.getLsbD i = b := by
  rw [← BitVec.testBit_toNat, Nat.testBit_eq_decide_div_mod_eq, h]
  cases b <;> rfl

theorem extractLsb'_eq_of_toNat {n start len c : Nat} {w : BitVec n} (h : w.toNat / 2 ^ start % 2 ^ len = c) :
    w.extractLsb' start len = BitVec.ofNat len c := by
  apply BitVec.eq_of_toNat_eq
  rw [BitVec.extractLsb'_toNat, Nat.shiftRight_eq_div_pow, BitVec.toNat_ofNat, ← h, Nat.mod_mod]

/-! ## The fields and the words -/

/-- Every field of STATUS by its place in the word: the bits below it add up to less than the place's weight. -/
theorem State.status_fields (s : State) :
    s.status.getLsbD 0 = s.busy ∧ s.status.getLsbD 1 = s.done ∧ s.status.getLsbD 2 = s.error.isSome ∧
      s.status.getLsbD 3 = s.ckValid ∧ s.status.getLsbD 4 = s.skValid ∧ s.status.extractLsb' 5 3 = 0#3 ∧
      s.status.extractLsb' 8 4 = BitVec.ofNat 4 s.errCode ∧ s.status.extractLsb' 12 20 = 0#20 := by
  have hsum := s.status_toNat
  have hcode := s.errCode_lt
  have hbusy := s.busy.toNat_le
  have hdone := s.done.toNat_le
  have herr := s.error.isSome.toNat_le
  have hck := s.ckValid.toNat_le
  have hsk := s.skValid.toNat_le
  refine ⟨getLsbD_eq_of_toNat ?_, getLsbD_eq_of_toNat ?_, getLsbD_eq_of_toNat ?_, getLsbD_eq_of_toNat ?_,
    getLsbD_eq_of_toNat ?_, extractLsb'_eq_of_toNat ?_, extractLsb'_eq_of_toNat ?_, extractLsb'_eq_of_toNat ?_⟩ <;>
    omega

/-- STATUS after a successful command. -/
theorem State.status_of_success {s : State} (hb : s.busy = false) (hd : s.done = true) (he : s.error = none) :
    s.status = BitVec.ofNat 32 (0x02 + 0x08 * s.ckValid.toNat + 0x10 * s.skValid.toNat) := by
  simp [State.status_eq, State.errCode, hb, hd, he]

/-- STATUS after a failed command. -/
theorem State.status_of_failure {s : State} {e : CmdError} (hb : s.busy = false) (hd : s.done = true)
    (he : s.error = some e) :
    s.status = BitVec.ofNat 32 (0x06 + 0x08 * s.ckValid.toNat + 0x10 * s.skValid.toNat + 0x100 * e.code) := by
  simp [State.status_eq, State.errCode, hb, hd, he]

/-- Settles O17: the fields of STATUS do not overlap, and at a command's end BUSY is 0, DONE is 1 and ERR tells success
from failure. -/
theorem statusWord : Obligations.StatusWord := by
  refine ⟨State.status_fields, fun s hb hd => ?_, rfl, rfl, rfl, rfl, rfl, rfl, rfl⟩
  cases he : s.error with
  | none => exact State.status_of_success hb hd he
  | some e => exact State.status_of_failure hb hd he

end Sys2Proof.Machine
end

section
/-! The ChaCha20 engine (40_chacha20.md): the quarter round word by word, the words of the keystream block, the bytes of
the stream, and what CCBLOCK and CKLOAD leave. -/

namespace Sys2Proof.Machine

/-! ## The quarter round (rules R6, R62) -/

/-- `rotl32` of rule R6 is the rotation of the library. -/
theorem rotl32_eq_rotateLeft (v : Word) {n : Nat} (h : n < 32) : rotl32 v n = v.rotateLeft n := by
  rw [rotl32, BitVec.rotateLeft_def, Nat.mod_eq_of_lt h]

/-- Half a quarter round: the first four statements of rule R62 with p = 16, q = 12, and the last four with p = 8,
q = 7. -/
def halfRound (p q : Nat) (a b c d : Fin 16) (x : Words) : Words :=
  let x := x.set a (x[a] + x[b])
  let x := x.set d (rotl32 (x[d] ^^^ x[a]) p)
  let x := x.set c (x[c] + x[d])
  x.set b (rotl32 (x[b] ^^^ x[c]) q)

theorem quarterRound_eq_halfRounds (a b c d : Fin 16) (x : Words) :
    quarterRound a b c d x = halfRound 8 7 a b c d (halfRound 16 12 a b c d x) := rfl

/-- A write of one word of the state array: that word is read back, every other is as before. -/
theorem getElem_set_word (x : Words) (i j : Fin 16) (v : Word) : (x.set i v)[j] = if j = i then v else x[j] := by
  simp [Vector.getElem_set, Fin.ext_iff, eq_comm]

/-- Half a quarter round on four distinct words: their new values, each from those already written, and the words it
leaves alone. -/
theorem getElem_halfRound {p q : Nat} (hp : p < 32) (hq : q < 32) {a b c d : Fin 16} (x : Words)
    (hab : a ≠ b) (hac : a ≠ c) (had : a ≠ d) (hbc : b ≠ c) (hbd : b ≠ d) (hcd : c ≠ d) :
    let a1 := x[a] + x[b]
    let d1 := (x[d] ^^^ a1).rotateLeft p
    let c1 := x[c] + d1
    let b1 := (x[b] ^^^ c1).rotateLeft q
    (halfRound p q a b c d x)[a] = a1 ∧ (halfRound p q a b c d x)[b] = b1 ∧ (halfRound p q a b c d x)[c] = c1 ∧
      (halfRound p q a b c d x)[d] = d1 ∧
      ∀ k : Fin 16, k ≠ a → k ≠ b → k ≠ c → k ≠ d → (halfRound p q a b c d x)[k] = x[k] := by
  simp only [halfRound, rotl32_eq_rotateLeft _ hp, rotl32_eq_rotateLeft _ hq, getElem_set_word]
  refine ⟨?_, ?_, ?_, ?_, fun k hka hkb hkc hkd => ?_⟩
  · simp [hab, hac, had]
  · simp [hab.symm, hac.symm, had.symm, hbc, hbd, hcd]
  · simp [hac.symm, had.symm, hbc.symm, hcd]
  · simp [had.symm, hbd.symm, hcd.symm]
  · simp [hka, hkb, hkc, hkd]

/-- Settles O31: the quarter round is two half rounds, and the second reads the words the first wrote. -/
theorem quarterRoundWords : Obligations.QuarterRound := by
  intro a b c d x hab hac had hbc hbd hcd
  obtain ⟨ha1, hb1, hc1, hd1, hk1⟩ :=
    getElem_halfRound (p := 16) (q := 12) (by decide) (by decide) x hab hac had hbc hbd hcd
  obtain ⟨ha2, hb2, hc2, hd2, hk2⟩ :=
    getElem_halfRound (p := 8) (q := 7) (by decide) (by decide) (halfRound 16 12 a b c d x) hab hac had hbc hbd hcd
  simp only [ha1, hb1, hc1, hd1] at ha2 hb2 hc2 hd2
  rw [quarterRound_eq_halfRounds]
  exact ⟨ha2, hb2, hc2, hd2, fun k hka hkb hkc hkd => (hk2 k hka hkb hkc hkd).trans (hk1 k hka hkb hkc hkd)⟩

/-! ## The words of the keystream block (rules R61, R63 to R65) -/

theorem doubleRounds_eq_iterate (n : Nat) (x : Words) : doubleRounds n x = doubleRound^[n] x := by
  induction n generalizing x with
  | zero => rfl
  | succ n ih => rw [doubleRounds_succ, ih, Function.iterate_succ_apply]

/-- Word `k` of words serialized little-endian, one after the other (rule R7). -/
theorem le32At_ofFn_wordByte {n : Nat} (w : Nat → Word) {k : Nat} (hk : 4 * k + 3 < n) :
    le32At (Vector.ofFn fun i : Fin n => wordByte (w (i.val / 4)) (i.val % 4)) (4 * k) = w k := by
  have hbyte (r : Nat) (hr : r < 4) :
      byteAt (Vector.ofFn fun i : Fin n => wordByte (w (i.val / 4)) (i.val % 4)) (4 * k + r) = wordByte (w k) r := by
    rw [byteAt_ofFn _ (by omega), show (4 * k + r) / 4 = k by omega, show (4 * k + r) % 4 = r by omega]
  calc
    _ = le32 (wordByte (w k) 0) (wordByte (w k) 1) (wordByte (w k) 2) (wordByte (w k) 3) := by
      rw [le32At, hbyte 1 (by decide), hbyte 2 (by decide), hbyte 3 (by decide)]
      exact congrArg (le32 · _ _ _) (hbyte 0 (by decide))
    _ = w k := le32_wordByte (w k)

/-- Word `k` of the feed-forward (rule R65). -/
theorem le32At_feedForward (x s : Words) (k : Fin 16) : le32At (feedForward x s) (4 * k.val) = x[k] + s[k] := by
  rw [feedForward, le32At_ofFn_wordByte (feedForward.byteWord x s) (by omega), feedForward.byteWord]
  simp

/-- The sixteen words of the input state (rules R60, R61). -/
theorem getElem_initWords (key : Bytes 32) (counter : Word) (nonce : Bytes 12) (k : Fin 16) :
    (initWords key counter nonce)[k] =
      if k.val < 4 then [0x61707865#32, 0x3320646e#32, 0x79622d32#32, 0x6b206574#32][k.val]!
      else if k.val < 12 then le32At key (4 * (k.val - 4))
      else if k.val = 12 then counter
      else le32At nonce (4 * (k.val - 13)) := by
  fin_cases k <;> rfl

/-- Settles O33: the double round is its rule's list of quarter rounds, and the block's words are read back from its
bytes. -/
theorem blockWords : Obligations.BlockWords :=
  ⟨fun _ => rfl, doubleRounds_eq_iterate 10, fun key counter nonce k =>
    ⟨le32At_feedForward _ _ k, getElem_initWords key counter nonce k⟩⟩

/-! ## The bytes of the stream (rule R66) -/

/-- Settles O34: the stream is its segments from segment 0 on, and the byte rule of the segments gives its bytes. -/
theorem streamBytes : Obligations.StreamBytes := by
  intro key base nonce data
  refine ⟨length_xorStream key base nonce data, fun j hj => ?_⟩
  have hlen : j < (xorStream key base nonce data).length := by rwa [length_xorStream]
  have hbyte : (xorStream key base nonce data)[j] =
      data[j] ^^^ byteAt (block key (base + BitVec.ofNat 32 (0 + j / 64)) nonce) (j % 64) :=
    getElem_xorSegments key base nonce (segments data.length) 0 data j hlen hj
  rw [List.getElem?_eq_getElem hlen, hbyte, Nat.zero_add, getElem!_pos data j hj]

/-! ## CCBLOCK and CKLOAD (rules R68, R69) -/

/-- Settles O35: KS holds the block of CK, CTR and NONCE[0..12]; the only check is the key's. -/
theorem ccblockResult : Obligations.CcblockResult := by
  refine ⟨rfl, fun s => ⟨fun hck => ?_, fun hck => ?_⟩⟩
  · rw [exec, execCcblock_eq, if_pos hck, State.nonce12, State.setKs, State.finish]
  · rw [exec, execCcblock_eq, if_neg (by simp [hck])]
    rfl

/-- The check of CKLOAD: KEYLEN is the number 32 exactly when it is the word 32. -/
theorem execCkload_eq (s : State) :
    execCkload s = .next (
      if s.keylen = 32#32 then ((s.loadCk s.keyin).wipeKeyin).finish else s.wipeKeyin.raise .invalidKeyLength) := by
  have hlen : s.keylen.toNat = 32 ↔ s.keylen = 32#32 := BitVec.toNat_inj (y := 32#32)
  rw [execCkload]
  simp only [ne_eq, ite_not, hlen]

/-- Settles O20: KEYIN is zeroed whether or not its length is right, and CK takes it only when it is. -/
theorem ckloadResult : Obligations.CkloadResult := by
  refine ⟨rfl, fun s => ⟨fun hlen => ?_, fun hlen => ?_⟩⟩
  · rw [exec, execCkload_eq, if_pos hlen]
    rfl
  · rw [exec, execCkload_eq, if_neg hlen]
    rfl

end Sys2Proof.Machine
end

section
/-! HCHACHA (41_hchacha20.md): the input state of the subkey is a block's, the words of the subkey, and what the command
leaves. -/

namespace Sys2Proof.Machine

/-- The word at byte `i` of a slice is the word at byte `off + i` of the register. -/
theorem le32At_slice {n : Nat} (v : Bytes n) (off len : Nat) {i : Nat} (h : i + 3 < len) :
    le32At (slice v off len) i = le32At v (off + i) := by
  simp only [le32At, byteAt_slice v off len (show i < len by omega), byteAt_slice v off len (show i + 1 < len by omega),
    byteAt_slice v off len (show i + 2 < len by omega), byteAt_slice v off len h, Nat.add_assoc]

/-- HINIT is INIT_STATE with the first nonce word in the counter's place (rules R61, R80). -/
theorem hinitWords_eq_initWords (key : Bytes 32) (nonce : Bytes 16) :
    hinitWords key nonce = initWords key (le32At nonce 0) (slice nonce 4 12) := by
  have hword (i : Nat) (hi : i + 3 < 12) : le32At (slice nonce 4 12) i = le32At nonce (4 + i) :=
    le32At_slice nonce 4 12 hi
  simp only [hinitWords, initWords, hword 0 (by decide), hword 4 (by decide), hword 8 (by decide), Nat.reduceAdd]

/-- Word `k` of the subkey of `x`: words 0 to 3, then 12 to 15 (rule R81). -/
theorem le32At_subkeyOf (x : Words) (k : Fin 8) :
    le32At (subkeyOf x) (4 * k.val) = x[if k.val < 4 then k.val else k.val + 8]! := by
  rw [subkeyOf, le32At_ofFn_wordByte (subkeyOf.chosen x) (by omega), subkeyOf.chosen]
  exact (getElem!_def ..).symm

/-- Settles O38: the subkey's words are read back from its bytes, and HINIT is an INIT_STATE. -/
theorem subkeyWords : Obligations.SubkeyWords := by
  intro key nonce k
  rw [hchacha20, hinitWords_eq_initWords]
  exact le32At_subkeyOf _ k

/-- Settles O39: RESULT holds the subkey of CK and NONCE[0..16]; the only check is the key's. -/
theorem hchachaResult : Obligations.HchachaResult := by
  refine ⟨rfl, fun s => ⟨fun hck => ?_, fun hck => ?_⟩⟩
  · rw [exec, execHchacha_eq, if_pos hck, State.nonce16, State.setResult, State.finish]
  · rw [exec, execHchacha_eq, if_neg (by simp [hck])]
    rfl

end Sys2Proof.Machine
end

section
/-! X25519 (44_x25519.md): loading and dropping the private key, and the scalar multiplications of SKPUB and SKEXCH. -/

namespace Sys2Proof.Machine

/-! ## The scalar multiplications (rules R133, R135, R136) -/

/-- The base point is known by its bytes (rule R133). -/
theorem eq_basePoint_of_toList {v : Bytes 32} (h : v.toList = 9#8 :: List.replicate 31 0#8) : v = basePoint := by
  have hbase : basePoint.toList = 9#8 :: List.replicate 31 0#8 := by decide
  exact Vector.toList_inj.mp (h.trans hbase.symm)

/-- Settles O58: the schedule computes `x25519` of SK and the base point, and the only check is the key's. -/
theorem skpubResult : Obligations.SkpubResult := by
  refine ⟨rfl, fun s base hbase => ⟨fun hsk => ?_, fun hsk => ?_⟩⟩
  · rw [exec, execSkpub_eq, if_pos hsk, eq_basePoint_of_toList hbase, State.setResult, State.finish]
  · rw [exec, execSkpub_eq, if_neg (by simp [hsk]), State.raise]

/-- Settles O59: the schedule computes `x25519` of SK and POINT, which no check looks at. -/
theorem skexchResult : Obligations.SkexchResult := by
  refine ⟨rfl, fun s => ⟨fun hsk => ?_, fun hsk => ?_⟩⟩
  · rw [exec, execSkexch_eq, if_pos hsk, State.setResult, State.finish]
  · rw [exec, execSkexch_eq, if_neg (by simp [hsk]), State.raise]

/-! ## The private key's slot (rules R134, R137) -/

/-- The old key is zeroed before the new one is written, so that a load leaves the new one alone. -/
theorem State.loadSk_wipeSk (s : State) (v : Bytes 32) : s.wipeSk.loadSk v = s.loadSk v := rfl

/-- The check of SKLOAD: KEYLEN is the number 32 exactly when it is the word 32. -/
theorem execSkload_eq (s : State) :
    execSkload s = .next (
      if s.keylen = 32#32 then ((s.loadSk s.keyin).wipeKeyin).finish else s.wipeKeyin.raise .invalidKeyLength) := by
  have hlen : s.keylen.toNat = 32 ↔ s.keylen = 32#32 := BitVec.toNat_inj (y := 32#32)
  rw [execSkload]
  simp only [ne_eq, ite_not, hlen, State.loadSk_wipeSk]

/-- Settles O21: KEYIN is zeroed whether or not its length is right, and SK takes it, unclamped, only when it is. -/
theorem skloadResult : Obligations.SkloadResult := by
  refine ⟨rfl, fun s => ⟨fun hlen => ?_, fun hlen => ?_⟩⟩
  · rw [exec, execSkload_eq, if_pos hlen, State.wipeKeyin, State.loadSk, State.finish]
  · rw [exec, execSkload_eq, if_neg hlen, State.wipeKeyin, State.raise]

/-- Settles O23: SKDROP has no check, so its end is one for every state. -/
theorem skdropResult : Obligations.SkdropResult := by
  refine ⟨rfl, fun s => ?_⟩
  rw [exec, execSkdrop, State.dropSk, State.wipeSk, State.finish]

end Sys2Proof.Machine
end

section
/-! Checks and errors (60_exceptions.md): which error the checks of a command answer, in the order of rule R158, and the
state a command that ends with an error leaves (rule R159). -/

namespace Sys2Proof.Machine

/-! ## The failure entry (rules R151, R159) -/

/-- Settles O22: the refusing halves of CKLOAD's and SKLOAD's results. -/
theorem loadRefusesOtherLengths : Obligations.LoadRefusesOtherLengths := by
  intro s hlen
  obtain ⟨-, hck⟩ := ckloadResult
  obtain ⟨-, hsk⟩ := skloadResult
  exact ⟨(hck s).2 hlen, (hsk s).2 hlen⟩

theorem State.raise_failing (s : State) (i : Instr) (e : CmdError) :
    (s.failing i).raise e = { s with
      outLen := if isData i then 0#64 else s.outLen, keyin := if isLoad i then zeros 32 else s.keyin,
      latch := none, done := true, error := some e, scratch := Scratch.zero } := by
  rw [State.failing]
  cases isData i <;> cases isLoad i <;> rfl

/-- Settles O28: of the states a command can end in, only the failed one has an error. -/
theorem failureEntry : Obligations.FailureEntry := by
  intro i s t e hi hexec herr
  obtain ⟨u, hu, hend⟩ := exec_command hi s
  obtain rfl : u = t := Host.Outcome.next.inj (hu.symm.trans hexec)
  cases hend with
  | failed e' =>
    obtain rfl : e' = e := Option.some.inj herr
    exact s.raise_failing i e'
  | wroteOut | loadedCk | loadedSk | droppedSk | wroteKs | wroteResult => exact absurd herr nofun

/-! ## What a command's checks answer -/

/-- The error a command's checks answer before any work, in the order of its own rule. -/
def State.checkError (s : State) : Instr → Option CmdError
  | .ckload | .skload => if s.keylen = 32#32 then none else some .invalidKeyLength
  | .ccblock | .hchacha => if s.ckValid then none else some .noKey
  | .skpub | .skexch => if s.skValid then none else some .noKey
  | .ccxor => s.streamError
  | .aeadenc | .xaeadenc => s.encryptError
  | .aeaddec | .xaeaddec => s.decryptError
  | _ => none

/-- Where command `i` stands after its checks: an error ends it in the failure entry. -/
def State.afterChecks (s : State) (i : Instr) (t : State) : State :=
  (s.checkError i).elim t (s.failing i).raise

/-- After its checks only the tag can fail a command (rule R153). -/
def State.EndsChecked (t : State) : Prop := t.error = none ∨ t.error = some .authenticationFailure

theorem afterChecks_of_one {i : Instr} {s t : State} {c : Prop} [Decidable c] {e : CmdError}
    {o : Host.Outcome State Fault Refusal} (hexec : o = .next (if c then t else (s.failing i).raise e))
    (herr : s.checkError i = if c then none else some e) (ht : t.EndsChecked) :
    ∃ t : State, o = .next (s.afterChecks i t) ∧ t.EndsChecked := by
  refine ⟨t, ?_, ht⟩
  rw [hexec, State.afterChecks, herr]
  split <;> rfl

theorem afterChecks_of_data {i : Instr} {s t : State} (hd : isData i = true) (hl : isLoad i = false)
    {o : Host.Outcome State Fault Refusal} (hexec : o = .next (s.checkedBy (s.checkError i) t)) (ht : t.EndsChecked) :
    ∃ t : State, o = .next (s.afterChecks i t) ∧ t.EndsChecked := by
  have hf : s.failing i = s.setOutLen 0#64 := by rw [State.failing, if_pos hd, if_neg (by simp [hl])]
  refine ⟨t, ?_, ht⟩
  rw [hexec, State.afterChecks, hf]
  cases s.checkError i <;> rfl

theorem State.endsChecked_decrypted (s : State) (key : Bytes 32) (nonce : Bytes 12) :
    (s.decrypted key nonce).EndsChecked := by
  rw [State.decrypted]
  split
  · exact .inl rfl
  · exact .inr rfl

/-- Every command is its checks, then an end that only the tag can fail. -/
theorem exec_afterChecks {i : Instr} (hi : isCommand i = true) (s : State) :
    ∃ t : State, exec i s = .next (s.afterChecks i t) ∧ t.EndsChecked := by
  cases i
  case minit | mupd | mtag | mvfy | fdec | fenc | fadd | fsub | fmul | fsqr | finv | fcswap =>
    exact absurd hi (by simp [isCommand, encode])
  case skdrop => exact ⟨s.dropSk.finish, rfl, .inl rfl⟩
  case ckload => exact afterChecks_of_one (execCkload_eq s) rfl (.inl rfl)
  case skload => exact afterChecks_of_one (execSkload_eq s) rfl (.inl rfl)
  case ccblock => exact afterChecks_of_one (execCcblock_eq s) rfl (.inl rfl)
  case hchacha => exact afterChecks_of_one (execHchacha_eq s) rfl (.inl rfl)
  case skpub => exact afterChecks_of_one (execSkpub_eq s) rfl (.inl rfl)
  case skexch => exact afterChecks_of_one (execSkexch_eq s) rfl (.inl rfl)
  case ccxor => exact afterChecks_of_data rfl rfl (execCcxor_eq s) (.inl rfl)
  case aeadenc => exact afterChecks_of_data rfl rfl (execAeadenc_eq s) (.inl rfl)
  case xaeadenc => exact afterChecks_of_data rfl rfl (execXaeadenc_eq s) (.inl rfl)
  case aeaddec => exact afterChecks_of_data rfl rfl (execAeaddec_eq s) (s.endsChecked_decrypted _ _)
  case xaeaddec => exact afterChecks_of_data rfl rfl (execXaeaddec_eq s) (s.endsChecked_decrypted _ _)

/-- Only a command has checks. -/
theorem isCommand_of_checkError {i : Instr} {s : State} {e : CmdError} (h : s.checkError i = some e) :
    isCommand i = true := by
  cases i
  case minit | mupd | mtag | mvfy | fdec | fenc | fadd | fsub | fmul | fsqr | finv | fcswap => exact absurd h nofun
  all_goals rfl

theorem exec_of_checkError {i : Instr} {s : State} {e : CmdError} (h : s.checkError i = some e) :
    exec i s = .next ((s.failing i).raise e) := by
  obtain ⟨t, ht, -⟩ := exec_afterChecks (isCommand_of_checkError h) s
  rw [ht, State.afterChecks, h, Option.elim_some]

/-! ## NoKey (rule R155) -/

/-- A load answers InvalidKeyLength only. -/
theorem isLoad_of_noKey {i : Instr} {s : State} (h : s.checkError i = some .noKey) : isLoad i = false := by
  cases i
  case ckload | skload => simp [State.checkError] at h
  all_goals rfl

theorem State.checkError_of_noKey {i : Instr} {s : State}
    (h : (usesCk i = true ∧ s.ckValid = false) ∨ (usesSk i = true ∧ s.skValid = false)) :
    s.checkError i = some .noKey := by
  obtain ⟨hi, hck⟩ | ⟨hi, hsk⟩ := h
  · simp only [usesCk, List.mem_cons, List.not_mem_nil, or_false, decide_eq_true_eq] at hi
    rcases hi with rfl | rfl | rfl | rfl | rfl | rfl | rfl <;>
      simp [State.checkError, State.streamError, State.encryptError, State.decryptError, firstError, hck]
  · simp only [usesSk, List.mem_cons, List.not_mem_nil, or_false, decide_eq_true_eq] at hi
    rcases hi with rfl | rfl <;> simp [State.checkError, hsk]

/-- Settles O24: the key's check is the first of every command that uses a slot, and no such command is a load. -/
theorem noKeyFirst : Obligations.NoKeyFirst := by
  intro i s h
  have herr := State.checkError_of_noKey h
  rw [exec_of_checkError herr, State.raise_failing, isLoad_of_noKey herr]
  rfl

/-! ## The length bounds (rules R35, R152, R156) -/

section
variable {s : State} (hck : s.ckValid = true)
include hck

theorem State.streamError_of_length (h : s.cfg.dataMax.val < s.inLen.toNat) :
    s.streamError = some .lengthOutOfRange := by
  simp [State.streamError, firstError, hck, h]

theorem State.encryptError_of_length (h : s.cfg.dataMax.val < s.inLen.toNat ∨ s.cfg.aadMax.val < s.aadLen.toNat) :
    s.encryptError = some .lengthOutOfRange := by
  simp [State.encryptError, firstError, hck, h]

theorem State.decryptError_of_length
    (h : s.cfg.dataMax.val + 16 < s.inLen.toNat ∨ s.cfg.aadMax.val < s.aadLen.toNat) :
    s.decryptError = some .lengthOutOfRange := by
  simp [State.decryptError, firstError, hck, h]

theorem State.decryptError_of_short (hin : s.inLen.toNat ≤ s.cfg.dataMax.val + 16)
    (haad : s.aadLen.toNat ≤ s.cfg.aadMax.val) (h : s.inLen.toNat < minDec s.cfg) :
    s.decryptError = some .ciphertextTooShort := by
  simp [State.decryptError, firstError, hck, hin.not_gt, haad.not_gt, h]

end

/-- Settles O25: with the key's check passed, the length bounds are the next check of each data command. -/
theorem lengthCheckSecond : Obligations.LengthCheckSecond := by
  rintro i s hck (⟨rfl, h⟩ | ⟨rfl | rfl, h⟩ | ⟨rfl | rfl, h⟩)
  · exact exec_of_checkError (i := .ccxor) (s.streamError_of_length hck h)
  · exact exec_of_checkError (i := .aeadenc) (s.encryptError_of_length hck h)
  · exact exec_of_checkError (i := .xaeadenc) (s.encryptError_of_length hck h)
  · exact exec_of_checkError (i := .aeaddec) (s.decryptError_of_length hck h)
  · exact exec_of_checkError (i := .xaeaddec) (s.decryptError_of_length hck h)

/-- Settles O26: MIN_DEC_LEN is checked after the bounds and before CTR. -/
theorem tooShortThird : Obligations.TooShortThird := by
  intro i s hi hck hin haad hshort
  have herr : s.decryptError = some .ciphertextTooShort := s.decryptError_of_short hck hin haad hshort
  obtain rfl | rfl := hi
  · exact exec_of_checkError (i := .aeaddec) herr
  · exact exec_of_checkError (i := .xaeaddec) herr

/-! ## The counter check (rules R67, R157) -/

theorem ctrOverflows_of_fault {c : Config} {base : Word} {n : Nat} (hc : c.ctrOverflow = .fault) (hn : 0 < n)
    (h : 2 ^ 32 - 1 < base.toNat + (n + 63) / 64 - 1) : ctrOverflows c base n = true := by
  rw [← Bool.not_eq_false, ctrOverflows_eq_false, hc]
  rintro (hwrap | hempty | hle)
  · exact absurd hwrap nofun
  · omega
  · omega

theorem minDec_le (c : Config) : minDec c ≤ 17 := by
  rw [minDec]
  split <;> decide

section
variable {s : State} (hck : s.ckValid = true)
include hck

theorem State.streamError_of_counter (hin : s.inLen.toNat ≤ s.cfg.dataMax.val)
    (h : ctrOverflows s.cfg s.ctr s.inLen.toNat = true) : s.streamError = some .counterOverflow := by
  simp [State.streamError, firstError, hck, hin.not_gt, h]

theorem State.encryptError_of_counter (hin : s.inLen.toNat ≤ s.cfg.dataMax.val)
    (haad : s.aadLen.toNat ≤ s.cfg.aadMax.val) (h : ctrOverflows s.cfg s.ctr s.inLen.toNat = true) :
    s.encryptError = some .counterOverflow := by
  simp [State.encryptError, firstError, hck, hin.not_gt, haad.not_gt, h]

theorem State.decryptError_of_counter (hin : s.inLen.toNat ≤ s.cfg.dataMax.val + 16)
    (haad : s.aadLen.toNat ≤ s.cfg.aadMax.val) (hmin : minDec s.cfg ≤ s.inLen.toNat)
    (h : ctrOverflows s.cfg s.ctr (s.inLen.toNat - 16) = true) : s.decryptError = some .counterOverflow := by
  simp [State.decryptError, firstError, hck, hin.not_gt, haad.not_gt, hmin.not_gt, h]

end

/-- An error that only passing checks would raise is not the answer. -/
theorem firstError_ne_some {l : List (Bool × CmdError)} {e : CmdError} (h : ∀ c ∈ l, c.2 = e → c.1 = false) :
    firstError l ≠ some e := by
  induction l with
  | nil => exact nofun
  | cons c l ih =>
    obtain ⟨fails, e'⟩ := c
    obtain ⟨hc, hl⟩ := List.forall_mem_cons.mp h
    cases fails with
    | false => exact ih hl
    | true => exact fun he => absurd (hc (Option.some.inj he)) nofun

/-- CTRCHECK is the one check that answers CounterOverflow, and wrap mode has none. -/
theorem State.checkError_ne_counterOverflow {s : State} (hwrap : s.cfg.ctrOverflow = .wrap) (i : Instr) :
    s.checkError i ≠ some .counterOverflow := by
  have hpass (n : Nat) : ctrOverflows s.cfg s.ctr n = false := ctrOverflows_eq_false.mpr (.inl hwrap)
  cases i
  case ccxor | aeadenc | xaeadenc | aeaddec | xaeaddec => exact firstError_ne_some (by simp [hpass])
  case ckload | skload | ccblock | hchacha | skpub | skexch => simp [State.checkError]
  all_goals exact nofun

/-- No command ends with CounterOverflow in wrap mode: neither its checks nor the tag's raise it. -/
theorem exec_error_ne_counterOverflow {i : Instr} {s t : State} (hi : isCommand i = true)
    (hwrap : s.cfg.ctrOverflow = .wrap) (hexec : exec i s = .next t) : t.error ≠ some .counterOverflow := by
  obtain ⟨u, hu, hend⟩ := exec_afterChecks hi s
  obtain rfl : s.afterChecks i u = t := Host.Outcome.next.inj (hu.symm.trans hexec)
  rw [State.afterChecks]
  cases herr : s.checkError i with
  | none => obtain h | h := hend <;> simp [h]
  | some e => exact fun h => State.checkError_ne_counterOverflow hwrap i (herr.trans h)

/-- Settles O27: CTRCHECK is the last check of each data command, over the bytes that are enciphered, and the one check
that raises CounterOverflow. -/
theorem counterCheckFourth : Obligations.CounterCheckFourth := by
  refine ⟨fun i s t => exec_error_ne_counterOverflow, ?_⟩
  intro i s n hck hfault hi hn hlast
  have hover := ctrOverflows_of_fault hfault hn hlast
  obtain ⟨rfl, hin, rfl⟩ | ⟨rfl | rfl, hin, haad, rfl⟩ | ⟨rfl | rfl, hin, haad, hmin, rfl⟩ := hi
  · exact exec_of_checkError (i := .ccxor) (s.streamError_of_counter hck hin hover)
  · exact exec_of_checkError (i := .aeadenc) (s.encryptError_of_counter hck hin haad hover)
  · exact exec_of_checkError (i := .xaeadenc) (s.encryptError_of_counter hck hin haad hover)
  · exact exec_of_checkError (i := .aeaddec)
      (s.decryptError_of_counter hck hin haad ((minDec_le s.cfg).trans hmin) hover)
  · exact exec_of_checkError (i := .xaeaddec)
      (s.decryptError_of_counter hck hin haad ((minDec_le s.cfg).trans hmin) hover)

end Sys2Proof.Machine
end

section
/-! Encodings (30_encoding.md): which words of the three formats decode, to what, and that each is the word of what it
decodes to (rules R45, R46, R51 to R55). -/

namespace Sys2Proof.Machine

/-! ## Command words (rules R46, R51) -/

/-- A command word is the word of the command it decodes to, or it is illegal. -/
theorem decodeCmd_cases (w : Word) :
    (∃ i, decodeCmd w = .instr i ∧ encode i = .cmd w) ∨ decodeCmd w = .reject .illegalCommand := by
  rw [decodeCmd]
  split
  case isTrue => exact .inr rfl
  case isFalse hrsvd =>
    have word_eq {k : Nat} (hk : w.toNat % 256 = k) : BitVec.ofNat 32 k = w := by
      rw [← hk, Nat.mod_eq_of_lt (by omega), BitVec.ofNat_toNat, BitVec.setWidth_eq]
    split
    case h_13 => exact .inr rfl
    all_goals exact .inl ⟨_, rfl, congrArg Encoded.cmd (word_eq ‹_›)⟩

theorem encode_of_decodeCmd {w : Word} {i : Instr} (h : decodeCmd w = .instr i) : encode i = .cmd w := by
  obtain ⟨j, hj, hw⟩ | hbad := decodeCmd_cases w
  · obtain rfl : j = i := Decoded.instr.inj (hj.symm.trans h)
    exact hw
  · exact absurd (hbad.symm.trans h) nofun

theorem decodeCmd_of_not_instr {w : Word} (h : ∀ i, decodeCmd w ≠ .instr i) :
    decodeCmd w = .reject .illegalCommand :=
  (decodeCmd_cases w).resolve_left fun ⟨i, hi, _⟩ => h i hi

theorem decode_encode_command {i : Instr} (hi : isCommand i = true) : decode (encode i) = .instr i := by
  cases i
  case minit | mupd | mtag | mvfy | fdec | fenc | fadd | fsub | fmul | fsqr | finv | fcswap =>
    exact absurd hi (by simp [isCommand, encode])
  all_goals rfl

/-- RSVD and OPCODE make up the word. -/
theorem eq_append_of_slices (w : Word) : w = w.extractLsb' 8 24 ++ w.extractLsb' 0 8 := by
  rw [BitVec.extractLsb'_append_extractLsb'_eq_extractLsb' (by decide)]
  exact BitVec.extractLsb'_eq_self.symm

/-- Settles O3: the legal words are the words of the twelve commands. -/
theorem commandWordLegal : Obligations.CommandWordLegal := by
  refine fun w => ⟨⟨fun ⟨i, hi⟩ => ?_, fun ⟨hrsvd, hop⟩ => ?_⟩, decodeCmd_of_not_instr⟩
  · have hw : encode i = .cmd w := encode_of_decodeCmd hi
    have hcmd : isCommand i = true := isCommand_of_decodeCmd hi
    cases i
    case minit | mupd | mtag | mvfy | fdec | fenc | fadd | fsub | fmul | fsqr | finv | fcswap =>
      exact absurd hcmd (by simp [isCommand, encode])
    all_goals
      obtain rfl := Encoded.cmd.inj hw
      decide
  · rw [eq_append_of_slices w, hrsvd]
    simp only [List.mem_cons, List.not_mem_nil, or_false] at hop
    rcases hop with h | h | h | h | h | h | h | h | h | h | h | h <;> exact ⟨_, by rw [h]; rfl⟩

/-! ## MAC-port words (rule R52) -/

theorem decodeMop_minit (key : Bytes 32) : decodeMop 0#2 key.toList = .instr (.minit key) :=
  dif_pos key.length_toList

theorem decodeMop_mupd (block : Bytes 16) : decodeMop 1#2 block.toList = .instr (.mupd block) :=
  dif_pos block.length_toList

theorem decodeMop_mvfy (tag : Bytes 16) : decodeMop 3#2 tag.toList = .instr (.mvfy tag) :=
  dif_pos tag.length_toList

theorem encode_of_decodeMop {code : BitVec 2} {payload : List Byte} {i : Instr}
    (h : decodeMop code payload = .instr i) : encode i = .mop code payload ∧ i.wf = true := by
  have code_eq {k : Nat} (hk : code.toNat = k) : BitVec.ofNat 2 k = code := by
    rw [← hk, BitVec.ofNat_toNat, BitVec.setWidth_eq]
  rw [decodeMop] at h
  split at h
  case h_1 hc | h_2 hc =>
    split at h
    · cases h
      exact ⟨congrArg (Encoded.mop · payload) (code_eq hc), rfl⟩
    · exact absurd h nofun
  case h_3 hc =>
    split at h
    case isTrue hp =>
      cases h
      obtain rfl := List.eq_nil_of_length_eq_zero hp
      exact ⟨congrArg (Encoded.mop · []) (code_eq hc), rfl⟩
    case isFalse => exact absurd h nofun
  case h_4 h0 h1 h2 =>
    have hc : code.toNat = 3 := by
      have hlt := code.isLt
      have hne : code.toNat ≠ 0 ∧ code.toNat ≠ 1 ∧ code.toNat ≠ 2 := ⟨h0, h1, h2⟩
      omega
    split at h
    · cases h
      exact ⟨congrArg (Encoded.mop · payload) (code_eq hc), rfl⟩
    · exact absurd h nofun

/-! ## Field-port words (rules R53 to R55) -/

theorem checked_of_wf {i : Instr} (h : i.wf = true) : checked i = .instr i := if_pos h

theorem byteSourceOf_code (src : ByteSource) : byteSourceOf (byteSourceCode src) = some src := by cases src <;> rfl

theorem code_of_byteSourceOf {b : Fin 16} {src : ByteSource} (h : byteSourceOf b = some src) :
    byteSourceCode src = b := by
  revert b
  cases src <;> decide

theorem decodeFields_fdec {d : FReg} {src : ByteSource} (h : (Instr.fdec d src).wf = true) :
    decodeFields 0x1 d 0 (byteSourceCode src) = .instr (.fdec d src) := by
  simp only [decodeFields, byteSourceOf_code]
  exact checked_of_wf h

/-- The fields an instruction was decoded from give its word back. -/
theorem encode_of_decodeFields {fopc d a b : Fin 16} {i : Instr} (h : decodeFields fopc d a b = .instr i) :
    encode i = .fop (fopWord fopc d a b) ∧ i.wf = true := by
  have word_eq {k : Fin 16} (hk : fopc.val = k.val) : Encoded.fop (fopWord k d a b) = .fop (fopWord fopc d a b) := by
    rw [Fin.ext hk]
  rw [decodeFields] at h
  split at h
  case h_1 hf =>
    split at h
    case h_1 src hsrc =>
      obtain ⟨hc, hz⟩ := unusedZero_instr h
      obtain ⟨rfl, hwf⟩ := checked_instr hc
      obtain rfl : a = 0 := by simpa using hz
      rw [encode, code_of_byteSourceOf hsrc]
      exact ⟨word_eq hf, hwf⟩
    case h_2 => exact absurd h nofun
  case h_2 hf =>
    obtain ⟨hc, hz⟩ := unusedZero_instr h
    obtain ⟨rfl, hwf⟩ := checked_instr hc
    obtain ⟨rfl, rfl⟩ : d = 0 ∧ b = 0 := by simpa using hz
    exact ⟨word_eq hf, hwf⟩
  case h_3 hf | h_4 hf | h_5 hf =>
    obtain ⟨rfl, hwf⟩ := checked_instr h
    exact ⟨word_eq hf, hwf⟩
  case h_6 hf | h_7 hf =>
    obtain ⟨hc, hz⟩ := unusedZero_instr h
    obtain ⟨rfl, hwf⟩ := checked_instr hc
    obtain rfl : b = 0 := by simpa using hz
    exact ⟨word_eq hf, hwf⟩
  case h_8 hf =>
    obtain ⟨hc, hz⟩ := unusedZero_instr h
    obtain ⟨rfl, hwf⟩ := checked_instr hc
    obtain rfl : d = 0 := by simpa using hz
    exact ⟨word_eq hf, hwf⟩
  case h_9 => exact absurd h nofun

theorem encode_of_decodeFop {w : BitVec 16} {i : Instr} (h : decodeFop w = .instr i) :
    encode i = .fop w ∧ i.wf = true := by
  rw [← fopWord_nibble w]
  exact encode_of_decodeFields h

/-! ## Decoding and encoding -/

/-- Settles O1: command words by the table, MAC-port words by their payload's length, field-port words by their
fields. -/
theorem decodeOfEncode : Obligations.DecodeOfEncode := by
  intro i hwf
  cases i
  case minit key => exact decodeMop_minit key
  case mupd block => exact decodeMop_mupd block
  case mvfy tag => exact decodeMop_mvfy tag
  case fdec d src => rw [encode, decode, decodeFop_fopWord, decodeFields_fdec hwf]
  case fenc | fadd | fsub | fmul | fsqr | finv | fcswap =>
    rw [encode, decode, decodeFop_fopWord]
    exact checked_of_wf hwf
  case mtag => rfl
  all_goals exact decode_encode_command rfl

/-- Settles O2: format by format, what the decoder lets through has the word it was given. -/
theorem encodeOfDecode : Obligations.EncodeOfDecode := by
  intro e i h
  cases e with
  | cmd w =>
    have hw := encode_of_decodeCmd h
    refine ⟨hw, ?_⟩
    cases i
    case fdec | fenc | fadd | fsub | fmul | fsqr | finv | fcswap => exact absurd hw nofun
    all_goals rfl
  | mop code payload => exact encode_of_decodeMop h
  | fop w => exact encode_of_decodeFop h

/-- Settles O4: the words as the decoder reads them, the payloads by the MAC port's rows. -/
theorem wordsOfTheTables : Obligations.WordsOfTheTables := by
  refine ⟨rfl, rfl, rfl, rfl, rfl, rfl, rfl, rfl, rfl, rfl, rfl, rfl, decodeMop_minit, decodeMop_mupd, rfl,
    decodeMop_mvfy, ?_⟩
  decide

/-! ## Reserved field-port words (rule R55) -/

theorem checked_ne_illegalCommand (i : Instr) : checked i ≠ .reject .illegalCommand := by
  rw [checked]
  split <;> exact nofun

theorem unusedZero_ne_illegalCommand {d : Decoded} (h : d ≠ .reject .illegalCommand) (l : List (Fin 16)) :
    unusedZero l d ≠ .reject .illegalCommand := by
  rw [unusedZero]
  split
  · exact h
  · exact nofun

/-- IllegalCommand is an error of command words only (rules R51, R55). -/
theorem decodeFop_ne_illegalCommand (w : BitVec 16) : decodeFop w ≠ .reject .illegalCommand := by
  rw [decodeFop, decodeFields]
  split
  case h_1 =>
    split
    · exact unusedZero_ne_illegalCommand (checked_ne_illegalCommand _) _
    · exact nofun
  case h_3 | h_4 | h_5 => exact checked_ne_illegalCommand _
  case h_9 => exact nofun
  all_goals exact unusedZero_ne_illegalCommand (checked_ne_illegalCommand _) _

theorem fopWord_injective {fopc d a b fopc' d' a' b' : Fin 16} (h : fopWord fopc d a b = fopWord fopc' d' a' b') :
    fopc = fopc' ∧ d = d' ∧ a = a' ∧ b = b' := by
  obtain ⟨h3, h2, h1, h0⟩ := nibble_fopWord fopc d a b
  obtain ⟨h3', h2', h1', h0'⟩ := nibble_fopWord fopc' d' a' b'
  rw [h] at h3 h2 h1 h0
  exact ⟨h3.symm.trans h3', h2.symm.trans h2', h1.symm.trans h1', h0.symm.trans h0'⟩

/-- The fields of a word that decodes: an operation 1 to 8, registers F0 to F12, an FDEC source 0 to 3. -/
theorem fields_of_decodeFields {fopc d a b : Fin 16} {i : Instr} (h : decodeFields fopc d a b = .instr i) :
    (1 ≤ fopc.val ∧ fopc.val ≤ 8) ∧ d.val ≤ 12 ∧ a.val ≤ 12 ∧ b.val ≤ 12 ∧ (fopc.val = 1 → b.val < 4) := by
  obtain ⟨he, hwf⟩ := encode_of_decodeFields h
  cases i
  case fdec _ src =>
    obtain ⟨rfl, rfl, rfl, rfl⟩ := fopWord_injective (Encoded.fop.inj he)
    refine ⟨by decide, (FReg.usable_iff _).mp hwf, by decide, ?_⟩
    cases src <;> decide
  case fenc | fadd | fsub | fmul | fsqr | finv | fcswap =>
    obtain ⟨rfl, rfl, rfl, rfl⟩ := fopWord_injective (Encoded.fop.inj he)
    exact ⟨by decide, by simpa [Instr.wf, FReg.usable, and_assoc] using hwf⟩
  all_goals exact absurd he nofun

/-- Settles O5: a word that decodes has none of the reserved values, and what it is rejected as is no error of a
command. -/
theorem reservedPortWordsRefused : Obligations.ReservedPortWordsRefused := by
  intro w hw
  cases hd : decodeFop w with
  | instr i =>
    have hfields := fields_of_decodeFields hd
    omega
  | reject r =>
    refine ⟨⟨r, hd⟩, fun s hs => ⟨r, ?_⟩⟩
    have hr : r ≠ .illegalCommand := fun h => decodeFop_ne_illegalCommand w (h ▸ hd)
    simp only [runEvent, sequencerTurn, hs, decode, hd]

/-! ## The words of the field port, by their fields (rules R45, R53, R54) -/

theorem fopWord_eq_sum (fopc d a b : Fin 16) :
    fopWord fopc d a b = BitVec.ofNat 16 (fopc.val * 4096) + 0x100#16 * BitVec.ofNat 16 d.val +
      0x10#16 * BitVec.ofNat 16 a.val + BitVec.ofNat 16 b.val := by
  rw [fopWord, BitVec.ofNat_add, BitVec.ofNat_add, BitVec.ofNat_add, Nat.mul_comm d.val, Nat.mul_comm a.val,
    BitVec.ofNat_mul (x := 256), BitVec.ofNat_mul (x := 16)]

/-- Settles O6: the word is the sum of its fields at their places, and an unused field adds 0. -/
theorem fieldPortWords : Obligations.FieldPortWords := by
  intro d a b
  simp [encode, fopWord_eq_sum, byteSourceCode]

end Sys2Proof.Machine
end

section
/-! The step, reset and the invariant: what a step runs (rules R2, R3, R37), the state after `rst` (rule R24), and that
every step keeps the invariant and stops nowhere but outside a buffer. -/

namespace Sys2Proof.Machine

/-! ## What a step runs -/

theorem step_of_events_nil {s : State} (h : s.events = []) : step s = sequencerTurn s := by
  simp only [step, nextEvent, h, runEvent]

theorem step_of_events_cons {s : State} {e : Event} {es : List Event} (h : s.events = e :: es) :
    step s = runEvent e { s with events := es } := by
  simp only [step, nextEvent, h]

theorem sequencerTurn_of_instr {s : State} {w : Encoded} {i : Instr} (hl : s.latch = some w)
    (hd : decode w = .instr i) : sequencerTurn s = exec i s := by
  simp only [sequencerTurn, hl, hd]

theorem sequencerTurn_of_idle {s : State} (hl : s.latch = none) : sequencerTurn s = .next s := by
  simp only [sequencerTurn, hl]

/-- Settles O7: the next event is the first one listed, or the sequencer's turn. -/
theorem stepRunsDecoded : Obligations.StepRunsDecoded := by
  refine ⟨fun s w i hl hd => ⟨fun h => ?_, fun es h => ?_⟩, fun s hl => ⟨fun h => ?_, fun es h => ?_⟩,
    fun s a es h => ?_⟩
  · rw [step_of_events_nil h, sequencerTurn_of_instr hl hd]
  · rw [step_of_events_cons h]
    exact sequencerTurn_of_instr hl hd
  · rw [step_of_events_nil h, sequencerTurn_of_idle hl]
  · rw [step_of_events_cons h]
    exact sequencerTurn_of_idle hl
  · exact step_of_events_cons h

/-- The next event is taken off the list, and nothing else is touched. -/
theorem nextEvent_state (s : State) : ∃ es, (nextEvent s).2 = { s with events := es } := by
  rw [nextEvent]
  split
  · exact ⟨s.events, rfl⟩
  · exact ⟨_, rfl⟩

/-! ## Reset (rules R24, R170) -/

theorem reset_inv (c : Config) (es : List Event) : State.Inv { State.reset with cfg := c, events := es } where
  aadCanonical := rfl
  inpCanonical := rfl
  outCanonical := rfl
  aadWithin := rfl
  inpWithin := rfl
  outWithin := rfl
  outLenBound := Nat.zero_le _
  scratchReleased := rfl
  latchLegal := nofun
  busyFlags := nofun
  errorDone := fun h => absurd rfl h
  emptyCk := fun _ => rfl
  emptySk := fun _ => rfl

/-- Settles O8: `rst` keeps the parameters and the events to come, and the rest is the reset state's. -/
theorem resetState : Obligations.ResetState := by
  intro s es h
  have hread (b : Buffer) (addr : Nat) : ((resetBlock { s with events := es }).buffer b).read addr = 0#8 := by
    cases b <;> rfl
  exact ⟨_, step_of_events_cons h, rfl, rfl, rfl, rfl, rfl, rfl, rfl, rfl, rfl, rfl, rfl, rfl, rfl, rfl, rfl, rfl,
    rfl, rfl, hread, rfl⟩

/-- Settles O9: no part of the invariant at reset depends on the parameters. -/
theorem resetHasInv : Obligations.ResetHasInv := ⟨reset_inv _ _, fun c => reset_inv c _⟩

/-! ## A command keeps the invariant -/

section
variable {s : State} (h : s.DataInv)
include h

theorem State.DataInv.setOutLen {n : BitVec 64} (hn : n.toNat ≤ s.cfg.dataMax.val + 16) : (s.setOutLen n).DataInv :=
  { h with outLenBound := hn }

theorem State.DataInv.wipeKeyin : s.wipeKeyin.DataInv := { h with }

theorem State.DataInv.setKs (v : Bytes 64) : (s.setKs v).DataInv := { h with }

theorem State.DataInv.setResult (v : Bytes 32) : (s.setResult v).DataInv := { h with }

theorem State.DataInv.loadCk (v : Bytes 32) : (s.loadCk v).DataInv := { h with emptyCk := nofun }

theorem State.DataInv.loadSk (v : Bytes 32) : (s.loadSk v).DataInv := { h with emptySk := nofun }

theorem State.DataInv.dropSk : s.dropSk.DataInv := { h with emptySk := fun _ => rfl }

theorem State.DataInv.writeOut {v : List Byte} (hv : v.length ≤ s.cfg.dataMax.val + 16) : (s.writeOut 0 v).DataInv :=
  { h with
    outCanonical := Memory.wf_writeBytes h.outCanonical 0 v
    outWithin := Memory.within_writeBytes h.outWithin (by rwa [Nat.zero_add]) }

theorem State.DataInv.failing (i : Instr) : (s.failing i).DataInv := by
  have hlen : (if isData i then s.setOutLen 0#64 else s).DataInv := by
    split
    · exact h.setOutLen (Nat.zero_le _)
    · exact h
  rw [State.failing]
  split
  · exact hlen.wipeKeyin
  · exact hlen

end

/-- Every end of a command meets the invariant. -/
theorem CommandEnd.inv {i : Instr} {s t : State} (hend : CommandEnd i s t) (h : s.DataInv) : t.Inv := by
  cases hend with
  | failed e => exact (h.failing i).raise e
  | wroteOut v n _ hv hn => exact ((h.writeOut hv).setOutLen hn).finish
  | loadedCk => exact (h.loadCk _).wipeKeyin.finish
  | loadedSk => exact (h.loadSk _).wipeKeyin.finish
  | droppedSk => exact h.dropSk.finish
  | wroteKs v => exact (h.setKs v).finish
  | wroteResult v => exact (h.setResult v).finish

/-- Under the invariant the sequencer's turn is idle or runs a command to one of its ends. -/
theorem sequencerTurn_cases {s : State} (h : s.Inv) :
    sequencerTurn s = .next s ∨ ∃ i t, sequencerTurn s = .next t ∧ CommandEnd i s t := by
  cases hl : s.latch with
  | none => exact .inl (sequencerTurn_of_idle hl)
  | some w =>
    obtain ⟨c, i, rfl, hd⟩ := h.latchLegal w hl
    obtain ⟨t, ht, hend⟩ := exec_command (isCommand_of_decodeCmd hd) s
    exact .inr ⟨i, t, (sequencerTurn_of_instr hl hd).trans ht, hend⟩

/-! ## A host access keeps the invariant -/

theorem State.Inv.cmdWrite {s : State} (h : s.Inv) (w : Word) : (s.cmdWrite w).Inv := by
  rw [State.cmdWrite]
  split
  case h_1 i hi =>
    exact { h with
      latchLegal := fun w' hw => ⟨w, i, (Option.some.inj hw).symm, hi⟩
      busyFlags := fun _ => ⟨rfl, rfl⟩
      errorDone := fun he => absurd rfl he }
  case h_2 => exact h.data.raise _

/-- A write of a register other than CMD changes the host-written registers only (rules R15, R41). -/
theorem State.regWrite_frame (s : State) {r : HostReg} (hr : r ≠ .cmd) (v : Word) :
    ∃ ctr keylen aadLen inLen keyin nonce point, s.regWrite r v = { s with
      ctr := ctr, keylen := keylen, aadLen := aadLen, inLen := inLen, keyin := keyin, nonce := nonce,
      point := point } := by
  cases r
  case cmd => exact absurd rfl hr
  all_goals exact ⟨_, _, _, _, _, _, _, rfl⟩

theorem State.Inv.regWrite {s : State} (h : s.Inv) (r : HostReg) (v : Word) : (s.regWrite r v).Inv := by
  by_cases hr : r = .cmd
  · rw [hr]
    exact h.cmdWrite v
  · obtain ⟨_, _, _, _, _, _, _, hw⟩ := s.regWrite_frame hr v
    rw [hw]
    exact { h with }

theorem State.Inv.bufWrite {s : State} (h : s.Inv) {b : Buffer} {addr : Nat} (ha : addr < bufferSize s.cfg b)
    (v : Byte) : (s.bufWrite b addr v).Inv := by
  cases b with
  | aad =>
    exact { h with
      aadCanonical := Memory.wf_write h.aadCanonical addr v
      aadWithin := Memory.within_write h.aadWithin ha v }
  | inp =>
    exact { h with
      inpCanonical := Memory.wf_write h.inpCanonical addr v
      inpWithin := Memory.within_write h.inpWithin ha v }
  | out => exact h

theorem State.Inv.answer {s : State} (h : s.Inv) (v : Word) : (s.answer v).Inv := { h with }

theorem State.Inv.hostAccess {s t : State} (h : s.Inv) {a : Access}
    (hacc : Sys2Proof.Machine.hostAccess a s = .next t) : t.Inv := by
  cases a with
  | regRead k =>
    cases hacc
    exact h.answer _
  | regWrite k v =>
    cases hacc
    split
    · exact h
    · exact h.regWrite _ v
  | bufRead b addr =>
    rw [Sys2Proof.Machine.hostAccess] at hacc
    split at hacc
    · cases hacc
      exact h.answer _
    · split at hacc
      · cases hacc
        exact h.answer _
      · exact absurd hacc nofun
  | bufWrite b addr v =>
    rw [Sys2Proof.Machine.hostAccess] at hacc
    split at hacc
    · cases hacc
      exact h
    · split at hacc
      · cases hacc
        exact h.bufWrite ‹_› v
      · exact absurd hacc nofun

/-! ## A step keeps the invariant -/

theorem State.Inv.nextEvent {s : State} (h : s.Inv) : (Sys2Proof.Machine.nextEvent s).2.Inv := by
  obtain ⟨es, hes⟩ := nextEvent_state s
  rw [hes]
  exact { h with }

theorem State.Inv.runEvent {s t : State} (h : s.Inv) {e : Event}
    (hrun : Sys2Proof.Machine.runEvent e s = .next t) : t.Inv := by
  cases e with
  | host a => exact h.hostAccess hrun
  | rst =>
    cases hrun
    exact reset_inv _ _
  | sequencer =>
    obtain hidle | ⟨i, u, hu, hend⟩ := sequencerTurn_cases h
    · obtain rfl : s = t := Host.Outcome.next.inj (hidle.symm.trans hrun)
      exact h
    · obtain rfl : u = t := Host.Outcome.next.inj (hu.symm.trans hrun)
      exact hend.inv h.data

/-- Settles O10: taking an event keeps the invariant, and so does each event. -/
theorem stepKeepsInv : Obligations.StepKeepsInv := fun _ _ h hstep => h.nextEvent.runEvent hstep

/-! ## Where the machine stops -/

/-- A host access goes on, or it is outside its buffer and no command runs (rules R30, R39). -/
theorem hostAccess_next_or_outside (a : Access) (s : State) :
    (∃ t, hostAccess a s = .next t) ∨
      ∃ b addr, s.busy = false ∧ bufferSize s.cfg b ≤ addr ∧
        (a = .bufRead b addr ∨ ∃ v, a = .bufWrite b addr v) ∧ hostAccess a s = .fault (.outsideSpace b addr) := by
  cases a with
  | regRead k => exact .inl ⟨_, rfl⟩
  | regWrite k v => exact .inl ⟨_, rfl⟩
  | bufRead b addr =>
    cases hb : s.busy with
    | true => exact .inl ⟨_, hostAccess_bufRead_of_busy hb b addr⟩
    | false =>
      by_cases ha : addr < bufferSize s.cfg b
      · exact .inl (by simp [hostAccess, hb, ha])
      · exact .inr ⟨b, addr, rfl, by omega, .inl rfl, by simp [hostAccess, hb, ha]⟩
  | bufWrite b addr v =>
    cases hb : s.busy with
    | true => exact .inl ⟨_, hostAccess_bufWrite_of_busy hb b addr v⟩
    | false =>
      by_cases ha : addr < bufferSize s.cfg b
      · exact .inl (by simp [hostAccess, hb, ha])
      · exact .inr ⟨b, addr, rfl, by omega, .inr ⟨v, rfl⟩, by simp [hostAccess, hb, ha]⟩

/-- Settles O11: of the three events only a host access can stop the machine. -/
theorem stopsOnlyOutsideBuffers : Obligations.StopsOnlyOutsideBuffers := by
  intro s h
  obtain ⟨es, hes⟩ := nextEvent_state s
  rw [step]
  cases he : (nextEvent s).1 with
  | host a =>
    obtain hnext | ⟨b, addr, hb, ha, hacc, hfault⟩ := hostAccess_next_or_outside a (nextEvent s).2
    · exact .inl hnext
    · rw [hes] at hb ha
      refine .inr ⟨b, addr, hb, ha, ?_, hfault⟩
      simpa using hacc
  | rst => exact .inl ⟨_, rfl⟩
  | sequencer =>
    obtain hidle | ⟨i, t, ht, -⟩ := sequencerTurn_cases h.nextEvent
    · exact .inl ⟨_, hidle⟩
    · exact .inl ⟨t, ht⟩

end Sys2Proof.Machine
end

section
/-! The host interface (20_memory.md, 30_encoding.md): what a register or buffer access does outside a command, and that
none shows a secret. -/

namespace Sys2Proof.Machine

/-! ## The register map (rule R49) -/

theorem regAt_of_reserved :
    ∀ k : Fin 64, (0x0A ≤ k.val ∧ k.val < 0x10) ∨ k.val = 0x1E ∨ k.val = 0x1F → regAt k = .reserved := by decide

theorem regAt_of_keyin :
    ∀ k : Fin 64, 0x10 ≤ k.val ∧ k.val < 0x18 → ∃ j, regAt k = .keyin j ∧ j.val = k.val - 0x10 := by decide

theorem regAt_of_nonce :
    ∀ k : Fin 64, 0x18 ≤ k.val ∧ k.val < 0x1E → ∃ j, regAt k = .nonce j ∧ j.val = k.val - 0x18 := by decide

theorem regAt_of_point :
    ∀ k : Fin 64, 0x20 ≤ k.val ∧ k.val < 0x28 → ∃ j, regAt k = .point j ∧ j.val = k.val - 0x20 := by decide

theorem regAt_of_result :
    ∀ k : Fin 64, 0x28 ≤ k.val ∧ k.val < 0x30 → ∃ j, regAt k = .result j ∧ j.val = k.val - 0x28 := by decide

theorem regAt_of_ks : ∀ k : Fin 64, 0x30 ≤ k.val → ∃ j, regAt k = .ks j ∧ j.val = k.val - 0x30 := by decide

/-- The offsets no write reaches. -/
theorem regAt_of_readOnly :
    ∀ k : Fin 64, k.val = 0x01 ∨ (0x08 ≤ k.val ∧ k.val < 0x10) ∨ k.val = 0x1E ∨ k.val = 0x1F ∨ 0x28 ≤ k.val →
      regAt k = .status ∨ regAt k = .outLenLo ∨ regAt k = .outLenHi ∨ regAt k = .reserved ∨ (∃ j, regAt k = .result j) ∨
        ∃ j, regAt k = .ks j := by decide

/-! ## The halves of a length register (rule R48) -/

theorem lo32_eq_extract (v : BitVec 64) : lo32 v = v.extractLsb' 0 32 := by
  rw [lo32, BitVec.setWidth_eq_extractLsb' (by decide)]

theorem hi32_eq_extract (v : BitVec 64) : hi32 v = v.extractLsb' 32 32 := by
  apply BitVec.eq_of_toNat_eq
  rw [hi32, BitVec.extractLsb'_toNat, BitVec.toNat_ofNat, Nat.shiftRight_eq_div_pow]

theorem join32_eq_append (hi lo : Word) : join32 hi lo = hi ++ lo := by
  have hhi := hi.isLt
  have hlo := lo.isLt
  apply BitVec.eq_of_toNat_eq
  rw [join32, BitVec.toNat_ofNat, BitVec.toNat_append, ← Nat.shiftLeft_add_eq_or_of_lt hlo, Nat.shiftLeft_eq,
    Nat.mod_eq_of_lt (by omega)]

/-! ## Accesses outside a command -/

section
variable {s : State} (hb : s.busy = false)
include hb

theorem hostAccess_regRead_of_idle (k : Fin 64) :
    hostAccess (.regRead k) s = .next { s with rdata := s.regRead (regAt k) } := by
  rw [hostAccess, State.hostRegRead, hb, Bool.false_and, if_neg Bool.false_ne_true, State.answer]

theorem hostAccess_regWrite_of_idle (k : Fin 64) (v : Word) :
    hostAccess (.regWrite k v) s = .next (s.regWrite (regAt k) v) := by
  rw [hostAccess, if_neg (by simp [hb])]

theorem hostAccess_bufRead_of_idle {b : Buffer} {addr : Nat} (ha : addr < bufferSize s.cfg b) :
    hostAccess (.bufRead b addr) s = .next { s with rdata := ((s.buffer b).read addr).setWidth 32 } := by
  rw [hostAccess, if_neg (by simp [hb]), if_pos ha, State.answer]

theorem hostAccess_bufWrite_of_idle {b : Buffer} {addr : Nat} (ha : addr < bufferSize s.cfg b) (v : Byte) :
    hostAccess (.bufWrite b addr v) s = .next (s.bufWrite b addr v) := by
  rw [hostAccess, if_neg (by simp [hb]), if_pos ha]

end

/-- Settles O13: outside a command a read is the register map's, offset by offset. -/
theorem registerMapReads : Obligations.RegisterMapReads := by
  intro s hb
  have reads {k : Fin 64} {r : HostReg} {v : Word} (hk : regAt k = r) (hv : s.regRead r = v) :
      hostAccess (.regRead k) s = .next { s with rdata := v } := by
    rw [hostAccess_regRead_of_idle hb, hk, hv]
  refine ⟨reads rfl rfl, reads rfl rfl, reads rfl rfl, reads rfl rfl,
    reads rfl (lo32_eq_extract _), reads rfl (hi32_eq_extract _), reads rfl (lo32_eq_extract _),
    reads rfl (hi32_eq_extract _), reads rfl (lo32_eq_extract _), reads rfl (hi32_eq_extract _),
    fun k hk => reads (regAt_of_reserved k hk) rfl, fun k hk => ?_, fun k hk => ?_, fun k hk => ?_, fun k hk => ?_,
    fun k hk => ?_⟩
  · obtain ⟨j, hj, -⟩ := regAt_of_keyin k hk
    exact reads hj rfl
  · obtain ⟨j, hj, hval⟩ := regAt_of_nonce k hk
    exact reads hj (by rw [State.regRead, hval])
  · obtain ⟨j, hj, hval⟩ := regAt_of_point k hk
    exact reads hj (by rw [State.regRead, hval])
  · obtain ⟨j, hj, hval⟩ := regAt_of_result k hk
    exact reads hj (by rw [State.regRead, hval])
  · obtain ⟨j, hj, hval⟩ := regAt_of_ks k hk
    exact reads hj (by rw [State.regRead, hval])

/-- Settles O14: outside a command a write is the register map's, and a byte register is written word by word. -/
theorem registerMapWrites : Obligations.RegisterMapWrites := by
  intro s v hb
  have writes {k : Fin 64} {r : HostReg} {t : State} (hk : regAt k = r) (ht : s.regWrite r v = t) :
      hostAccess (.regWrite k v) s = .next t := by
    rw [hostAccess_regWrite_of_idle hb, hk, ht]
  have lowHalf (old : BitVec 64) : join32 (hi32 old) v = old.extractLsb' 32 32 ++ v := by
    rw [join32_eq_append, hi32_eq_extract]
  have highHalf (old : BitVec 64) : join32 v (lo32 old) = v ++ old.extractLsb' 0 32 := by
    rw [join32_eq_append, lo32_eq_extract]
  refine ⟨writes rfl rfl, writes rfl rfl, writes (r := .aadLenLo) rfl (by rw [State.regWrite, lowHalf]),
    writes (r := .aadLenHi) rfl (by rw [State.regWrite, highHalf]),
    writes (r := .inLenLo) rfl (by rw [State.regWrite, lowHalf]),
    writes (r := .inLenHi) rfl (by rw [State.regWrite, highHalf]), fun k hk => ?_, fun k hk => ?_, fun k hk => ?_,
    fun k hk => ?_⟩
  · obtain h | h | h | h | ⟨j, h⟩ | ⟨j, h⟩ := regAt_of_readOnly k hk <;> exact writes h rfl
  · obtain ⟨j, hj, hval⟩ := regAt_of_keyin k hk
    refine ⟨setWordAt s.keyin j.val v, writes hj rfl, fun i hi => ?_⟩
    rw [← hval]
    exact le32At_setWordAt (n := 8) s.keyin j.val i hi v
  · obtain ⟨j, hj, hval⟩ := regAt_of_nonce k hk
    refine ⟨setWordAt s.nonce j.val v, writes hj rfl, fun i hi => ?_⟩
    rw [← hval]
    exact le32At_setWordAt (n := 6) s.nonce j.val i hi v
  · obtain ⟨j, hj, hval⟩ := regAt_of_point k hk
    refine ⟨setWordAt s.point j.val v, writes hj rfl, fun i hi => ?_⟩
    rw [← hval]
    exact le32At_setWordAt (n := 8) s.point j.val i hi v

/-- Settles O15: a byte access outside a command is the buffer's read or write. -/
theorem bufferAccess : Obligations.BufferAccess := by
  intro s addr v hb
  refine ⟨fun b ha => hostAccess_bufRead_of_idle hb ha, fun ha hwf => ?_, fun ha hwf => ?_, fun ha => ?_⟩
  · exact ⟨s.aad.write addr v, hostAccess_bufWrite_of_idle (b := .aad) hb ha v, Memory.wf_write hwf addr v,
      Memory.read_write hwf addr v⟩
  · exact ⟨s.inp.write addr v, hostAccess_bufWrite_of_idle (b := .inp) hb ha v, Memory.wf_write hwf addr v,
      Memory.read_write hwf addr v⟩
  · exact hostAccess_bufWrite_of_idle (b := .out) hb ha v

/-- Settles O16: a CMD write latches what decodes and raises IllegalCommand for what does not. -/
theorem cmdWrite : Obligations.CmdWrite := by
  intro s w hb
  have hwrite : hostAccess (.regWrite (wordIndex .cmd) w) s = .next (s.cmdWrite w) :=
    hostAccess_regWrite_of_idle hb (wordIndex .cmd) w
  refine ⟨fun i hi => ?_, fun hbad => ?_⟩
  · have hi' : decodeCmd w = .instr i := hi
    rw [hwrite, State.cmdWrite, hi']
  · rw [hwrite, State.cmdWrite, decodeCmd_of_not_instr hbad, State.raise]

/-! ## What the host sees (rules R16, R17, R163) -/

theorem publicPart_cmdWrite (s : State) (w : Word) :
    (s.publicPart.cmdWrite w).publicPart = (s.cmdWrite w).publicPart := by
  simp only [State.cmdWrite]
  split <;> rfl

/-- A write of KEYIN leaves no public trace (rule R17). -/
theorem publicPart_withKeyin (s : State) (v : Bytes 32) : State.publicPart { s with keyin := v } = s.publicPart := rfl

theorem publicPart_regWrite (s : State) (r : HostReg) (v : Word) :
    (s.publicPart.regWrite r v).publicPart = (s.regWrite r v).publicPart := by
  cases r
  case cmd => exact publicPart_cmdWrite s v
  case keyin => exact (publicPart_withKeyin s.publicPart _).trans (publicPart_withKeyin s _).symm
  all_goals rfl

theorem hostRegRead_publicPart (s : State) (r : HostReg) : s.publicPart.hostRegRead r = s.hostRegRead r := by
  cases r <;> rfl

/-- An access on the public part alone has the public outcome it has on the whole state. -/
theorem publicOutcome_hostAccess (a : Access) (s : State) :
    publicOutcome (hostAccess a s.publicPart) = publicOutcome (hostAccess a s) := by
  have hbusy : s.publicPart.busy = s.busy := rfl
  cases a with
  | regRead k =>
    rw [hostAccess, hostAccess, hostRegRead_publicPart]
    rfl
  | regWrite k v =>
    rw [hostAccess, hostAccess, hbusy]
    split
    · rfl
    · exact congrArg Host.Outcome.next (publicPart_regWrite s (regAt k) v)
  | bufRead b addr =>
    have hbuf : s.publicPart.buffer b = s.buffer b := by cases b <;> rfl
    have hsize : bufferSize s.publicPart.cfg b = bufferSize s.cfg b := rfl
    rw [hostAccess, hostAccess, hbusy, hbuf, hsize]
    split
    · rfl
    · split <;> rfl
  | bufWrite b addr v =>
    have hsize : bufferSize s.publicPart.cfg b = bufferSize s.cfg b := rfl
    rw [hostAccess, hostAccess, hbusy, hsize]
    split
    · rfl
    · split
      · cases b <;> rfl
      · rfl

/-- Settles O18: the public outcome of each event but the sequencer's turn is a function of the public part. -/
theorem hostSeesNoSecret : Obligations.HostSeesNoSecret := by
  intro s s' e he hpub
  have of_publicPart (s : State) : publicOutcome (runEvent e s.publicPart) = publicOutcome (runEvent e s) := by
    cases e with
    | host a => exact publicOutcome_hostAccess a s
    | rst => rfl
    | sequencer => exact absurd rfl he
  rw [← of_publicPart s, hpub, of_publicPart s']

/-! ## Memory (rule R36) -/

/-- Settles O19: the laws of byte strings in a buffer. -/
theorem memWriteThenRead : Obligations.MemWriteThenRead := fun _ addr v hwf =>
  ⟨Memory.wf_writeBytes hwf addr v, Memory.readBytes_writeBytes hwf addr v, fun _ ha =>
    Memory.read_writeBytes_outside hwf ha⟩

/-! ## Writers and ends (rules R22, R23, R43) -/

theorem CommandEnd.released {i : Instr} {s t : State} (hend : CommandEnd i s t) :
    t.busy = false ∧ t.done = true ∧ t.scratch = Scratch.zero := by
  cases hend <;> exact ⟨rfl, rfl, rfl⟩

/-- Settles O30: every command has an end, and every end releases the block. -/
theorem everyCommandEnds : Obligations.EveryCommandEnds := by
  intro i s hi
  obtain ⟨t, ht, hend⟩ := exec_command hi s
  exact ⟨t, ht, hend.released⟩

/-- Settles O29: a command writes what its end says, a port operation scratch state and, FENC alone, RESULT. -/
theorem writersOfState : Obligations.WritersOfState := by
  intro i s t h
  cases hi : isCommand i with
  | true =>
    obtain ⟨u, hu, hend⟩ := exec_command hi s
    obtain rfl : u = t := Host.Outcome.next.inj (hu.symm.trans h)
    cases hend with
    | failed e => simp +contextual [State.raise_failing]
    | wroteOut v n hd => simp [hd]
    | loadedCk hck => simp [hck, isLoad]
    | loadedSk hsk => simp [hsk, isLoad]
    | droppedSk hsk => simp [hsk]
    | wroteKs v hks => simp [hks]
    | wroteResult v hr => obtain rfl | rfl | rfl := hr <;> simp
  | false =>
    obtain rfl := exec_port hi h
    have hresult (hne : ∀ a, i ≠ .fenc a) : (issue i s).result = s.result := by
      obtain ⟨sc, hsc⟩ := issue_scratch hne s
      rw [hsc, State.withScratch_result]
    obtain ⟨sc, r, hf⟩ := issue_frame i s
    have hscratch : issue i s = (s.withScratch sc).setResult (issue i s).result := by rw [hf]; rfl
    rw [hscratch]
    exact ⟨rfl, rfl, rfl, rfl, rfl, rfl, rfl, rfl, rfl, rfl, rfl, fun _ => ⟨rfl, rfl⟩, fun _ => rfl,
      fun _ => ⟨rfl, rfl⟩, fun _ _ => ⟨rfl, rfl⟩, fun _ => rfl, fun _ _ _ => hresult⟩

end Sys2Proof.Machine
end

section
/-! The ChaCha20 engine's stream (40_chacha20.md): quarter rounds on disjoint words, and CCXOR (rules R62, R70 to
R72). -/

namespace Sys2Proof.Machine

/-! ## Quarter rounds on disjoint words (rule R72) -/

section
variable {a b c d : Fin 16} (hnodup : [a, b, c, d].Nodup)
include hnodup

/-- The words a quarter round leaves alone. -/
theorem getElem_quarterRound_of_notMem (x : Words) {k : Fin 16} (hk : k ∉ [a, b, c, d]) :
    (quarterRound a b c d x)[k] = x[k] := by
  simp only [List.nodup_cons, List.mem_cons, List.not_mem_nil, or_false, not_or] at hnodup hk
  obtain ⟨⟨hab, hac, had⟩, ⟨hbc, hbd⟩, hcd, -⟩ := hnodup
  obtain ⟨hka, hkb, hkc, hkd⟩ := hk
  exact (quarterRoundWords a b c d x hab hac had hbc hbd hcd).2.2.2.2 k hka hkb hkc hkd

/-- A quarter round's four words depend on those four words alone. -/
theorem getElem_quarterRound_congr {x y : Words} (hxy : ∀ k ∈ [a, b, c, d], x[k] = y[k]) :
    ∀ k ∈ [a, b, c, d], (quarterRound a b c d x)[k] = (quarterRound a b c d y)[k] := by
  simp only [List.nodup_cons, List.mem_cons, List.not_mem_nil, or_false, not_or] at hnodup
  obtain ⟨⟨hab, hac, had⟩, ⟨hbc, hbd⟩, hcd, -⟩ := hnodup
  obtain ⟨xa, xb, xc, xd, -⟩ := quarterRoundWords a b c d x hab hac had hbc hbd hcd
  obtain ⟨ya, yb, yc, yd, -⟩ := quarterRoundWords a b c d y hab hac had hbc hbd hcd
  simp only [List.forall_mem_cons, List.not_mem_nil, false_imp_iff, implies_true, and_true] at hxy ⊢
  obtain ⟨ha, hb, hc, hd⟩ := hxy
  simp only [ha, hb, hc, hd] at xa xb xc xd
  exact ⟨xa.trans ya.symm, xb.trans yb.symm, xc.trans yc.symm, xd.trans yd.symm⟩

end

/-- The words of one quarter round, before and after another on words disjoint from them. -/
theorem getElem_quarterRound_comm {a b c d a' b' c' d' : Fin 16} (hnodup : [a, b, c, d].Nodup)
    (hnodup' : [a', b', c', d'].Nodup) (hdisj : [a, b, c, d].Disjoint [a', b', c', d']) (x : Words) {k : Fin 16}
    (hk : k ∈ [a, b, c, d]) :
    (quarterRound a b c d (quarterRound a' b' c' d' x))[k] = (quarterRound a' b' c' d' (quarterRound a b c d x))[k] :=
  calc
    _ = (quarterRound a b c d x)[k] :=
      getElem_quarterRound_congr hnodup
        (fun _ hj => getElem_quarterRound_of_notMem hnodup' x fun hj' => hdisj hj hj') k hk
    _ = _ := (getElem_quarterRound_of_notMem hnodup' _ fun hk' => hdisj hk hk').symm

/-- Settles O32: each word belongs to one of the two quarter rounds, which the other does not touch, or to neither. -/
theorem quarterRoundsCommute : Obligations.QuarterRoundsCommute := by
  intro a b c d a' b' c' d' x h
  obtain ⟨hnodup, hnodup', hdisj⟩ := List.nodup_append'.mp (show ([a, b, c, d] ++ [a', b', c', d']).Nodup from h)
  have hword (k : Fin 16) : (quarterRound a b c d (quarterRound a' b' c' d' x))[k] =
      (quarterRound a' b' c' d' (quarterRound a b c d x))[k] := by
    by_cases hk : k ∈ [a, b, c, d]
    · exact getElem_quarterRound_comm hnodup hnodup' hdisj x hk
    · by_cases hk' : k ∈ [a', b', c', d']
      · exact (getElem_quarterRound_comm hnodup' hnodup hdisj.symm x hk').symm
      · rw [getElem_quarterRound_of_notMem hnodup _ hk, getElem_quarterRound_of_notMem hnodup' _ hk',
          getElem_quarterRound_of_notMem hnodup' _ hk', getElem_quarterRound_of_notMem hnodup _ hk]
  exact Vector.ext fun i hi => hword ⟨i, hi⟩

/-! ## Byte strings at the start of a buffer -/

/-- A byte string at address 0, address by address. -/
theorem Memory.read_writeBytes_zero {m : Memory} (h : m.wf = true) (v : List Byte) (a : Nat) :
    (m.writeBytes 0 v).read a = if ha : a < v.length then v[a] else m.read a := by
  split
  case isTrue ha =>
    have hin := Memory.read_writeBytes_inside (a := 0) h ha
    rwa [Nat.zero_add] at hin
  case isFalse ha => exact Memory.read_writeBytes_outside h (.inr (by omega))

/-- The bytes of a byte string written at address 0, by their number. -/
theorem Memory.readBytes_writeBytes_zero {m : Memory} (h : m.wf = true) {v : List Byte} {n : Nat} (hn : v.length = n) :
    (m.writeBytes 0 v).readBytes 0 n = v := by
  rw [← hn]
  exact Memory.readBytes_writeBytes h 0 v

/-! ## CCXOR (rules R70, R71) -/

theorem getElem_xorStream (key : Bytes 32) (base : Word) (nonce : Bytes 12) (data : List Byte) {j : Nat}
    (hj : j < (xorStream key base nonce data).length) :
    (xorStream key base nonce data)[j] =
      data[j]'(by rwa [length_xorStream] at hj) ^^^
        byteAt (block key (base + BitVec.ofNat 32 (j / 64)) nonce) (j % 64) := by
  have h := getElem_xorSegments key base nonce (segments data.length) 0 data j hj (by rwa [length_xorStream] at hj)
  rwa [Nat.zero_add] at h

theorem length_input (s : State) : s.input.length = s.inLen.toNat := Memory.length_readBytes ..

theorem getElem_input (s : State) {a : Nat} (h : a < s.input.length) : s.input[a] = s.inp.read a := by
  have hread := Memory.getElem_readBytes s.inp 0 s.inLen.toNat a h
  rwa [Nat.zero_add] at hread

/-- CCXOR with its checks passed. -/
theorem exec_ccxor_of_checks {s : State} (h : s.streamError = none) :
    exec .ccxor s =
      .next ((s.writeOut 0 (xorStream s.ck s.ctr s.nonce12 s.input)).setOutLen s.inLen).finish := by
  rw [exec, execCcxor_eq, h, State.checkedBy]

/-- Settles O36: OUT is the stream of IN at address 0, byte by byte. -/
theorem ccxorResult : Obligations.CcxorResult := by
  intro s hck hin hctr hout
  have hchecks : s.streamError = none := State.streamError_eq_none.mpr ⟨hck, hin, ctrOverflows_eq_false.mpr hctr⟩
  refine ⟨_, exec_ccxor_of_checks hchecks, Memory.wf_writeBytes hout 0 _, fun a => ?_⟩
  rw [State.setOutLen_out, State.writeOut_out, Memory.read_writeBytes_zero hout]
  simp only [length_xorStream, length_input]
  split
  case isTrue ha => rw [getElem_xorStream, getElem_input, State.nonce12]
  case isFalse => rfl

/-- Settles O37: the second command's input is the first one's stream, and the stream is its own inverse. -/
theorem ccxorTwice : Obligations.CcxorTwice := by
  intro s t u hck hin hctr hout ht hu
  have hchecks : s.streamError = none := State.streamError_eq_none.mpr ⟨hck, hin, ctrOverflows_eq_false.mpr hctr⟩
  have ht' : t = ((s.writeOut 0 (xorStream s.ck s.ctr s.nonce12 s.input)).setOutLen s.inLen).finish :=
    Host.Outcome.next.inj (ht.symm.trans (exec_ccxor_of_checks hchecks))
  have hchecks' : State.streamError { t with inp := t.out } = none := by
    rw [ht']
    exact hchecks
  have hwf : t.out.wf = true := by
    rw [ht']
    exact Memory.wf_writeBytes hout 0 _
  have hstream : xorStream t.ck t.ctr t.nonce12 (t.out.readBytes 0 t.inLen.toNat) = s.input := by
    have hread : (s.out.writeBytes 0 (xorStream s.ck s.ctr s.nonce12 s.input)).readBytes 0 s.inLen.toNat =
        xorStream s.ck s.ctr s.nonce12 s.input :=
      Memory.readBytes_writeBytes_zero hout (by rw [length_xorStream, length_input])
    rw [ht']
    exact (congrArg (xorStream s.ck s.ctr s.nonce12) hread).trans (xorStream_xorStream ..)
  obtain rfl := Host.Outcome.next.inj ((exec_ccxor_of_checks hchecks').symm.trans hu)
  refine ⟨rfl, by rw [ht']; rfl, fun a ha => ?_⟩
  calc
    _ = (t.out.writeBytes 0 s.input).read a := by
      rw [← hstream]
      rfl
    _ = s.inp.read a := by
      rw [Memory.read_writeBytes_zero hwf, dif_pos (by rwa [length_input]), getElem_input]

end Sys2Proof.Machine
end

section
/-! The composers (42_aead.md, 43_xaead.md): the MAC port and the MAC feed, what the encrypt and decrypt commands leave
with their checks passed, and what one does with the other's output (rules R90 to R113). -/

namespace Sys2Proof.Machine

/-! ## The MAC port and the MAC feed (rules R91 to R95, R104) -/

/-- Settles O40: each of the four is its effect, and the word's end. -/
theorem macPortOperations : Obligations.MacPortOperations := fun _ _ _ _ => ⟨rfl, rfl, rfl, rfl⟩

@[simp] theorem length_macUnits (n : Nat) (m : List Byte) : (macUnits n m).length = n := by
  induction n generalizing m with
  | zero => rfl
  | succ n ih => simp [macUnits, ih]

/-- PAD16 is zeros, fewer than 16, up to a multiple of 16 (rule R93). -/
theorem pad16_spec (n : Nat) :
    (∀ b ∈ pad16 n, b = 0#8) ∧ (pad16 n).length < 16 ∧ (n + (pad16 n).length) % 16 = 0 := by
  refine ⟨fun b hb => List.eq_of_mem_replicate hb, ?_, ?_⟩ <;> rw [pad16, List.length_replicate] <;> omega

/-- Settles O41: one MINIT and an MUPD for each unit of the MAC stream, whose pads are PAD16 of the two lengths. -/
theorem macFeedResult : Obligations.MacFeed := by
  intro s otk aad ct
  obtain ⟨hzeroA, hltA, hmodA⟩ := pad16_spec aad.length
  obtain ⟨hzeroC, hltC, hmodC⟩ := pad16_spec ct.length
  refine ⟨?_, pad16 aad.length, pad16 ct.length, issueAll_macFeed otk aad ct s, fun b hb => ?_, hltA, hltC,
    hmodA, hmodC⟩
  · rw [macFeed, List.length_cons, List.length_map, length_macUnits, length_macStream]
    omega
  · exact (List.mem_append.mp hb).elim (hzeroA b) (hzeroC b)

/-- Settles O42: the MAC stream determines what is authenticated. -/
theorem framingInjective : Obligations.FramingInjective := fun _ _ _ _ haad hct haad' hct' h =>
  macStream_injective h haad hct haad' hct'

/-! ## The commands with their checks passed -/

section
variable {s : State}

theorem exec_aeadenc_of_checks (h : s.encryptError = none) :
    exec .aeadenc s = .next (s.encrypted s.ck (slice s.nonce 0 12)) := by
  rw [exec, execAeadenc_eq, h, State.checkedBy, State.nonce12]

theorem exec_xaeadenc_of_checks (h : s.encryptError = none) :
    exec .xaeadenc s = .next (s.encrypted (hchacha20 s.ck (slice s.nonce 0 16)) (xnonce s.nonce)) := by
  rw [exec, execXaeadenc_eq, h, State.checkedBy]

theorem exec_aeaddec_of_checks (h : s.decryptError = none) :
    exec .aeaddec s = .next (s.decrypted s.ck (slice s.nonce 0 12)) := by
  rw [exec, execAeaddec_eq, h, State.checkedBy, State.nonce12]

theorem exec_xaeaddec_of_checks (h : s.decryptError = none) :
    exec .xaeaddec s = .next (s.decrypted (hchacha20 s.ck (slice s.nonce 0 16)) (xnonce s.nonce)) := by
  rw [exec, execXaeaddec_eq, h, State.checkedBy]

end

/-- The derived nonce is known by its bytes (rule R83). -/
theorem eq_xnonce_of_toList {nonce24 : Bytes 24} {nonce : Bytes 12}
    (h : nonce.toList = [0#8, 0#8, 0#8, 0#8] ++ (slice nonce24 16 8).toList) : nonce = xnonce nonce24 := by
  have hzeros : (zeros 4).toList = [0#8, 0#8, 0#8, 0#8] := by decide
  rw [xnonce, hzeros, ← h, ofList_toList]

/-! ## Encryption (rules R96, R98, R111) -/

/-- OUT_LEN of an encrypt command does not wrap (rule R35). -/
theorem State.toNat_inLen_add {s : State} (hin : s.inLen.toNat ≤ s.cfg.dataMax.val) :
    (s.inLen + 16#64).toNat = s.inLen.toNat + 16 := by
  have hmax := s.cfg.dataMax.isLt
  rw [BitVec.toNat_add]
  simp only [BitVec.toNat_ofNat]
  omega

/-- What an encrypt command under (key, nonce) leaves in OUT and OUT_LEN. -/
theorem State.encrypted_result {s : State} (key : Bytes 32) (nonce : Bytes 12)
    (hin : s.inLen.toNat ≤ s.cfg.dataMax.val) (hout : s.out.wf = true) :
    let ct := Sys2Proof.Machine.xorStream key s.ctr nonce s.input
    let tag := tagOf s.cfg key nonce s.assocData ct
    ∃ m, s.encrypted key nonce = { s with
        out := m, outLen := s.inLen + 16#64, latch := none, done := true, error := none, scratch := Scratch.zero } ∧
      (s.inLen + 16#64).toNat = s.inLen.toNat + 16 ∧ m.wf = true ∧
      m.readBytes 0 (s.inLen.toNat + 16) = ct ++ tag.toList ∧
      ∀ a, s.inLen.toNat + 16 ≤ a → m.read a = s.out.read a := by
  have hlen : (sealBytes s.cfg key nonce s.assocData s.input s.ctr).length = s.inLen.toNat + 16 := by
    rw [length_sealBytes, length_input]
  exact ⟨_, rfl, State.toNat_inLen_add hin, Memory.wf_writeBytes hout 0 _, Memory.readBytes_writeBytes_zero hout hlen,
    fun a ha => Memory.read_writeBytes_outside hout (.inr (by omega))⟩

/-- Settles O43: SEAL under CK and NONCE[0..12]. -/
theorem aeadencResult : Obligations.AeadencResult := by
  intro s hck hin haad hctr hout
  rw [exec_aeadenc_of_checks (State.encryptError_eq_none.mpr ⟨hck, hin, haad, ctrOverflows_eq_false.mpr hctr⟩)]
  simp only [Host.Outcome.next.injEq]
  exact s.encrypted_result s.ck (slice s.nonce 0 12) hin hout

/-- Settles O44: SEAL under the derived key and nonce. -/
theorem xaeadencResult : Obligations.XaeadencResult := by
  intro s hck hin haad hctr hout nonce hnonce
  rw [exec_xaeadenc_of_checks (State.encryptError_eq_none.mpr ⟨hck, hin, haad, ctrOverflows_eq_false.mpr hctr⟩),
    ← eq_xnonce_of_toList hnonce]
  simp only [Host.Outcome.next.injEq]
  exact s.encrypted_result (hchacha20 s.ck (slice s.nonce 0 16)) nonce hin hout

/-! ## Decryption (rules R97, R99, R102, R112) -/

theorem Memory.readBytes_add (m : Memory) (a n k : Nat) :
    m.readBytes a (n + k) = m.readBytes a n ++ m.readBytes (a + n) k := by
  induction n generalizing a with
  | zero => simp [Memory.readBytes]
  | succ n ih =>
    rw [Nat.add_right_comm, Memory.readBytes, ih, Memory.readBytes, List.cons_append, Nat.add_right_comm a 1 n,
      Nat.add_assoc a n 1]

/-- A byte register is that of a byte string of its length exactly when its bytes are that string. -/
theorem eq_ofList_iff {n : Nat} {v : Bytes n} {l : List Byte} (h : l.length = n) : v = ofList n l ↔ v.toList = l :=
  ⟨fun e => by rw [e, toList_ofList h], fun e => by rw [← e, ofList_toList]⟩

/-- The ciphertext of a decrypt command: all but the last 16 bytes of IN (rule R97). -/
def State.ciphertext (s : State) : List Byte := s.inp.readBytes 0 (s.inLen.toNat - 16)

/-- The tag a decrypt command is supplied with: the last 16 bytes of IN (rule R97). -/
def State.suppliedTag (s : State) : List Byte := s.inp.readBytes (s.inLen.toNat - 16) 16

theorem State.input_eq_append {s : State} (h : 16 ≤ s.inLen.toNat) : s.input = s.ciphertext ++ s.suppliedTag := by
  have hadd := s.inp.readBytes_add 0 (s.inLen.toNat - 16) 16
  rwa [Nat.sub_add_cancel h, Nat.zero_add] at hadd

/-- OPEN of IN: the tag is recomputed over the ciphertext and compared with the one supplied. -/
theorem State.openBytes_input {s : State} (h : 16 ≤ s.inLen.toNat) (key : Bytes 32) (nonce : Bytes 12) :
    openBytes s.cfg key nonce s.assocData s.input s.ctr =
      if (tagOf s.cfg key nonce s.assocData s.ciphertext).toList = s.suppliedTag then
        some (Sys2Proof.Machine.xorStream key s.ctr nonce s.ciphertext)
      else none := by
  have hct : s.input.take (s.input.length - 16) = s.ciphertext := by
    rw [s.input_eq_append h]
    exact List.take_left' (by simp [State.ciphertext, State.suppliedTag])
  have htag : s.input.drop (s.input.length - 16) = s.suppliedTag := by
    rw [s.input_eq_append h]
    exact List.drop_left' (by simp [State.ciphertext, State.suppliedTag])
  have hlen : s.suppliedTag.length = 16 := Memory.length_readBytes ..
  rw [openBytes]
  simp only [hct, htag, eq_ofList_iff hlen]

section
variable {s : State} {key : Bytes 32} {nonce : Bytes 12} (h : 16 ≤ s.inLen.toNat)
include h

theorem State.decrypted_of_rightTag
    (htag : (tagOf s.cfg key nonce s.assocData s.ciphertext).toList = s.suppliedTag) :
    s.decrypted key nonce =
      ((s.writeOut 0 (Sys2Proof.Machine.xorStream key s.ctr nonce s.ciphertext)).setOutLen
        (s.inLen - 16#64)).finish := by
  rw [State.decrypted, s.openBytes_input h, if_pos htag]

theorem State.decrypted_of_wrongTag
    (htag : (tagOf s.cfg key nonce s.assocData s.ciphertext).toList ≠ s.suppliedTag) :
    s.decrypted key nonce = (s.setOutLen 0#64).raise .authenticationFailure := by
  rw [State.decrypted, s.openBytes_input h, if_neg htag]

theorem State.rightTag_of_error (herr : (s.decrypted key nonce).error = none) :
    (tagOf s.cfg key nonce s.assocData s.ciphertext).toList = s.suppliedTag := by
  by_contra htag
  rw [State.decrypted_of_wrongTag h htag] at herr
  exact absurd herr nofun

end

theorem sixteen_le_minDec (c : Config) : 16 ≤ minDec c := by
  rw [minDec]
  split <;> decide

/-- What a decrypt command under (key, nonce) leaves, by the tag. -/
theorem State.decrypted_result {s : State} (key : Bytes 32) (nonce : Bytes 12) (h : 16 ≤ s.inLen.toNat)
    (hout : s.out.wf = true) :
    let tag := tagOf s.cfg key nonce s.assocData s.ciphertext
    (tag.toList = s.suppliedTag → ∃ m, s.decrypted key nonce = { s with
        out := m, outLen := s.inLen - 16#64, latch := none, done := true, error := none, scratch := Scratch.zero } ∧
      (s.inLen - 16#64).toNat = s.inLen.toNat - 16 ∧ m.wf = true ∧
      m.readBytes 0 (s.inLen.toNat - 16) = Sys2Proof.Machine.xorStream key s.ctr nonce s.ciphertext ∧
      ∀ a, s.inLen.toNat - 16 ≤ a → m.read a = s.out.read a) ∧
    (tag.toList ≠ s.suppliedTag → s.decrypted key nonce = { s with
        outLen := 0#64, latch := none, done := true, error := some .authenticationFailure,
        scratch := Scratch.zero }) := by
  refine ⟨fun htag => ?_, fun htag => State.decrypted_of_wrongTag h htag⟩
  have hlen : (Sys2Proof.Machine.xorStream key s.ctr nonce s.ciphertext).length = s.inLen.toNat - 16 := by
    rw [length_xorStream, State.ciphertext, Memory.length_readBytes]
  exact ⟨_, State.decrypted_of_rightTag h htag, BitVec.toNat_sub_of_le (BitVec.le_def.mpr h),
    Memory.wf_writeBytes hout 0 _, Memory.readBytes_writeBytes_zero hout hlen,
    fun a ha => Memory.read_writeBytes_outside hout (.inr (by omega))⟩

/-- Settles O45: OPEN under CK and NONCE[0..12]. -/
theorem aeaddecResult : Obligations.AeaddecResult := by
  intro s hck hin haad hmin hctr hout
  have h16 : 16 ≤ s.inLen.toNat := (sixteen_le_minDec s.cfg).trans hmin
  rw [exec_aeaddec_of_checks (State.decryptError_eq_none.mpr
    ⟨hck, hin, haad, hmin, ctrOverflows_eq_false.mpr (hctr.imp_right (.imp_left (by omega)))⟩)]
  simp only [Host.Outcome.next.injEq]
  exact s.decrypted_result s.ck (slice s.nonce 0 12) h16 hout

/-- Settles O46: OPEN under the derived key and nonce. -/
theorem xaeaddecResult : Obligations.XaeaddecResult := by
  intro s hck hin haad hmin hctr hout nonce hnonce
  have h16 : 16 ≤ s.inLen.toNat := (sixteen_le_minDec s.cfg).trans hmin
  rw [exec_xaeaddec_of_checks (State.decryptError_eq_none.mpr
    ⟨hck, hin, haad, hmin, ctrOverflows_eq_false.mpr (hctr.imp_right (.imp_left (by omega)))⟩),
    ← eq_xnonce_of_toList hnonce]
  simp only [Host.Outcome.next.injEq]
  exact s.decrypted_result (hchacha20 s.ck (slice s.nonce 0 16)) nonce h16 hout

/-! ## One command on the other's output (rules R103, R104, R113) -/

/-- A data command that ends without error passed its checks. -/
theorem State.checks_of_error {s t : State} {err : Option CmdError} (h : (s.checkedBy err t).error = none) :
    err = none := by
  cases err with
  | none => rfl
  | some e => exact absurd h nofun

/-- OUT copied to IN with its length. -/
def State.fedBack (t : State) : State := { t with inp := t.out, inLen := t.outLen }

section
variable {s : State} (key : Bytes 32) (nonce : Bytes 12) (hchecks : s.encryptError = none)
include hchecks

/-- The decrypt command's checks on the encrypt command's output. -/
theorem State.decryptError_fedBack_encrypted (hmin : minDec s.cfg - 16 ≤ s.inLen.toNat) :
    (s.encrypted key nonce).fedBack.decryptError = none := by
  obtain ⟨hck, hin, haad, hctr⟩ := State.encryptError_eq_none.mp hchecks
  have hlen := State.toNat_inLen_add hin
  refine State.decryptError_eq_none.mpr ⟨hck, ?_, haad, ?_, ?_⟩
  · exact hlen.trans_le (Nat.add_le_add_right hin 16)
  · exact (Nat.sub_le_iff_le_add.mp hmin).trans hlen.ge
  · have hsub : (s.inLen + 16#64).toNat - 16 = s.inLen.toNat := by omega
    exact (congrArg (ctrOverflows s.cfg s.ctr) hsub).trans hctr

theorem State.input_fedBack_encrypted (hout : s.out.wf = true) :
    (s.encrypted key nonce).fedBack.input = sealBytes s.cfg key nonce s.assocData s.input s.ctr := by
  obtain ⟨-, hin, -⟩ := State.encryptError_eq_none.mp hchecks
  refine Memory.readBytes_writeBytes_zero hout ?_
  rw [length_sealBytes, length_input]
  exact (State.toNat_inLen_add hin).symm

/-- Under the same key and nonce, OPEN of what SEAL left is the plaintext. -/
theorem State.decrypted_fedBack_encrypted (hout : s.out.wf = true) :
    (s.encrypted key nonce).fedBack.decrypted key nonce =
      (((s.encrypted key nonce).fedBack.writeOut 0 s.input).setOutLen s.inLen).finish := by
  have hplain : openBytes (s.encrypted key nonce).fedBack.cfg key nonce (s.encrypted key nonce).fedBack.assocData
      (s.encrypted key nonce).fedBack.input (s.encrypted key nonce).fedBack.ctr = some s.input := by
    rw [State.input_fedBack_encrypted key nonce hchecks hout]
    exact openBytes_sealBytes ..
  have hlen : (s.encrypted key nonce).fedBack.inLen - 16#64 = s.inLen := BitVec.add_sub_cancel ..
  rw [State.decrypted, hplain, hlen]

/-- What a decrypt command under the same key and nonce leaves of an encrypt command's output (rule R103). -/
theorem State.checkedBy_fedBack_encrypted (hout : s.out.wf = true) (hmin : minDec s.cfg - 16 ≤ s.inLen.toNat) :
    let r := (s.encrypted key nonce).fedBack
    let u := r.checkedBy r.decryptError (r.decrypted key nonce)
    u.error = none ∧ u.outLen = s.inLen ∧ ∀ a, a < s.inLen.toNat → u.out.read a = s.inp.read a := by
  have hwf : (s.encrypted key nonce).out.wf = true := Memory.wf_writeBytes hout 0 _
  intro r u
  have hu : u = r.checkedBy r.decryptError (r.decrypted key nonce) := rfl
  rw [hu, State.decryptError_fedBack_encrypted key nonce hchecks hmin, State.checkedBy,
    State.decrypted_fedBack_encrypted key nonce hchecks hout]
  refine ⟨rfl, rfl, fun a ha => ?_⟩
  calc
    _ = ((s.encrypted key nonce).out.writeBytes 0 s.input).read a := rfl
    _ = s.inp.read a := by rw [Memory.read_writeBytes_zero hwf, dif_pos (by rwa [length_input]), getElem_input]

end

/-- Settles O47: the decrypt command runs under the key and nonce the encrypt command ran under. -/
theorem aeadRoundTrip : Obligations.AeadRoundTrip := by
  intro enc dec s t hpair hout hexec herr hmin
  have of_pair (key : Bytes 32) (nonce : Bytes 12)
      (ht : exec enc s = .next (s.checkedBy s.encryptError (s.encrypted key nonce)))
      (hu : exec dec (s.encrypted key nonce).fedBack = .next ((s.encrypted key nonce).fedBack.checkedBy
        (s.encrypted key nonce).fedBack.decryptError ((s.encrypted key nonce).fedBack.decrypted key nonce))) :
      ∃ u, exec dec t.fedBack = .next u ∧ u.error = none ∧ u.outLen = s.inLen ∧
        ∀ a, a < s.inLen.toNat → u.out.read a = s.inp.read a := by
    obtain rfl := Host.Outcome.next.inj (ht.symm.trans hexec)
    have hchecks := State.checks_of_error herr
    have hresult := State.checkedBy_fedBack_encrypted key nonce hchecks hout hmin
    rw [hchecks]
    exact ⟨_, hu, hresult⟩
  obtain ⟨rfl, rfl⟩ | ⟨rfl, rfl⟩ := hpair
  · exact of_pair _ _ (execAeadenc_eq s) (execAeaddec_eq _)
  · exact of_pair _ _ (execXaeadenc_eq s) (execXaeaddec_eq _)

/-- Settles O48: the ciphertext, and so the tag recomputed, is as before, and the tag supplied is another. -/
theorem wrongTagFails : Obligations.WrongTagFails := by
  intro dec s t m hdec hexec herr hct htag
  have of_command (key : Bytes 32) (nonce : Bytes 12)
      (ht : exec dec s = .next (s.checkedBy s.decryptError (s.decrypted key nonce)))
      (hu : exec dec { s with inp := m } = .next (State.checkedBy { s with inp := m }
        (State.decryptError { s with inp := m }) (State.decrypted { s with inp := m } key nonce))) :
      exec dec { s with inp := m } =
        .next ((State.setOutLen { s with inp := m } 0#64).raise .authenticationFailure) := by
    obtain rfl := Host.Outcome.next.inj (ht.symm.trans hexec)
    have hchecks : s.decryptError = none := State.checks_of_error herr
    have hchecks' : State.decryptError { s with inp := m } = none := hchecks
    rw [hchecks] at herr
    obtain ⟨-, -, -, hmin, -⟩ := State.decryptError_eq_none.mp hchecks
    have h16 : 16 ≤ s.inLen.toNat := (sixteen_le_minDec s.cfg).trans hmin
    have hright := State.rightTag_of_error h16 herr
    have hct' : State.ciphertext { s with inp := m } = s.ciphertext := hct
    rw [hu, hchecks', State.checkedBy, State.decrypted_of_wrongTag (s := { s with inp := m }) h16]
    rw [hct']
    exact fun h => htag (h.symm.trans hright)
  obtain rfl | rfl := hdec
  · exact of_command _ _ (execAeaddec_eq s) (execAeaddec_eq _)
  · exact of_command _ _ (execXaeaddec_eq s) (execXaeaddec_eq _)

end Sys2Proof.Machine
end

section
/-! The field port (44_x25519.md section 1): the eight operations as exact arithmetic mod 2^255 - 19 (rules R54, R121 to
R125), and the words it refuses (rule R55). -/

namespace Sys2Proof.Machine

/-! ## A field-port word is its effect, or refused -/

theorem exec_of_fop {i : Instr} {w : BitVec 16} (h : encode i = .fop w) (s : State) :
    exec i s = portResult i.wf (issue i s) := by
  cases i
  case fdec | fenc | fadd | fsub | fmul | fsqr | finv | fcswap => rfl
  all_goals exact absurd h nofun

theorem exec_of_fop_wf {i : Instr} {w : BitVec 16} (h : encode i = .fop w) (hwf : i.wf = true) (s : State) :
    exec i s = .next (issue i s).issued := by
  rw [exec_of_fop h, portResult_next hwf]

/-- Only a field-port operation names registers. -/
theorem exists_fop_of_not_wf {i : Instr} (h : i.wf = false) : ∃ w, encode i = .fop w := by
  cases i
  case fdec | fenc | fadd | fsub | fmul | fsqr | finv | fcswap => exact ⟨_, rfl⟩
  all_goals exact absurd h nofun

/-- Settles O54: the register check stands before the effect's end. -/
theorem registersAboveTwelveRefused : Obligations.RegistersAboveTwelveRefused := by
  intro i s h
  obtain ⟨w, hw⟩ := exists_fop_of_not_wf h
  rw [exec_of_fop hw, portResult, h, if_neg Bool.false_ne_true]

/-! ## The operations (rules R121 to R125) -/

/-- Settles O49: each byte source as a number, then the field unit's decoding. -/
theorem fdecResult : Obligations.FdecResult := by
  intro d src s hd
  refine ⟨feDec (s.fdecBytes src), exec_of_fop_wf (i := .fdec d src) rfl ((FReg.usable_iff d).mpr hd) s, ?_⟩
  have hconst {v : Nat} (hv : v < 256 ^ 32) : leint (leBytes 32 v).toList = v := by
    rw [leint_leBytes, Nat.mod_eq_of_lt hv]
  rw [feDec_val, fieldPrime_eq]
  cases src with
  | u =>
    have hbase : basePoint.toList = 9#8 :: List.replicate 31 0#8 := by decide
    simp only [State.fdecBytes, apply_ite Vector.toList, hbase]
  | one => rw [State.fdecBytes, hconst (by decide)]
  | zero => rw [State.fdecBytes, hconst (by decide)]
  | a24 => rw [State.fdecBytes, hconst (by decide)]

/-- Settles O50: the encoding is the number, which is below p. -/
theorem fencResult : Obligations.FencResult := by
  intro a s ha
  have henc : leint (feEnc (s.fe a)).toList = (s.fe a).val := leint_feEnc (s.fe a)
  refine ⟨feEnc (s.fe a), ?_, henc, ?_⟩
  · rw [exec_of_fop_wf (i := .fenc a) rfl ((FReg.usable_iff a).mpr ha), issue, fencEffect,
      State.setResult, State.issued]
  · rw [henc, ← fieldPrime_eq]
    exact (s.fe a).isLt

/-- Settles O51: sums, differences, products and squares are exact integers before the reduction. -/
theorem fieldArithmetic : Obligations.FieldArithmetic := by
  intro d a b s hd ha hb x y writes
  have hp : ((fieldPrime : Nat) : Int) = 2 ^ 255 - 19 := by decide
  have hd' := (FReg.usable_iff d).mpr hd
  have ha' := (FReg.usable_iff a).mpr ha
  have hb' := (FReg.usable_iff b).mpr hb
  have hwf3 : (d.usable && a.usable && b.usable) = true := by rw [hd', ha', hb']; rfl
  have hwf2 : (d.usable && a.usable) = true := by rw [hd', ha']; rfl
  refine ⟨⟨feAdd (s.fe a) (s.fe b), exec_of_fop_wf (i := .fadd d a b) rfl hwf3 s, ?_⟩,
    ⟨feSub (s.fe a) (s.fe b), exec_of_fop_wf (i := .fsub d a b) rfl hwf3 s, ?_⟩,
    ⟨feMul (s.fe a) (s.fe b), exec_of_fop_wf (i := .fmul d a b) rfl hwf3 s, ?_⟩,
    ⟨feSqr (s.fe a), exec_of_fop_wf (i := .fsqr d a) rfl hwf2 s, ?_⟩⟩
  · rw [feAdd_val, Int.natCast_mod, Nat.cast_add, hp]
    rfl
  · rw [feSub_val, hp]
    rfl
  · rw [feMul_val, Int.natCast_mod, Nat.cast_mul, hp]
    rfl
  · rw [feSqr_val, Int.natCast_mod, Nat.cast_mul, hp, ← pow_two]
    rfl

/-- Settles O52: the power p - 2 is the inverse, since p is prime. -/
theorem finvResult : Obligations.FinvResult := by
  intro d a s hd ha
  have hwf : (d.usable && a.usable) = true := by rw [(FReg.usable_iff d).mpr hd, (FReg.usable_iff a).mpr ha]; rfl
  exact ⟨feInv (s.fe a), exec_of_fop_wf (i := .finv d a) rfl hwf s, feInv_zero (s.fe a), feInv_mul (s.fe a)⟩

theorem getElem_set_register (f : Vector Fe 16) (i j : FReg) (v : Fe) :
    (f.set i v)[j] = if j = i then v else f[j] := by
  simp [Vector.getElem_set, Fin.ext_iff, eq_comm]

/-- Settles O53: both registers are read before either is written. -/
theorem fcswapResult : Obligations.FcswapResult := by
  intro a b s ha hb
  have hwf : (a.usable && b.usable) = true := by rw [(FReg.usable_iff a).mpr ha, (FReg.usable_iff b).mpr hb]; rfl
  refine ⟨fieldFile s.scratch.swap s.scratch.f (.fcswap a b), ?_, ?_⟩
  · rw [exec_of_fop_wf (i := .fcswap a b) rfl hwf, issue_onFieldFile rfl]
    rfl
  · rw [fieldFile]
    cases s.scratch.swap with
    | false => exact ⟨rfl, rfl, fun _ _ _ => rfl⟩
    | true =>
      simp only [if_true, getElem_set_register, true_and]
      refine ⟨?_, fun k hka hkb => ?_⟩
      · split
        case isTrue hab => rw [hab]
        case isFalse => rfl
      · rw [if_neg hkb, if_neg hka]

end Sys2Proof.Machine
end

section
/-! X25519 (44_x25519.md): the clamped scalar bit by bit, the ladder's schedule of port words, and points that decode to
0 (rules R126 to R132, R139, R140). -/

namespace Sys2Proof.Machine

/-! ## The clamped scalar (rules R126, R127) -/

/-- Bit `t` of the number of a byte string is bit `t mod 8` of its byte `t / 8`. -/
theorem testBit_leint (l : List Byte) (t : Nat) : (leint l).testBit t = (l[t / 8]?.getD 0#8).getLsbD (t % 8) := by
  induction l generalizing t with
  | nil => simp [leint]
  | cons b l ih =>
    have hb : b.toNat < 2 ^ 8 := b.isLt
    rw [leint, Nat.add_comm, show (256 : Nat) = 2 ^ 8 by decide, Nat.testBit_two_pow_mul_add _ hb]
    split
    case isTrue ht => simp [Nat.div_eq_of_lt ht, Nat.mod_eq_of_lt ht, BitVec.testBit_toNat]
    case isFalse ht =>
      rw [ih, show t / 8 = (t - 8) / 8 + 1 by omega, List.getElem?_cons_succ, show (t - 8) % 8 = t % 8 by omega]

theorem testBit_leint_toList {n : Nat} (v : Bytes n) (t : Nat) :
    (leint v.toList).testBit t = (byteAt v (t / 8)).getLsbD (t % 8) := by
  rw [testBit_leint, byteAt, Vector.getElem?_toList]

theorem scalarBit_eq_testBit (e : Bytes 32) (t : Nat) : scalarBit e t = (leint e.toList).testBit t := by
  rw [testBit_leint_toList, ← BitVec.testBit_toNat, Nat.testBit_eq_decide_div_mod_eq, scalarBit]

/-- CLAMP byte by byte. -/
theorem byteAt_clamp (k : Bytes 32) {i : Nat} (hi : i < 32) :
    byteAt (clamp k) i =
      if i = 0 then byteAt k 0 &&& 0xF8#8
      else if i = 31 then byteAt k 31 &&& 0x7F#8 ||| 0x40#8
      else byteAt k i := by
  rw [byteAt_of_lt _ hi, byteAt_of_lt _ hi, byteAt_of_lt k (show 0 < 32 by decide),
    byteAt_of_lt k (show 31 < 32 by decide)]
  by_cases h0 : i = 0
  · subst h0
    simp [clamp]
  · by_cases h31 : i = 31
    · subst h31
      simp [clamp]
    · simp [clamp, h0, h31, Ne.symm h0, Ne.symm h31]

theorem getLsbD_lowMask : ∀ r < 8, (0xF8#8).getLsbD r = decide (3 ≤ r) := by decide

theorem getLsbD_highMask : ∀ r < 8, (0x7F#8).getLsbD r = decide (r < 7) := by decide

theorem getLsbD_topBit : ∀ r < 8, (0x40#8).getLsbD r = decide (r = 6) := by decide

/-- CLAMP bit by bit. -/
theorem testBit_clamp (k : Bytes 32) {t : Nat} (ht : t < 256) :
    (leint (clamp k).toList).testBit t =
      if t < 3 ∨ t = 255 then false else if t = 254 then true else (leint k.toList).testBit t := by
  have hr : t % 8 < 8 := Nat.mod_lt t (by decide)
  rw [testBit_leint_toList, testBit_leint_toList, byteAt_clamp k (by omega)]
  by_cases h0 : t / 8 = 0
  · rw [if_pos h0, h0, BitVec.getLsbD_and, getLsbD_lowMask _ hr]
    by_cases h3 : t < 3
    · rw [if_pos (.inl h3), decide_eq_false (by omega), Bool.and_false]
    · rw [if_neg (by omega), if_neg (by omega), decide_eq_true (by omega), Bool.and_true]
  · rw [if_neg h0]
    by_cases h31 : t / 8 = 31
    · rw [if_pos h31, h31, BitVec.getLsbD_or, BitVec.getLsbD_and, getLsbD_highMask _ hr, getLsbD_topBit _ hr]
      obtain rfl | rfl | h : t = 255 ∨ t = 254 ∨ t < 254 := by omega
      · simp
      · simp
      · rw [if_neg (by omega), if_neg (by omega), decide_eq_true (by omega), decide_eq_false (by omega), Bool.and_true,
          Bool.or_false]
    · rw [if_neg h31, if_neg (by omega), if_neg (by omega)]

theorem clamp_clamp (k : Bytes 32) : clamp (clamp k) = clamp k := by
  refine Vector.toList_inj.mp (leint_inj (by simp) (Nat.eq_of_testBit_eq fun t => ?_))
  by_cases ht : t < 256
  · rw [testBit_clamp _ ht, testBit_clamp _ ht]
    split
    · rfl
    · split <;> rfl
  · have hbyte (v : Bytes 32) : (leint v.toList).testBit t = false := by
      have hlt := leint_lt v.toList
      rw [Vector.length_toList, show (256 : Nat) ^ 32 = 2 ^ 256 by decide] at hlt
      exact Nat.testBit_lt_two_pow (hlt.trans_le (Nat.pow_le_pow_right (by decide) (by omega)))
    rw [hbyte, hbyte]

/-- Settles O55: CLAMP changes the bits of bytes 0 and 31 that its masks name. -/
theorem clampBits : Obligations.ClampBits := fun k t ht =>
  ⟨testBit_clamp k ht, fun _ => scalarBit_eq_testBit (clamp k) t, clamp_clamp k⟩

/-! ## The ladder step (rule R130) -/

/-- Settles O56: the step's words act on the field registers alone, and there they compute the formulas. -/
theorem ladderStepFormulas : Obligations.LadderStepFormulas := by
  intro s h5 p q
  obtain ⟨hpair, h0, h5'⟩ := ladderStep_file s.scratch.swap s.scratch.f h5
  have hissue := issueAll_onFieldFile ladderStep ladderStep_onFieldFile s
  generalize ladderStep.foldl (fieldFile s.scratch.swap) s.scratch.f = f at hpair h0 h5' hissue
  have hq : pairOf f = q := hpair
  rw [← hq]
  exact ⟨f, hissue, rfl, rfl, rfl, rfl, h0, h5'⟩

/-! ## The schedule (rules R128 to R132, R139) -/

theorem portWords_append (a b : List Control) : portWords (a ++ b) = portWords a ++ portWords b := by
  induction a with
  | nil => rfl
  | cons c a ih => cases c <;> simp [portWords, ih]

theorem portWords_issue (is : List Instr) : portWords (is.map .issue) = is := by
  induction is with
  | nil => rfl
  | cons i is ih => rw [List.map_cons, portWords, ih]

theorem portWords_ladderIteration (t : Nat) : portWords (ladderIteration t) = ladderStep := by
  rw [ladderIteration, List.cons_append, portWords, portWords_append, portWords_issue, portWords, portWords,
    List.append_nil]

theorem portWords_ladderLoop (n : Nat) : portWords (ladderLoop n) = (List.replicate n ladderStep).flatten := by
  induction n with
  | zero => rfl
  | succ n ih =>
    rw [ladderLoop, portWords_append, portWords_ladderIteration, ih, List.replicate_succ, List.flatten_cons]

theorem portWords_ladderSchedule :
    portWords ladderSchedule = ladderPrologue ++ (List.replicate 255 ladderStep).flatten ++ ladderEpilogue := by
  rw [ladderSchedule]
  simp only [portWords_append, portWords_issue, portWords_ladderLoop, portWords, List.append_nil]

theorem map_encode_ladderSchedule :
    (portWords ladderSchedule).map encode =
      ladderPrologue.map encode ++ (List.replicate 255 (ladderStep.map encode)).flatten ++
        ladderEpilogue.map encode := by
  rw [portWords_ladderSchedule, List.map_append, List.map_append, List.map_flatten, List.map_replicate]

/-- A count over the words of the schedule: those of the prologue, 255 steps and the epilogue. -/
theorem countP_ladderSchedule (p : Encoded → Bool) :
    ((portWords ladderSchedule).map encode).countP p =
      (ladderPrologue.map encode).countP p + 255 * (ladderStep.map encode).countP p +
        (ladderEpilogue.map encode).countP p := by
  rw [map_encode_ladderSchedule, List.countP_append, List.countP_append, List.countP_flatten, List.map_replicate,
    List.sum_replicate, smul_eq_mul]

/-- The words of the ladder microprogram, written out (rules R128, R130, R131). -/
theorem ladderPrologue_words :
    ladderPrologue.map encode = [0x1000#16, 0x1101#16, 0x1202#16, 0x1300#16, 0x1401#16, 0x1503#16].map Encoded.fop := by
  decide

theorem ladderStep_words :
    ladderStep.map encode = [0x8013#16, 0x8024#16, 0x3612#16, 0x6760#16, 0x4812#16, 0x6980#16, 0x4A79#16, 0x3B34#16,
      0x4C34#16, 0x5CC6#16, 0x5BB8#16, 0x33CB#16, 0x6330#16, 0x44CB#16, 0x6440#16, 0x5404#16, 0x5179#16, 0x525A#16,
      0x3272#16, 0x52A2#16].map Encoded.fop := by decide

theorem ladderEpilogue_words :
    ladderEpilogue.map encode = [0x8013#16, 0x8024#16, 0x7220#16, 0x5112#16, 0x2010#16].map Encoded.fop := by decide

theorem length_ladderSchedule : ((portWords ladderSchedule).map encode).length = 5111 := by
  rw [map_encode_ladderSchedule, List.length_append, List.length_append, List.length_flatten, List.map_replicate,
    List.sum_replicate]
  rfl

/-- SKPUB is the run of the schedule with U the base point. -/
theorem exec_skpub_of_valid {s : State} (h : s.skValid = true) :
    exec .skpub s = .next (runSchedule ladderSchedule
      { s with scratch := { s.scratch with e := clamp s.sk, uBase := true } }).finish := by
  rw [exec, execSkpub, if_neg (by simp [h]), State.scalarMult, State.withScratch]

/-- SKEXCH is the run of the same schedule with U the register POINT. -/
theorem exec_skexch_of_valid {s : State} (h : s.skValid = true) :
    exec .skexch s = .next (runSchedule ladderSchedule
      { s with scratch := { s.scratch with e := clamp s.sk, uBase := false } }).finish := by
  rw [exec, execSkexch, if_neg (by simp [h]), State.scalarMult, State.withScratch]

/-- Settles O57: the loop repeats one step, so words and counts are three short lists and a factor of 255. -/
theorem fixedSchedule : Obligations.FixedSchedule := by
  have hwords := map_encode_ladderSchedule
  rw [ladderPrologue_words, ladderStep_words, ladderEpilogue_words] at hwords
  have hcount (p : Encoded → Bool) {n : Nat} (hn : (ladderPrologue.map encode).countP p +
      255 * (ladderStep.map encode).countP p + (ladderEpilogue.map encode).countP p = n) :
      ((portWords ladderSchedule).map encode).countP p = n := (countP_ladderSchedule p).trans hn
  refine ⟨hwords, length_ladderSchedule, hcount _ ?_, hcount _ ?_, hcount _ ?_, hcount _ ?_, hcount _ ?_, hcount _ ?_,
    hcount _ ?_, hcount _ ?_, fun s hsk => ⟨exec_skpub_of_valid hsk, exec_skexch_of_valid hsk⟩⟩ <;>
    decide

/-! ## Points that decode to 0 (rule R140) -/

theorem feAdd_cast (a b : Fe) : ((feAdd a b).val : ZMod fieldPrime) = a.val + b.val := by
  rw [feAdd_val, ZMod.natCast_mod, Nat.cast_add]

theorem feMul_cast (a b : Fe) : ((feMul a b).val : ZMod fieldPrime) = a.val * b.val := by
  rw [feMul_val, ZMod.natCast_mod, Nat.cast_mul]

theorem feSqr_cast (a : Fe) : ((feSqr a).val : ZMod fieldPrime) = a.val * a.val := by
  rw [feSqr_val, ZMod.natCast_mod, Nat.cast_mul]

theorem feSub_cast (a b : Fe) : ((feSub a b).val : ZMod fieldPrime) = a.val - b.val := by
  rw [feSub, Fe.ofNat_val, ZMod.natCast_mod, Nat.cast_add, Nat.cast_sub b.isLt.le, ZMod.natCast_self, zero_sub,
    sub_eq_add_neg]

theorem Fe.val_eq_zero_iff (a : Fe) : a.val = 0 ↔ (a.val : ZMod fieldPrime) = 0 := by
  rw [ZMod.natCast_eq_zero_iff]
  exact ⟨fun h => h ▸ dvd_zero _, fun h => Nat.eq_zero_of_dvd_of_lt h a.isLt⟩

/-- Each pair stands for the neutral point (z = 0) or the point whose u is 0 (x = 0). -/
def LadderPair.Degenerate (p : LadderPair) : Prop :=
  (p.x2.val = 0 ∨ p.z2.val = 0) ∧ (p.x3.val = 0 ∨ p.z3.val = 0)

theorem LadderPair.Degenerate.cswap {p : LadderPair} (h : p.Degenerate) (swap : Bool) : (p.cswap swap).Degenerate := by
  cases swap with
  | false => exact h
  | true => exact h.symm

/-- With u = 0 a step leads to the neutral point in both pairs: e = (x + z)^2 - (x - z)^2 is 4xz. -/
theorem LadderPair.Degenerate.advance {p : LadderPair} (h : p.Degenerate) {u : Fe} (hu : u.val = 0) :
    (p.advance u).Degenerate := by
  have hxz : (p.x2.val : ZMod fieldPrime) * p.z2.val = 0 := by
    obtain hx | hz := h.1
    · rw [hx, Nat.cast_zero, zero_mul]
    · rw [hz, Nat.cast_zero, mul_zero]
  have he : (feSub (feSqr (feAdd p.x2 p.z2)) (feSqr (feSub p.x2 p.z2))).val = 0 := by
    rw [Fe.val_eq_zero_iff, feSub_cast, feSqr_cast, feSqr_cast, feAdd_cast, feSub_cast]
    linear_combination 4 * hxz
  have hz2 : (p.advance u).z2.val = 0 := by
    rw [LadderPair.advance, feMul_val, he, Nat.zero_mul, Nat.zero_mod]
  have hz3 : (p.advance u).z3.val = 0 := by
    rw [LadderPair.advance, feMul_val, hu, Nat.zero_mul, Nat.zero_mod]
  exact ⟨.inr hz2, .inr hz3⟩

theorem ladderPairs_degenerate (e : Bytes 32) {u : Fe} (hu : u.val = 0) (n : Nat) (prev : Bool) {p : LadderPair}
    (h : p.Degenerate) : (ladderPairs e u n prev p).1.Degenerate := by
  induction n generalizing prev p with
  | zero => exact h
  | succ n ih => exact ih _ ((h.cswap _).advance hu)

/-- The quotient of a degenerate pair is 0, since the inverse of 0 is 0 (rule R124). -/
theorem LadderPair.Degenerate.quotient {p : LadderPair} (h : p.Degenerate) : (feMul p.x2 (feInv p.z2)).val = 0 := by
  rw [feMul_val]
  obtain hx | hz := h.1
  · rw [hx, Nat.zero_mul, Nat.zero_mod]
  · rw [feInv_zero _ hz, Nat.mul_zero, Nat.zero_mod]

theorem feEnc_of_zero {e : Fe} (h : e.val = 0) : feEnc e = zeros 32 := by
  rw [feEnc, h]
  decide

theorem x25519_of_zero (scalar : Bytes 32) {point : Bytes 32} (hu : (feDec point).val = 0) :
    x25519 scalar point = zeros 32 := by
  have hstart : LadderPair.Degenerate { x2 := Fe.ofNat 1, z2 := Fe.ofNat 0, x3 := feDec point, z3 := Fe.ofNat 1 } :=
    ⟨.inr rfl, .inl hu⟩
  have hend := ladderPairs_degenerate (clamp scalar) hu 255 false hstart
  rw [x25519]
  exact feEnc_of_zero (hend.cswap _).quotient

/-- Settles O60: the ladder never leaves the two points whose quotient is 0. -/
theorem zeroPointZeroResult : Obligations.ZeroPointZeroResult := by
  intro s hsk hpoint
  have hu : (feDec s.point).val = 0 := by rw [feDec_val, fieldPrime_eq, hpoint]
  have hexec : exec .skexch s = .next (s.setResult (x25519 s.sk s.point)).finish := by
    rw [exec, execSkexch_eq, if_pos hsk]
  exact ⟨_, hexec, rfl, x25519_of_zero s.sk hu⟩

end Sys2Proof.Machine
end
